-- ==== Sys2Proof/Word.lean ====
section
/-! DEFINITION. The bit-vector types of CTXB: bytes, 16-bit field registers, 32-bit words (rules R7, R21). -/

namespace Sys2Proof

/-- A byte of `MEM`, of a header or of a pixel (rules R7, R13). -/
abbrev Byte := BitVec 8

/-- A 16-bit quantity: the registers `WIDTH` and `HEIGHT` (rule R23). -/
abbrev Half := BitVec 16

/-- A 32-bit quantity: a command word, a host bus word, a full register (rule R7). -/
abbrev Word := BitVec 32

end Sys2Proof
end

