-- ==== Sys2Proof/Config.lean ====
section
/-! DEFINITION. What an implementation fixes: the parameters of rule R6 (`MEM_SIZE`, `REG_BASE`, `MEM_BASE`, the
record `DdsConst` of rule R131), the reading of the hand-over of `MEM` on which the rules differ (log entry 17), and
the one free value of the model, a byte of `MEM` nothing has written (rule R37). -/

namespace Sys2Proof

/-- Four bytes at increasing addresses: the magic tag and the FourCC tags (rules R63, R131). -/
structure Quad where
  b0 : Byte
  b1 : Byte
  b2 : Byte
  b3 : Byte
deriving DecidableEq, Repr

/-- The byte order of the target header's 32-bit fields, an entry of `DdsConst` (rules R63, R131). -/
inductive ByteOrder where
  | little
  | big
deriving DecidableEq, Repr

/-- Where a 32-bit field stands in the 128-byte target header: a byte offset that leaves it inside. -/
abbrev FieldOffset := Fin 125

/-- The byte offsets in `DdsConst` (rules R6, R130, R131; U7 of 93), one for each field of rule R130 that a command
reads or writes with a value of its own. `magic` stands at 0, first in the document's list. `depth`, `reserved1`,
`caps2` to `caps4` and `reserved2` have none: they are the bytes no other field takes, written as 0 by `DDSBUILD` and
read by no command, wherever they stand (log entry 9). -/
structure DdsOffsets where
  size : FieldOffset
  flags : FieldOffset
  height : FieldOffset
  width : FieldOffset
  pitchOrLinearSize : FieldOffset
  mipMapCount : FieldOffset
  pfSize : FieldOffset
  pfFlags : FieldOffset
  pfFourcc : FieldOffset
  pfRgbBitCount : FieldOffset
  pfRMask : FieldOffset
  pfGMask : FieldOffset
  pfBMask : FieldOffset
  pfAMask : FieldOffset
  caps : FieldOffset
deriving DecidableEq, Repr

/-- The offsets of rule R130. -/
def DdsOffsets.default : DdsOffsets where
  size := 4
  flags := 8
  height := 12
  width := 16
  pitchOrLinearSize := 20
  mipMapCount := 28
  pfSize := 76
  pfFlags := 80
  pfFourcc := 84
  pfRgbBitCount := 88
  pfRMask := 92
  pfGMask := 96
  pfBMask := 100
  pfAMask := 104
  caps := 108

/-- The record `DdsConst` of rules R6 and R131: the entries the document does not fix, byte offsets among them.
`HDRSIZE` and the four masks are from the document and are constants (rule R5), not entries here. -/
structure DdsConst where
  magic : Quad
  order : ByteOrder
  offsets : DdsOffsets
  fCaps : Word
  fHeight : Word
  fWidth : Word
  fPixelformat : Word
  fMipmapcount : Word
  fLinearsize : Word
  cTexture : Word
  cComplex : Word
  cMipmap : Word
  pfSize : Word
  pfAlphapixels : Word
  pfFourcc : Word
  pfRgb : Word
  bitcountRaw : Word
  fourccDxt1 : Quad
  fourccDxt5 : Quad
deriving DecidableEq, Repr

/-- The default column of rule R131, at the offsets of rule R130 (general knowledge of the DDS format, not from the
document). -/
def DdsConst.default : DdsConst where
  magic := ⟨0x44, 0x44, 0x53, 0x20⟩
  order := .little
  offsets := DdsOffsets.default
  fCaps := 0x00000001
  fHeight := 0x00000002
  fWidth := 0x00000004
  fPixelformat := 0x00001000
  fMipmapcount := 0x00020000
  fLinearsize := 0x00080000
  cTexture := 0x00001000
  cComplex := 0x00000008
  cMipmap := 0x00400000
  pfSize := 32
  pfAlphapixels := 0x00000001
  pfFourcc := 0x00000004
  pfRgb := 0x00000040
  bitcountRaw := 32
  fourccDxt1 := ⟨0x44, 0x58, 0x54, 0x31⟩
  fourccDxt5 := ⟨0x44, 0x58, 0x54, 0x35⟩

/-- When the host gets `MEM` back after a command. The rules differ, so the model carries both readings, and a claim
about every state holds for both (log entry 17). -/
inductive HandOver where
  /-- rule R246: when a `STATUS` read has returned `BUSY = 0`; an access before that gets no step -/
  | untilStatusRead
  /-- rules R62, R196, U3: when `BUSY = 0`; an access before the `STATUS` read has its effect and the run is recorded
  as one that rule R246 gives no meaning -/
  | whileBusy
deriving DecidableEq, Repr

/-- The parameters of the step relation (rules R6, R9). `regBase` and `memBase` are bus addresses that no rule's
effect depends on. `handOver` is the model's own (log entry 17). -/
structure Config where
  memSize : Nat
  regBase : Nat
  memBase : Nat
  dds : DdsConst
  handOver : HandOver
deriving DecidableEq, Repr

/-- The defaults of rule R6: `MEM_SIZE = 65536` and the default `DdsConst`. The two bus bases, which rule R6 leaves
without a default, are 0 (DESIGN CHOICE, log entry 3). `MEM` is handed over as rule R246 says, the reading that
refuses more (DESIGN CHOICE, log entry 17). -/
def Config.default : Config where
  memSize := 65536
  regBase := 0
  memBase := 0
  dds := DdsConst.default
  handOver := .untilStatusRead

/-- FREE VALUE (log entry 1). The content of address `a` of `MEM` after the `epoch`-th reset, as long as nothing has
written it: "an unknown fixed at launch (any value, quantified over), never ... zero" (rule R37). It has no body, so no
proof can see what it is. -/
opaque Config.launchByte (epoch a : Nat) : Byte

end Sys2Proof
end

