-- ==== Sys2Proof/Syntax.lean ====
section
/-! DEFINITION. The syntax of CTXB: the ten commands of rule R93, the register names of rule R21, the host's bus
transactions (rules R97, R192 to R196, R240) and the host-script statements of rules R98 and R99. -/

namespace Sys2Proof

/-- The ten commands, one constructor per row of the opcode table (rule R93). No command names an operand: operands
are the fixed registers of rule R26 (rule R91). -/
inductive Instr where
  /-- `NOP`, rule R190 -/
  | nop
  /-- `HDRPARSE`, rule R112 -/
  | hdrparse
  /-- `HDRUPD`, rule R116 -/
  | hdrupd
  /-- `DDSBUILD`, rule R136 -/
  | ddsbuild
  /-- `DDSPATCH`, rule R140 -/
  | ddspatch
  /-- `DDSPARSE`, rule R145 -/
  | ddsparse
  /-- `DETILE`, rule R170 -/
  | detile
  /-- `DETILE.P`, rule R176 -/
  | detileP
  /-- `TILE`, rule R175 -/
  | tile
  /-- `CLRERR`, rule R191 -/
  | clrerr
deriving DecidableEq, Repr

/-- The fourteen registers of rule R21, in the order of their numbers. -/
inductive Reg where
  | id
  | cmd
  | status
  | errinfo
  | src
  | srclen
  | dst
  | dstlen
  | width
  | height
  | mips
  | pdlen
  | fmt
  | swz
deriving DecidableEq, Repr

/-- The size of a host access to the register block. Only `word` has a meaning (rule R66). -/
inductive AccessSize where
  | byte
  | half
  | word
  | burst
deriving DecidableEq, Repr

/-- One action of the outside world. Register transactions carry the byte offset from `REG_BASE`, memory transactions
the address in `MEM` (rules R97, R192 to R196). -/
inductive HostTxn where
  /-- a write of `v` at offset `off` of the register block (rules R193 to R195) -/
  | regWrite (size : AccessSize) (off : Nat) (v : Word)
  /-- a read at offset `off` of the register block (rule R192) -/
  | regRead (size : AccessSize) (off : Nat)
  /-- a byte write to `MEM` (rule R196) -/
  | memWrite (a : Nat) (b : Byte)
  /-- a byte read of `MEM` (rule R196) -/
  | memRead (a : Nat)
  /-- `poll`: read `STATUS` until `BUSY = 0`; only the last value is observed (rule R99) -/
  | poll
  /-- drive the reset input: `false` asserts `RESET_N` (low), `true` releases it (rule R240) -/
  | resetN (level : Bool)
deriving DecidableEq, Repr

/-- A host-script statement, pseudo-statements included (rule R99). -/
inductive Statement where
  | wr (r : Reg) (v : Word)
  | rd (r : Reg)
  | mw (a : Nat) (bs : List Byte)
  | mr (a n : Nat)
  | cmd (i : Instr)
  | poll
  | go (i : Instr)
  | src (a len : Word)
  | dst (a len : Word)
  | dims (w h m : Word)
deriving DecidableEq, Repr

/-- The agent whose turn it is when both the host and the block could move (rule R198). -/
inductive Agent where
  | host
  | block
deriving DecidableEq, Repr

end Sys2Proof
end

