-- ==== Sys2Proof/WellFormed.lean ====
section
/-! DEFINITION. Well-formedness checks: the fields of a command word (rules R90, R92 to R94), the parameters (rules
R6, R131), and a host transaction (rules R61, R66). A command itself has no operand, so every `Instr` is well formed. -/

namespace Sys2Proof

/-- Every command is well formed: it has no operand that could be out of range (rule R91). -/
def Instr.wf : Instr → Bool := fun _ => true

/-- The fields of a command word, format `C` (rule R90). -/
structure CommandFields where
  opc : BitVec 8
  p : Bool
  rsv : BitVec 23
deriving DecidableEq, Repr

/-- The fields are those of a legal command: a known opcode, `P = 1` only with `DETILE` (rule R92), reserved bits 0
(rule R94). -/
def CommandFields.wf (c : CommandFields) : Bool :=
  c.rsv == 0 && (!c.p || c.opc == 0x06) && decide (c.opc.toNat ≤ 0x08)

/-- A word with exactly one bit set. -/
def isSingleBit (w : Word) : Bool :=
  (List.range 32).any fun k => w == BitVec.ofNat 32 (2 ^ k)

/-- The words are pairwise distinct single bits. -/
def distinctBits (ws : List Word) : Bool :=
  ws.all isSingleBit && decide ws.Nodup

/-- The offsets of the target header's fields, `magic` at 0 first, in the order of rule R130. -/
def DdsOffsets.all (o : DdsOffsets) : List Nat :=
  [0, o.size, o.flags, o.height, o.width, o.pitchOrLinearSize, o.mipMapCount, o.pfSize, o.pfFlags, o.pfFourcc,
    o.pfRgbBitCount, o.pfRMask, o.pfGMask, o.pfBMask, o.pfAMask, o.caps]

/-- No two fields share a byte, as in the layout of rule R130 (DEDUCED, log entry 9). -/
def DdsOffsets.wf (o : DdsOffsets) : Bool :=
  decide (o.all.Pairwise fun a b => a + 4 ≤ b ∨ b + 4 ≤ a)

/-- What a model that keeps `DdsConst` abstract must assume (rule R131): the `F_*` bits are pairwise distinct single
bits, as are the `C_*` and the `PF_*` bits. The two FourCC tags differ and no two fields overlap (DEDUCED, log entry
9): law 1 of rule R147 needs both. -/
def DdsConst.wf (d : DdsConst) : Bool :=
  distinctBits [d.fCaps, d.fHeight, d.fWidth, d.fPixelformat, d.fMipmapcount, d.fLinearsize]
    && distinctBits [d.cTexture, d.cComplex, d.cMipmap]
    && distinctBits [d.pfAlphapixels, d.pfFourcc, d.pfRgb]
    && decide (d.fourccDxt1 ≠ d.fourccDxt5)
    && d.offsets.wf

/-- The constraints of rule R6: `1 ≤ MEM_SIZE ≤ 2^32`, `REG_BASE` a multiple of 256, and those of `DdsConst`. -/
def Config.wf (c : Config) : Bool :=
  decide (1 ≤ c.memSize) && decide (c.memSize ≤ 2 ^ 32) && decide (c.regBase % 256 = 0) && c.dds.wf

/-- The transaction is one the spec gives a meaning to, whatever the block is doing: an aligned word access inside the
256-byte register block (rule R66), a byte access below `MEM_SIZE` (rule R196). -/
def HostTxn.wf (c : Config) : HostTxn → Bool
  | .regWrite size off _ => size == .word && decide (off % 4 = 0) && decide (off < 0x100)
  | .regRead size off => size == .word && decide (off % 4 = 0) && decide (off < 0x100)
  | .memWrite a _ => decide (a < c.memSize)
  | .memRead a => decide (a < c.memSize)
  | .poll => true
  | .resetN _ => true

end Sys2Proof
end

