-- ==== Sys2Proof/Decode.lean ====
section
/-! DEFINITION. The decoder and the encoder of command words, from the opcode table of rule R93. -/

namespace Sys2Proof

/-- One row of the opcode table: a word `c` selects it when `c & mask = pattern` (rule R93). -/
structure OpcodeRow where
  pattern : Word
  mask : Word
  instr : Instr
deriving DecidableEq, Repr

/-- The ten rows of rule R93, columns `match` and `mask`. -/
def opcodeTable : List OpcodeRow :=
  [ ⟨0x00000000, 0xFFFFFFFF, .nop⟩,
    ⟨0x00000001, 0xFFFFFFFF, .hdrparse⟩,
    ⟨0x00000002, 0xFFFFFFFF, .hdrupd⟩,
    ⟨0x00000003, 0xFFFFFFFF, .ddsbuild⟩,
    ⟨0x00000004, 0xFFFFFFFF, .ddspatch⟩,
    ⟨0x00000005, 0xFFFFFFFF, .ddsparse⟩,
    ⟨0x00000006, 0xFFFFFFFF, .detile⟩,
    ⟨0x00000106, 0xFFFFFFFF, .detileP⟩,
    ⟨0x00000007, 0xFFFFFFFF, .tile⟩,
    ⟨0x00000008, 0xFFFFFFFF, .clrerr⟩ ]

/-- The word selects the row (rule R93). -/
def OpcodeRow.selects (r : OpcodeRow) (c : Word) : Bool :=
  c &&& r.mask == r.pattern

/-- The command a word stands for; `none` is `Illegal` (rules R93 to R95). Total on every word. -/
def decode (c : Word) : Option Instr :=
  (opcodeTable.find? fun r => r.selects c).map OpcodeRow.instr

/-- The fields of a word (rule R90): `OPC` = bits 7:0, `P` = bit 8, `RSV` = bits 31:9. -/
def fieldsOf (c : Word) : CommandFields where
  opc := c.extractLsb' 0 8
  p := c.getLsbD 8
  rsv := c.extractLsb' 9 23

/-- The fields a command is encoded with (columns `OPC` and `P` of rule R93). -/
def Instr.fields : Instr → CommandFields
  | .nop => ⟨0x00, false, 0⟩
  | .hdrparse => ⟨0x01, false, 0⟩
  | .hdrupd => ⟨0x02, false, 0⟩
  | .ddsbuild => ⟨0x03, false, 0⟩
  | .ddspatch => ⟨0x04, false, 0⟩
  | .ddsparse => ⟨0x05, false, 0⟩
  | .detile => ⟨0x06, false, 0⟩
  | .detileP => ⟨0x06, true, 0⟩
  | .tile => ⟨0x07, false, 0⟩
  | .clrerr => ⟨0x08, false, 0⟩

/-- The word with the given fields: `RSV` above `P` above `OPC` (rule R90). -/
def CommandFields.word (f : CommandFields) : Word :=
  f.rsv ++ BitVec.ofBool f.p ++ f.opc

/-- The command word of a command (rule R95: the inverse of `decode` on the ten legal commands). -/
def encode (i : Instr) : Word := i.fields.word

/-- The decoder on a word of the opcode table: a command word is one 32-bit word (rule R96), its bits numbered as the
table numbers them, so the word is the number itself. A number that needs more than 32 bits is no command word
(log entry 14). -/
def decodeTableWord (nbits w : Nat) : Option Instr :=
  if nbits ≤ 32 ∧ w < 2 ^ 32 then decode (BitVec.ofNat 32 w) else none

end Sys2Proof
end

