-- ==== Sys2Proof/Machine/State.lean ====
section
/-! DEFINITION. The state of CTXB (rules R20 to R37), the reasons a step can stop, and the state after reset. -/

namespace Sys2Proof.Machine

/-- The fields of register `STATUS` (rule R30). Its reserved bits read 0 and hold nothing (log entry 13). -/
structure Status where
  /-- bit 0: a command is in flight -/
  busy : Bool
  /-- bit 1: the last accepted command completed without a fault -/
  done : Bool
  /-- bit 2: a command has faulted and `CLRERR` has not completed since -/
  err : Bool
  /-- bits 11:8: the code of the fault that set `ERR` -/
  errcode : BitVec 4
  /-- bits 23:16: the low byte of the last accepted command word -/
  lastop : Byte
deriving DecidableEq, Repr

/-- A value that a host read returned: part of the observation of a run (rule R10). -/
inductive Returned where
  /-- a register read at an offset returned a word -/
  | reg (off : Nat) (v : Word)
  /-- a memory read returned a byte -/
  | mem (a : Nat) (b : Byte)
  /-- the last value a `poll` read from `STATUS` -/
  | poll (v : Word)
deriving DecidableEq, Repr

/-- The host as far as the block can tell: the transactions it has still to perform, first one first, and what its
reads returned, newest first (rules R10, R100; log entry 4), whether `MEM` is out of its hands, and whether it has kept
to that. -/
structure HostSide where
  script : List HostTxn
  returned : List Returned
  /-- a command has been accepted and no read of `STATUS` since has returned `BUSY = 0` (rule R246, log entry 17) -/
  handedOver : Bool
  /-- the host has accessed `MEM` in the part of that window in which `BUSY = 0`: rule R246 gives a run that contains
  such an access no meaning. Set under the reading `HandOver.whileBusy` only; under the other the access is refused
  (log entry 17) -/
  earlyAccess : Bool
deriving DecidableEq, Repr

/-- The fault kinds of rule R201. -/
inductive FaultKind where
  | badMagic
  | truncatedHeader
  /-- never raised (rule R203); its code number is kept -/
  | unexpectedEof
  /-- never raised (rule R203); its code number is kept -/
  | sizeFieldOutOfTolerance
  | unsupportedFormat
  | configurationError
  | illegalCommand
  | rangeError
  | overlapError
deriving DecidableEq, Repr

/-- The state of CTXB (rule R20) with the model's own inputs beside it. `ID` and `CMD` hold nothing that changes and
are answered by the register read (rules R28, R29). -/
structure State where
  /-- the parameters of the step relation (rule R9); no step changes them (log entry 3) -/
  cfg : Config
  /-- `STATUS`, x[2] -/
  status : Status
  /-- `ERRINFO`, x[3] -/
  errinfo : Word
  /-- `SRC`, x[4] -/
  src : Word
  /-- `SRCLEN`, x[5] -/
  srclen : Word
  /-- `DST`, x[6] -/
  dst : Word
  /-- `DSTLEN`, x[7] -/
  dstlen : Word
  /-- `WIDTH`, x[8] -/
  width : Half
  /-- `HEIGHT`, x[9] -/
  height : Half
  /-- `MIPS`, x[10] -/
  mips : Byte
  /-- `PDLEN`, x[11] -/
  pdlen : Word
  /-- `FMT`, x[12] -/
  fmt : BitVec 2
  /-- `SWZ`, x[13] -/
  swz : Bool
  /-- the hidden latch `PENDING` (rule R34). What it holds while `BUSY = 0` is unspecified there: the model keeps the
  last accepted word, DESIGN CHOICE, log entry 2 -/
  pending : Word
  /-- `MEM` (rule R35): the bytes written since reset, addresses strictly rising (log entry 1) -/
  mem : List Host.Cell
  /-- how many times `RESET_N` has been released: the counter of the free launch bytes (log entry 1) -/
  epoch : Nat
  /-- the level of the reset input, `true` when released (rule R240) -/
  resetN : Bool
  /-- the host (rule R8) -/
  host : HostSide
  /-- the schedule: whose turn it is at each moment when both agents could move (rule R198, log entry 5) -/
  turns : List Agent
deriving DecidableEq, Repr

/-- Why the machine stops. Nothing of CTXB stops it: a command's fault is recorded and the block goes on (rule R210). -/
inductive Fault where
  /-- Raised by the primitives `MemRead` and `MemWrite` applied outside `MEM`: an address at or above `MEM_SIZE` holds
  nothing (rules R13, R61). No command reaches it, since each checks its windows first. Safe: the model stops. -/
  | outsideMem (a n : Nat)
deriving DecidableEq, Repr

/-- What the spec gives no meaning. -/
inductive Refusal where
  /-- An instruction that has no meaning in this model yet. Raised by no arm of `exec`. Safe. -/
  | notModelled (mnemonic : String)
  /-- Raised by a host access to `MEM` while `BUSY = 1`: the spec gives it no meaning, a model refuses it (rules R62,
  R196, R246; U3). Safe. -/
  | memWhileBusy (a : Nat)
  /-- Raised, under the reading `HandOver.untilStatusRead`, by a host access to `MEM` while `BUSY = 0` but before a
  `STATUS` read has returned that: a model gives the transaction no step (rule R246; log entry 17). Safe. -/
  | memBeforeStatusRead (a : Nat)
  /-- Raised by a host access to `MEM` at or above `MEM_SIZE`: no meaning, a model refuses it (rule R196; U4). Safe. -/
  | hostOutsideMem (a : Nat)
  /-- Raised by a register access that is not an aligned 32-bit word inside the register block: not defined, a model
  refuses it (rule R66; U5). Safe. -/
  | registerAccessForm (off : Nat)
deriving DecidableEq, Repr

/-- The outcome of a step of CTXB. -/
abbrev Result := Host.Outcome State Fault Refusal

/-- `STATUS` after reset (rule R37). -/
def Status.reset : Status where
  busy := false
  done := false
  err := false
  errcode := 0
  lastop := 0

/-- The state right after reset (rules R37, R240). `PENDING` is unspecified there: 0, DESIGN CHOICE, log entry 2. No
byte of `MEM` is listed: each is a free value, log entry 1. The parameters are the defaults, log entry 3. The inputs
are empty, log entries 4 and 5. -/
def State.reset : State where
  cfg := Config.default
  status := Status.reset
  errinfo := 0
  src := 0
  srclen := 0
  dst := 0
  dstlen := 0
  width := 0
  height := 0
  mips := 0
  pdlen := 0
  fmt := 0
  swz := false
  pending := 0
  mem := []
  epoch := 0
  resetN := true
  host := ⟨[], [], false, false⟩
  turns := []

end Sys2Proof.Machine
end

