-- ==== Sys2Proof/Machine/Flags.lean ====
section
/-! DEFINITION. The flags of CTXB: the word that `STATUS` reads as, the codes of the fault kinds, and the four ways
`STATUS` changes (rules R30, R32, R195, R197, R201, R210, R191). -/

namespace Sys2Proof.Machine

/-- The value of `STATUS` as a 32-bit word, reserved bits 0 (rule R30). -/
def Status.word (st : Status) : Word :=
  0#8 ++ st.lastop ++ 0#4 ++ st.errcode ++ 0#5 ++ BitVec.ofBool st.err ++ BitVec.ofBool st.done
    ++ BitVec.ofBool st.busy

/-- The code numbers of rule R201. -/
def FaultKind.code : FaultKind → BitVec 4
  | .badMagic => 1
  | .truncatedHeader => 2
  | .unexpectedEof => 3
  | .sizeFieldOutOfTolerance => 4
  | .unsupportedFormat => 5
  | .configurationError => 6
  | .illegalCommand => 8
  | .rangeError => 9
  | .overlapError => 10

/-- Acceptance of command word `c` (rule R195). -/
def Status.accepted (st : Status) (c : Word) : Status :=
  { st with busy := true, done := false, lastop := c.extractLsb' 0 8 }

/-- Completion without a fault (rule R197). -/
def Status.completed (st : Status) : Status :=
  { st with busy := false, done := true }

/-- Fault entry (rule R210). -/
def Status.faulted (st : Status) (k : FaultKind) : Status :=
  { st with busy := false, done := false, err := true, errcode := k.code }

/-- The clearing of the error state by `CLRERR` (rule R191). -/
def Status.cleared (st : Status) : Status :=
  { st with err := false, errcode := 0 }

end Sys2Proof.Machine
end

