-- ==== Sys2Proof/Machine/Operands.lean ====
section
/-! DEFINITION. Operand forms: byte orders (rule R13), windows (rule R15), the numbered register file (rules R12, R21,
R192, R193), and the constants of rule R5. -/

namespace Sys2Proof.Machine

/-! ### Constants of rule R5 -/

/-- `HDR_LEN`: length of the CTXR header. -/
abbrev hdrLen : Nat := 132
/-- `OFF_WIDTH` -/
abbrev offWidth : Nat := 8
/-- `OFF_HEIGHT` -/
abbrev offHeight : Nat := 10
/-- `OFF_MIPS` -/
abbrev offMips : Nat := 38
/-- `OFF_PDLEN` -/
abbrev offPdlen : Nat := 128
/-- `DDS_LEN`: length of the target-container header. -/
abbrev ddsLen : Nat := 128
/-- `DDS_HDRSIZE`: value of the header's size field. -/
abbrev ddsHdrsize : Word := 124
/-- `BPP`: bytes per pixel. -/
abbrev bpp : Nat := 4

/-! ### Byte orders (rule R13) -/

/-- `BE16` of two bytes, lower address first. -/
def be16 (b0 b1 : Byte) : Half := b0 ++ b1

/-- `BE32` of four bytes, lower address first. -/
def be32 (b0 b1 b2 b3 : Byte) : Word := b0 ++ b1 ++ b2 ++ b3

/-- `LE32` of four bytes, lower address first. -/
def le32 (b0 b1 b2 b3 : Byte) : Word := b3 ++ b2 ++ b1 ++ b0

/-- Bits `8k+7 : 8k` of a value. -/
def byteOf {n : Nat} (v : BitVec n) (k : Nat) : Byte := v.extractLsb' (8 * k) 8

/-- `toBE16` -/
def toBe16 (v : Half) : List Byte := [byteOf v 1, byteOf v 0]

/-- `toBE32` -/
def toBe32 (v : Word) : List Byte := [byteOf v 3, byteOf v 2, byteOf v 1, byteOf v 0]

/-- `toLE32` -/
def toLe32 (v : Word) : List Byte := [byteOf v 0, byteOf v 1, byteOf v 2, byteOf v 3]

/-- Byte `k` of a byte sequence. Sequences are only read inside their length; the value beyond it is never used. -/
def byteAt (bs : List Byte) (k : Nat) : Byte := bs.getD k 0

/-- The 32-bit big-endian field at offset `k`. -/
def be32At (bs : List Byte) (k : Nat) : Word :=
  be32 (byteAt bs k) (byteAt bs (k + 1)) (byteAt bs (k + 2)) (byteAt bs (k + 3))

/-- The 16-bit big-endian field at offset `k`. -/
def be16At (bs : List Byte) (k : Nat) : Half := be16 (byteAt bs k) (byteAt bs (k + 1))

/-- The 32-bit little-endian field at offset `k`. -/
def le32At (bs : List Byte) (k : Nat) : Word :=
  le32 (byteAt bs k) (byteAt bs (k + 1)) (byteAt bs (k + 2)) (byteAt bs (k + 3))

/-! ### Windows (rule R15) -/

/-- `valid(base, len)`: the window lies inside `MEM`, in unbounded naturals (rules R15, R61, R70). -/
abbrev valid (s : State) (base len : Word) : Prop :=
  base.toNat + len.toNat ≤ s.cfg.memSize

/-- `overlap(a, n, b, m)` of the byte ranges `[a, a+n)` and `[b, b+m)` (rule R15). -/
abbrev overlap (a n b m : Nat) : Prop :=
  n > 0 ∧ m > 0 ∧ a < b + m ∧ b < a + n

/-! ### The register file by number (rules R12, R21) -/

end Sys2Proof.Machine

namespace Sys2Proof

/-- The number of a register (rule R21, column No.). -/
def Reg.index : Reg → Nat
  | .id => 0
  | .cmd => 1
  | .status => 2
  | .errinfo => 3
  | .src => 4
  | .srclen => 5
  | .dst => 6
  | .dstlen => 7
  | .width => 8
  | .height => 9
  | .mips => 10
  | .pdlen => 11
  | .fmt => 12
  | .swz => 13

/-- The byte offset of a register: `4*i` (rules R20, R21). -/
def Reg.offset (r : Reg) : Nat := 4 * r.index

/-- The fourteen registers in the order of their numbers (rule R21). -/
def Reg.all : List Reg :=
  [.id, .cmd, .status, .errinfo, .src, .srclen, .dst, .dstlen, .width, .height, .mips, .pdlen, .fmt, .swz]

/-- The register at a byte offset of the register block; `none` at a reserved offset (rules R21, R33). -/
def regAtOffset (off : Nat) : Option Reg :=
  Reg.all.find? fun r => r.offset == off

end Sys2Proof

namespace Sys2Proof.Machine

/-- The value of `ID`: the ASCII bytes C, T, X, B from bit 31 down (rule R28). -/
abbrev idValue : Word := 0x43545842

/-- The value of a register as a host read returns it, zero-extended to 32 bits (rules R21, R192). -/
def readReg (s : State) : Reg → Word
  | .id => idValue
  | .cmd => 0
  | .status => s.status.word
  | .errinfo => s.errinfo
  | .src => s.src
  | .srclen => s.srclen
  | .dst => s.dst
  | .dstlen => s.dstlen
  | .width => s.width.setWidth 32
  | .height => s.height.setWidth 32
  | .mips => s.mips.setWidth 32
  | .pdlen => s.pdlen
  | .fmt => s.fmt.setWidth 32
  | .swz => (BitVec.ofBool s.swz).setWidth 32

/-- The effect of storing a bus word in a register: an RW register of width `w` takes `v[w-1:0]`; `ID`, `STATUS`,
`ERRINFO` drop it (rules R12, R21, R193). A write to `CMD` is the issue transaction and stores nothing here (rule
R29). -/
def writeReg (s : State) (r : Reg) (v : Word) : State :=
  match r with
  | .id => s
  | .cmd => s
  | .status => s
  | .errinfo => s
  | .src => { s with src := v }
  | .srclen => { s with srclen := v }
  | .dst => { s with dst := v }
  | .dstlen => { s with dstlen := v }
  | .width => { s with width := v.setWidth 16 }
  | .height => { s with height := v.setWidth 16 }
  | .mips => { s with mips := v.setWidth 8 }
  | .pdlen => { s with pdlen := v }
  | .fmt => { s with fmt := v.setWidth 2 }
  | .swz => { s with swz := v.getLsbD 0 }

/-- What a host read at an aligned offset of the register block returns: 0 at a reserved offset (rules R33, R192). -/
def readOffset (s : State) (off : Nat) : Word :=
  match regAtOffset off with
  | some r => readReg s r
  | none => 0

end Sys2Proof.Machine
end

