-- ==== Sys2Proof/Machine/Ops.lean ====
section
/-! DEFINITION. The named operations: `MEM` as a canonical list, `MemRead` and `MemWrite` (rule R13), taking a fault
and returning from it (rules R14, R191, R210, R213), and completion (rule R197). -/

namespace Sys2Proof.Machine

/-! ### MEM as a list of written bytes -/

/-- The byte listed for address `a`; `none` where nothing has been written since reset. -/
def lookup : List Host.Cell → Nat → Option Byte
  | [], _ => none
  | (k, b) :: cells, a => if k = a then some b else lookup cells a

/-- Write byte `b` at address `a`, keeping the addresses strictly rising. -/
def insertCell : List Host.Cell → Nat → Byte → List Host.Cell
  | [], a, b => [(a, b)]
  | (k, c) :: cells, a, b =>
    if a < k then (a, b) :: (k, c) :: cells
    else if a = k then (a, b) :: cells
    else (k, c) :: insertCell cells a b

/-- Write a byte sequence from address `a` upward, the first byte at `a` (rule R13). -/
def insertBytes : List Host.Cell → Nat → List Byte → List Host.Cell
  | cells, _, [] => cells
  | cells, a, b :: bs => insertBytes (insertCell cells a b) (a + 1) bs

/-- The canonical form of `MEM`: addresses strictly rising. An unlisted address reads as no fixed value (log entry 1),
so no entry can equal what it reads as. -/
def Memory.wf : List Host.Cell → Bool
  | [] => true
  | [_] => true
  | (a, _) :: (b, y) :: cells => decide (a < b) && Memory.wf ((b, y) :: cells)

/-- `MEM[a]`: the byte last written there, or the unknown launch content (rules R13, R37). -/
def State.byte (s : State) (a : Nat) : Byte :=
  (lookup s.mem a).getD (Config.launchByte s.epoch a)

/-- The `n` bytes of `MEM` from address `a`, in address order. -/
def State.bytes (s : State) (a n : Nat) : List Byte :=
  (List.range n).map fun k => s.byte (a + k)

/-- `MemRead(a, n)` (rule R13). An address at or above `MEM_SIZE` holds nothing (rule R61). -/
def memRead (s : State) (a n : Nat) : Except Fault (List Byte) :=
  if a + n ≤ s.cfg.memSize then .ok (s.bytes a n) else .error (.outsideMem a n)

/-- `MemWrite(a, n, b)` with `n` the length of `b` (rule R13). -/
def memWrite (s : State) (a : Nat) (bs : List Byte) : Except Fault State :=
  if a + bs.length ≤ s.cfg.memSize then .ok { s with mem := insertBytes s.mem a bs }
  else .error (.outsideMem a bs.length)

/-! ### The end of a completion step -/

/-- Fault entry (rules R14, R210): `STATUS` and `ERRINFO` record the fault and nothing else changes. No state is
saved, because none is overwritten, and control goes nowhere. `PENDING` stays too (DESIGN CHOICE, log entry 2). -/
def enterFault (k : FaultKind) (info : Word) (s : State) : State :=
  { s with status := s.status.faulted k, errinfo := info }

/-- `raise <Kind>(info)` (rule R14). -/
def raise (k : FaultKind) (info : Word) (s : State) : Result :=
  .next (enterFault k info s)

/-- Return from the fault state (rules R191, R213): the error state is cleared; nothing is restored, because entry
saved nothing. -/
def clearError (s : State) : State :=
  { s with status := s.status.cleared, errinfo := 0 }

/-- The end of a command that raised nothing (rule R197). `PENDING` keeps the word; the spec leaves its content open
from here on (DESIGN CHOICE, log entry 2). -/
def complete (s : State) : Result :=
  .next { s with status := s.status.completed }

/-- The end of a command whose effect is the given memory write. -/
def completeWrite : Except Fault State → Result
  | .ok s => complete s
  | .error f => .fault f

end Sys2Proof.Machine
end

