-- ==== Sys2Proof/Machine/Bus.lean ====
section
/-! DEFINITION. The outside world: issue (rule R195), register and memory transactions (rules R192 to R196), `poll`
(rule R99), the reset input (rules R240, R241), and the scheduler (rule R198). -/

namespace Sys2Proof.Machine

/-- The host has performed its first transaction. -/
def State.withScript (s : State) (script : List HostTxn) : State :=
  { s with host := { s.host with script := script } }

/-- A host read returned a value. -/
def State.withReturned (s : State) (r : Returned) : State :=
  { s with host := { s.host with returned := r :: s.host.returned } }

/-- The host has read `STATUS`: where it read `BUSY = 0` it has `MEM` back (rules R73, R246). -/
def State.withStatusRead (s : State) : State :=
  { s with host := { s.host with handedOver := s.host.handedOver && s.status.busy } }

/-- The block takes the command word `c`: the state change of an accepted issue (rule R195). With it the host hands
`MEM` over (rules R73, R246). -/
def accept (s : State) (c : Word) : State :=
  { s with pending := c, status := s.status.accepted c, host := { s.host with handedOver := true } }

/-- A write of `c` to `CMD` while `BUSY = 0` (rules R195, R212): under `ERR = 1` only a word whose low byte is the
`CLRERR` opcode passes the gate. -/
def issue (s : State) (c : Word) : State :=
  if s.status.err = true ∧ c.extractLsb' 0 8 ≠ 0x08#8 then s else accept s c

/-- A register access that has a meaning: an aligned 32-bit word inside the register block (rule R66). -/
abbrev registerAccess (size : AccessSize) (off : Nat) : Prop :=
  size = .word ∧ off % 4 = 0 ∧ off < 0x100

/-- A host register write (rules R193 to R195): dropped while `BUSY = 1`. -/
def hostRegWrite (s : State) (off : Nat) (v : Word) : State :=
  if s.status.busy = true then s
  else match regAtOffset off with
    | none => s
    | some .cmd => issue s v
    | some r => writeReg s r v

/-- The host accesses `MEM` and is not refused. Where no `STATUS` read has returned `BUSY = 0` yet (possible under the
reading `HandOver.whileBusy` only), that is recorded: the run is one that rule R246 gives no meaning (log entry 17). -/
def State.withMemAccess (s : State) : State :=
  { s with host := { s.host with earlyAccess := s.host.earlyAccess || s.host.handedOver } }

/-- `BUSY = 0`, but `MEM` is not the host's yet: no `STATUS` read has returned `BUSY = 0` since the command was
accepted, and the reading is that of rule R246 (log entry 17). -/
abbrev State.awaitsStatusRead (s : State) : Prop :=
  s.cfg.handOver = .untilStatusRead ∧ s.host.handedOver = true

/-- Why a host access to `MEM` at `a` has no meaning, if it has none (rules R62, R196, R246; U3, U4). That `MEM` is not
the host's is the reason named, wherever `a` is (log entry 11). -/
def memRefusal (s : State) (a : Nat) : Option Refusal :=
  if s.status.busy = true then some (.memWhileBusy a)
  else if s.awaitsStatusRead then some (.memBeforeStatusRead a)
  else if a < s.cfg.memSize then none
  else some (.hostOutsideMem a)

/-- Why a transaction has no meaning, if it has none, whether `RESET_N` is high or low (rules R62, R66, R196, R246; U3
to U5). -/
def refusalOf (s : State) : HostTxn → Option Refusal
  | .regWrite size off _ => if registerAccess size off then none else some (.registerAccessForm off)
  | .regRead size off => if registerAccess size off then none else some (.registerAccessForm off)
  | .memWrite a _ => memRefusal s a
  | .memRead a => memRefusal s a
  | .poll => none
  | .resetN _ => none

/-- Release of `RESET_N` (rules R37, R240): the state after reset, with a new unknown content of `MEM`. The parameters
and the outside world are not the block's to reset; `MEM` is the host's again (log entry 17). -/
def releaseReset (s : State) : State :=
  { State.reset with
    cfg := s.cfg, epoch := s.epoch + 1, host := { s.host with handedOver := false }, turns := s.turns }

/-- The effect of a transaction while `RESET_N` is low: "the block accepts no transaction" (rule R240), so nothing
of the block changes and no value is returned (DEDUCED, log entry 7); only the reset input itself acts. An attempt to
access `MEM` is recorded as it is out of reset (log entry 17). -/
def transactionInReset (t : HostTxn) (s : State) : State :=
  match t with
  | .resetN true => releaseReset s
  | .resetN false => s
  | .regWrite _ _ _ => s
  | .regRead _ _ => s
  | .memWrite _ _ => s.withMemAccess
  | .memRead _ => s.withMemAccess
  | .poll => s

/-- The effect of a transaction while `RESET_N` is high. `s` no longer has the transaction in its script; a `poll` that
finds `BUSY = 1` puts itself back. When `RESET_N` goes low every register keeps its value, `BUSY` among them, until the
release: rule R240 gives the state at the release only (DESIGN CHOICE, log entry 18). -/
def transaction (t : HostTxn) (s : State) : State :=
  match t with
  | .regWrite _ off v => hostRegWrite s off v
  | .regRead _ off =>
    (if off = Reg.status.offset then s.withStatusRead else s).withReturned (.reg off (readOffset s off))
  | .memWrite a b => { s.withMemAccess with mem := insertCell s.mem a b }
  | .memRead a => s.withMemAccess.withReturned (.mem a (s.byte a))
  | .poll =>
    if s.status.busy = true then s.withScript (.poll :: s.host.script)
    else s.withStatusRead.withReturned (.poll s.status.word)
  | .resetN level => { s with resetN := level }

/-- The host's step: its next transaction, refused where it has no meaning. With none left nothing happens (rules R10,
R198; log entry 6). -/
def hostStep (s : State) : Result :=
  match s.host.script with
  | [] => .next s
  | t :: rest =>
    match refusalOf s t with
    | some r => .refused r
    | none =>
      .next (if s.resetN = true then transaction t (s.withScript rest) else transactionInReset t (s.withScript rest))

/-- The completion step is enabled: a command is in flight (rule R197) and the block is not held in reset (rule
R241). -/
def State.blockEnabled (s : State) : Bool := s.resetN && s.status.busy

/-- Both agents could move, so the schedule decides (rule R198). -/
def State.contended (s : State) : Bool := s.blockEnabled && !s.host.script.isEmpty

/-- Whose move it is. Where both could move the schedule says; when it has run out the block moves, so that an
accepted command is always completed in the end (rule R198; log entry 5). -/
def State.nextAgent (s : State) : Agent :=
  if s.contended then s.turns.headD .block
  else if s.blockEnabled then .block
  else .host

/-- The schedule's entry is used up when it decided. -/
def State.takeTurn (s : State) : State :=
  if s.contended then { s with turns := s.turns.tail } else s

end Sys2Proof.Machine

namespace Sys2Proof

/-- The bus address of a transaction (rules R97, R69); `poll` reads `STATUS`. The reset input is a pin. -/
def HostTxn.busAddress (c : Config) : HostTxn → Option Nat
  | .regWrite _ off _ => some (c.regBase + off)
  | .regRead _ off => some (c.regBase + off)
  | .memWrite a _ => some (c.memBase + a)
  | .memRead a => some (c.memBase + a)
  | .poll => some (c.regBase + Reg.status.offset)
  | .resetN _ => none

/-- The transactions of a statement; a pseudo-statement stands for its expansion (rules R97, R99). -/
def Statement.expand : Statement → List HostTxn
  | .wr r v => [.regWrite .word r.offset v]
  | .rd r => [.regRead .word r.offset]
  | .mw a bs => bs.mapIdx fun k b => .memWrite (a + k) b
  | .mr a n => (List.range n).map fun k => .memRead (a + k)
  | .cmd i => [.regWrite .word Reg.cmd.offset (encode i)]
  | .poll => [.poll]
  | .go i => [.regWrite .word Reg.cmd.offset (encode i), .poll]
  | .src a len => [.regWrite .word Reg.src.offset a, .regWrite .word Reg.srclen.offset len]
  | .dst a len => [.regWrite .word Reg.dst.offset a, .regWrite .word Reg.dstlen.offset len]
  | .dims w h m =>
    [.regWrite .word Reg.width.offset w, .regWrite .word Reg.height.offset h, .regWrite .word Reg.mips.offset m]

/-- A host script (rule R100) as the list of its transactions. -/
def expandScript (ss : List Statement) : List HostTxn := ss.flatMap Statement.expand

end Sys2Proof
end

