-- ==== Sys2Proof/Machine/Control.lean ====
section
/-! DEFINITION. The system commands `NOP` (rule R190) and `CLRERR` (rule R191). -/

namespace Sys2Proof.Machine

/-- `NOP` (rule R190): nothing but the completion. -/
def execNop (s : State) : Result := complete s

/-- `CLRERR` (rule R191): clear `ERR`, `ERRCODE` and `ERRINFO`. -/
def execClrerr (s : State) : Result := complete (clearError s)

end Sys2Proof.Machine
end

