-- ==== Sys2Proof/Machine/Dds.lean ====
section
/-! DEFINITION. The target-container header builder: `DDSBUILD` (rules R132 to R138), `DDSPATCH` (rules R139, R140)
and `DDSPARSE` (rules R142, R143, R145). -/

namespace Sys2Proof

/-- The bytes in address order. -/
def Quad.bytes (q : Quad) : List Byte := [q.b0, q.b1, q.b2, q.b3]

end Sys2Proof

namespace Sys2Proof.Machine

/-- The three pixel formats of rule R24. -/
inductive Format where
  | rawRgba8
  | blockDxt1
  | blockDxt5
deriving DecidableEq, Repr

/-- The format that a value of `FMT` selects; 3 is reserved (rule R24). -/
def formatOfBits (f : BitVec 2) : Option Format :=
  if f = 0 then some .rawRgba8
  else if f = 1 then some .blockDxt1
  else if f = 2 then some .blockDxt5
  else none

/-- The value of `FMT` for a format (rule R24). -/
def Format.bits : Format → BitVec 2
  | .rawRgba8 => 0
  | .blockDxt1 => 1
  | .blockDxt5 => 2

/-- A 32-bit field in the header's byte order (rules R130, R131): `toLE32` with the default `DdsConst`. -/
def fieldBytes (c : DdsConst) (v : Word) : List Byte :=
  match c.order with
  | .little => toLe32 v
  | .big => toBe32 v

/-- The 32-bit field at offset `k` in the header's byte order: `LE32` with the default `DdsConst`. -/
def fieldAt (c : DdsConst) (d : List Byte) (k : Nat) : Word :=
  match c.order with
  | .little => le32At d k
  | .big => be32At d k

/-! ### Derived values -/

/-- `compressed(f)` (rule R132) -/
def Format.compressed : Format → Bool
  | .rawRgba8 => false
  | .blockDxt1 => true
  | .blockDxt5 => true

/-- `bytesPerBlock(f)` (rule R132); for the raw format it is not used. -/
def Format.bytesPerBlock : Format → Nat
  | .rawRgba8 => 0
  | .blockDxt1 => 8
  | .blockDxt5 => 16

/-- `blocksWide(w) = ceil(w / 4)` (rule R132) -/
def blocksWide (w : Half) : Nat := (w.toNat + 3) / 4

/-- `pitchOrLinearSize(w, f)` (rule R132): `HEIGHT` does not enter it. -/
def pitchOrLinearSize (w : Half) (f : Format) : Word :=
  BitVec.ofNat 32 (if f.compressed then blocksWide w * f.bytesPerBlock else w.toNat * 4)

/-- `flagsOf(m, f)` (rule R133) -/
def flagsOf (c : DdsConst) (m : Byte) (f : Format) : Word :=
  c.fCaps ||| c.fHeight ||| c.fWidth ||| c.fPixelformat
    ||| (if m.toNat > 1 then c.fMipmapcount else 0)
    ||| (if f.compressed then c.fLinearsize else 0)

/-- `capsOf(m)` (rule R134) -/
def capsOf (c : DdsConst) (m : Byte) : Word :=
  c.cTexture ||| (if m.toNat > 1 then c.cComplex ||| c.cMipmap else 0)

/-- `pf.flags` (rule R135) -/
def pfFlags (c : DdsConst) (f : Format) : Word :=
  if f.compressed then c.pfFourcc else c.pfRgb ||| c.pfAlphapixels

/-- `pf.fourCC` (rule R135) -/
def pfFourccBytes (c : DdsConst) : Format → List Byte
  | .rawRgba8 => [0, 0, 0, 0]
  | .blockDxt1 => c.fourccDxt1.bytes
  | .blockDxt5 => c.fourccDxt5.bytes

/-- A pixel-format field that only the raw format fills (rule R135: `pf.rgbBitCount` and the masks). -/
def rawOnly (f : Format) (v : Word) : Word :=
  if f.compressed then 0 else v

/-- `MASK_R`, `MASK_G`, `MASK_B`, `MASK_A` (rules R5, R131) -/
abbrev maskR : Word := 0x000000FF
abbrev maskG : Word := 0x0000FF00
abbrev maskB : Word := 0x00FF0000
abbrev maskA : Word := 0xFF000000

/-- The fields of a header with their offsets and bytes, in the order of rule R130; every other byte is 0. -/
def headerFields (c : DdsConst) (w t : Half) (m : Byte) (f : Format) : List (Nat × List Byte) :=
  [(0, c.magic.bytes),
    (c.offsets.size, fieldBytes c ddsHdrsize),
    (c.offsets.flags, fieldBytes c (flagsOf c m f)),
    (c.offsets.height, fieldBytes c (t.setWidth 32)),
    (c.offsets.width, fieldBytes c (w.setWidth 32)),
    (c.offsets.pitchOrLinearSize, fieldBytes c (pitchOrLinearSize w f)),
    (c.offsets.mipMapCount, fieldBytes c (m.setWidth 32)),
    (c.offsets.pfSize, fieldBytes c c.pfSize),
    (c.offsets.pfFlags, fieldBytes c (pfFlags c f)),
    (c.offsets.pfFourcc, pfFourccBytes c f),
    (c.offsets.pfRgbBitCount, fieldBytes c (rawOnly f c.bitcountRaw)),
    (c.offsets.pfRMask, fieldBytes c (rawOnly f maskR)),
    (c.offsets.pfGMask, fieldBytes c (rawOnly f maskG)),
    (c.offsets.pfBMask, fieldBytes c (rawOnly f maskB)),
    (c.offsets.pfAMask, fieldBytes c (rawOnly f maskA)),
    (c.offsets.caps, fieldBytes c (capsOf c m))]

/-- Byte `i` lies in the four-byte field at offset `k`. -/
def inField (k i : Nat) : Bool := decide (k ≤ i) && decide (i < k + 4)

/-- Byte `i` of a header made of the given fields, 0 where no field is. Where ill-formed offsets make fields overlap
the first one counts (DESIGN CHOICE, log entry 9). -/
def layoutByte (fields : List (Nat × List Byte)) (i : Nat) : Byte :=
  match fields.find? fun p => inField p.1 i with
  | some p => byteAt p.2 (i - p.1)
  | none => 0

/-- `buildHeader(w, t, m, f)` (rule R138). -/
def buildHeader (c : DdsConst) (w t : Half) (m : Byte) (f : Format) : List Byte :=
  (List.range ddsLen).map (layoutByte (headerFields c w t m f))

/-- The bytes of the six patched words of rule R139: `flags`, `height`, `width`, `pitchOrLinearSize`, `mipMapCount`,
`caps`. -/
def patched (o : DdsOffsets) (i : Nat) : Bool :=
  inField o.flags i || inField o.height i || inField o.width i || inField o.pitchOrLinearSize i
    || inField o.mipMapCount i || inField o.caps i

/-- `patchHeader(p, w, t, m, f)` (rule R139) -/
def patchHeader (c : DdsConst) (p : List Byte) (w t : Half) (m : Byte) (f : Format) : List Byte :=
  (List.range ddsLen).map fun i =>
    if patched c.offsets i then byteAt (buildHeader c w t m f) i else byteAt p i

/-- The value that `ERRINFO` takes for a field: its byte offset (rules R143, R145, R201). -/
def offsetInfo (k : FieldOffset) : Word := BitVec.ofNat 32 k

/-- The outcome of `formatOf(d)` (rule R143). -/
inductive Recognised where
  | ok (f : Format)
  /-- the byte offset of the field that decided it -/
  | unsupported (k : Word)
deriving DecidableEq, Repr

/-- The four bytes `d[k .. k+3]`. -/
def quadAt (d : List Byte) (k : Nat) : Quad :=
  ⟨byteAt d k, byteAt d (k + 1), byteAt d (k + 2), byteAt d (k + 3)⟩

/-- `formatOf(d)` (rule R143): `PF_FOURCC` is tested first; the masks are not examined. -/
def formatOf (c : DdsConst) (d : List Byte) : Recognised :=
  if fieldAt c d c.offsets.pfFlags &&& c.pfFourcc ≠ 0 then
    if quadAt d c.offsets.pfFourcc = c.fourccDxt1 then .ok .blockDxt1
    else if quadAt d c.offsets.pfFourcc = c.fourccDxt5 then .ok .blockDxt5
    else .unsupported (offsetInfo c.offsets.pfFourcc)
  else if fieldAt c d c.offsets.pfFlags &&& c.pfRgb ≠ 0 then
    if fieldAt c d c.offsets.pfRgbBitCount = c.bitcountRaw then .ok .rawRgba8
    else .unsupported (offsetInfo c.offsets.pfRgbBitCount)
  else .unsupported (offsetInfo c.offsets.pfFlags)

/-- `DDSBUILD` (rule R136). -/
def execDdsbuild (s : State) : Result :=
  if ¬ valid s s.dst s.dstlen then raise .rangeError 1 s
  else if s.dstlen.toNat < ddsLen then raise .rangeError 3 s
  else match formatOfBits s.fmt with
    | none => raise .unsupportedFormat 3 s
    | some f => completeWrite (memWrite s s.dst.toNat (buildHeader s.cfg.dds s.width s.height s.mips f))

/-- `DDSPATCH` (rule R140): all 128 template bytes are read before any byte is written. -/
def execDdspatch (s : State) : Result :=
  if ¬ valid s s.src s.srclen then raise .rangeError 0 s
  else if ¬ valid s s.dst s.dstlen then raise .rangeError 1 s
  else if s.srclen = 0 then raise .configurationError 0 s
  else if s.srclen.toNat < ddsLen then raise .truncatedHeader s.srclen s
  else if s.dstlen.toNat < ddsLen then raise .rangeError 3 s
  else match formatOfBits s.fmt with
    | none => raise .unsupportedFormat 3 s
    | some f =>
      match memRead s s.src.toNat ddsLen with
      | .error e => .fault e
      | .ok p =>
        if quadAt p 0 ≠ s.cfg.dds.magic then raise .badMagic (le32At p 0) s
        else completeWrite (memWrite s s.dst.toNat (patchHeader s.cfg.dds p s.width s.height s.mips f))

/-- `DDSPARSE` (rule R145). -/
def execDdsparse (s : State) : Result :=
  if ¬ valid s s.src s.srclen then raise .rangeError 0 s
  else if s.srclen.toNat < ddsLen then raise .truncatedHeader s.srclen s
  else match memRead s s.src.toNat ddsLen with
    | .error e => .fault e
    | .ok d =>
      if quadAt d 0 ≠ s.cfg.dds.magic then raise .badMagic (le32At d 0) s
      else if (fieldAt s.cfg.dds d s.cfg.dds.offsets.height).toNat > 0xFFFF then
        raise .unsupportedFormat (offsetInfo s.cfg.dds.offsets.height) s
      else if (fieldAt s.cfg.dds d s.cfg.dds.offsets.width).toNat > 0xFFFF then
        raise .unsupportedFormat (offsetInfo s.cfg.dds.offsets.width) s
      else if (fieldAt s.cfg.dds d s.cfg.dds.offsets.mipMapCount).toNat > 0xFF then
        raise .unsupportedFormat (offsetInfo s.cfg.dds.offsets.mipMapCount) s
      else match formatOf s.cfg.dds d with
        | .unsupported k => raise .unsupportedFormat k s
        | .ok f =>
          complete
            { s with
              width := (fieldAt s.cfg.dds d s.cfg.dds.offsets.width).setWidth 16
              height := (fieldAt s.cfg.dds d s.cfg.dds.offsets.height).setWidth 16
              mips := (fieldAt s.cfg.dds d s.cfg.dds.offsets.mipMapCount).setWidth 8
              fmt := f.bits }

end Sys2Proof.Machine
end

