-- ==== Sys2Proof/Machine/Header.lean ====
section
/-! DEFINITION. The CTXR header accessor: `HDRPARSE` (rules R111, R112) and `HDRUPD` (rules R114, R116). -/

namespace Sys2Proof.Machine

/-! ### Field read functions (rule R111) -/

/-- `getWidth(h)` -/
def getWidth (h : List Byte) : Half := be16At h offWidth
/-- `getHeight(h)` -/
def getHeight (h : List Byte) : Half := be16At h offHeight
/-- `getMips(h)` -/
def getMips (h : List Byte) : Byte := byteAt h offMips
/-- `getPdlen(h)` -/
def getPdlen (h : List Byte) : Word := be32At h offPdlen

/-- `withUpdated(h, w, t, m, l)` (rule R114): the header with exactly the four fields overwritten. -/
def withUpdated (h : List Byte) (w t : Half) (m : Byte) (l : Word) : List Byte :=
  (List.range hdrLen).map fun i =>
    match i with
    | 8 => byteOf w 1
    | 9 => byteOf w 0
    | 10 => byteOf t 1
    | 11 => byteOf t 0
    | 38 => m
    | 128 => byteOf l 3
    | 129 => byteOf l 2
    | 130 => byteOf l 1
    | 131 => byteOf l 0
    | _ => byteAt h i

/-- `HDRPARSE` (rule R112). -/
def execHdrparse (s : State) : Result :=
  if ¬ valid s s.src s.srclen then raise .rangeError 0 s
  else if s.srclen.toNat < hdrLen then raise .truncatedHeader s.srclen s
  else match memRead s s.src.toNat hdrLen with
    | .error f => .fault f
    | .ok h =>
      complete { s with width := getWidth h, height := getHeight h, mips := getMips h, pdlen := getPdlen h }

/-- `HDRUPD` (rule R116): all 132 bytes are read before any is written. -/
def execHdrupd (s : State) : Result :=
  if ¬ valid s s.src s.srclen then raise .rangeError 0 s
  else if ¬ valid s s.dst s.dstlen then raise .rangeError 1 s
  else if s.srclen.toNat < hdrLen then raise .truncatedHeader s.srclen s
  else if s.dstlen.toNat < hdrLen then raise .rangeError 3 s
  else match memRead s s.src.toNat hdrLen with
    | .error f => .fault f
    | .ok h => completeWrite (memWrite s s.dst.toNat (withUpdated h s.width s.height s.mips s.pdlen))

end Sys2Proof.Machine
end

