-- ==== Sys2Proof/Machine/Morton.lean ====
section
/-! DEFINITION. The Morton-order pixel engine: the index (rules R161, R162), the lengths (rule R165), the moves, and
`DETILE` (rule R170), `DETILE.P` (rule R176), `TILE` (rule R175). -/

namespace Sys2Proof.Machine

/-- `nbits(d)`: the least `n` with `2^n ≥ d` (rule R161). It is not defined at 0 and never needed there. -/
def nbits (d : Nat) : Nat :=
  if d ≤ 1 then 0 else (d - 1).log2 + 1

/-- Bit `i` of a coordinate, as 0 or 1. -/
def coordBit (v i : Nat) : Nat := (v >>> i) % 2

/-- The rounds of rule R162's loop. In round `i` an axis that still has bits places its bit `i` at position `pos`, x
before y. -/
def interleaveRounds (nx ny x y : Nat) : (rounds i pos z : Nat) → Nat
  | 0, _, _, z => z
  | rounds + 1, i, pos, z =>
    if i < nx then
      if i < ny then
        interleaveRounds nx ny x y rounds (i + 1) (pos + 2)
          ((z ||| (coordBit x i <<< pos)) ||| (coordBit y i <<< (pos + 1)))
      else interleaveRounds nx ny x y rounds (i + 1) (pos + 1) (z ||| (coordBit x i <<< pos))
    else if i < ny then
      interleaveRounds nx ny x y rounds (i + 1) (pos + 1) (z ||| (coordBit y i <<< pos))
    else z

/-- `interleave(x, y)` for a `w × h` image (rule R162): the loop runs while either axis has bits left. -/
def interleave (w h x y : Nat) : Nat :=
  interleaveRounds (nbits w) (nbits h) x y (max (nbits w) (nbits h)) 0 0 0

/-- `zmax`: the index of the far corner (rule R164 item 2), used for `w, h ≥ 1` only. -/
def zmax (w h : Nat) : Nat := interleave w h (w - 1) (h - 1)

/-- The raster index of pixel `(x, y)` (rule R160). -/
def rasterIndex (w x y : Nat) : Nat := y * w + x

/-- The index on the tiled side: Morton when `SWZ = 1`, raster when `SWZ = 0` (rule R167). -/
def tiledIndex (swz : Bool) (w h x y : Nat) : Nat :=
  if swz then interleave w h x y else rasterIndex w x y

/-- Bytes needed on the tiled side (rule R165). -/
def tiledLength (swz : Bool) (w h : Nat) : Nat :=
  if w * h = 0 then 0 else if swz then bpp * (zmax w h + 1) else bpp * (w * h)

/-- Bytes needed on the raster side (rule R165). -/
def rasterLength (w h : Nat) : Nat := bpp * (w * h)

/-- The pixels of a `w × h` image, rows top down, each left to right. -/
def pixels (w h : Nat) : List (Nat × Nat) :=
  (List.range h).flatMap fun y => (List.range w).map fun x => (x, y)

/-- A permutation list applied to a pixel: output byte `i` is input byte `p_i` (rule R176). -/
def permute (p : List Nat) (px : List Byte) : List Byte :=
  p.map fun i => byteAt px i

/-- Move pixels one after another: each pair is a source and a destination byte address. -/
def movePixels (p : List Nat) : List (Nat × Nat) → State → Except Fault State
  | [], s => .ok s
  | (a, d) :: moves, s =>
    match memRead s a bpp with
    | .error f => .error f
    | .ok px =>
      match memWrite s d (permute p px) with
      | .error f => .error f
      | .ok s' => movePixels p moves s'

/-- The moves of `DETILE`: from the tiled position at `SRC` to the raster position at `DST` (rule R170). -/
def detileMoves (s : State) : List (Nat × Nat) :=
  (pixels s.width.toNat s.height.toNat).map fun q =>
    (s.src.toNat + bpp * tiledIndex s.swz s.width.toNat s.height.toNat q.1 q.2,
      s.dst.toNat + bpp * rasterIndex s.width.toNat q.1 q.2)

/-- The moves of `TILE`: from the raster position at `SRC` to the tiled position at `DST` (rule R175). -/
def tileMoves (s : State) : List (Nat × Nat) :=
  (pixels s.width.toNat s.height.toNat).map fun q =>
    (s.src.toNat + bpp * rasterIndex s.width.toNat q.1 q.2,
      s.dst.toNat + bpp * tiledIndex s.swz s.width.toNat s.height.toNat q.1 q.2)

/-- The tests and the moves shared by the pixel commands, with the needed lengths `ls` and `ld` (rules R165, R166,
R170, R175). -/
def pixelCommand (ls ld : Nat) (p : List Nat) (moves : List (Nat × Nat)) (s : State) : Result :=
  if ¬ valid s s.src s.srclen then raise .rangeError 0 s
  else if ¬ valid s s.dst s.dstlen then raise .rangeError 1 s
  else if s.srclen.toNat < ls then raise .rangeError 2 s
  else if s.dstlen.toNat < ld then raise .rangeError 3 s
  else if overlap s.src.toNat ls s.dst.toNat ld then raise .overlapError 0 s
  else completeWrite (movePixels p moves s)

/-- The identity permutation: plain `DETILE` and `TILE` (rule R170). -/
def permIdentity : List Nat := [0, 1, 2, 3]

/-- The channel permutation of `DETILE.P`: `[3,2,1,0]` for a tiled asset, `[3,1,2,0]` for a linear one (rule R176). -/
def permChannels (swz : Bool) : List Nat :=
  if swz then [3, 2, 1, 0] else [3, 1, 2, 0]

/-- `DETILE` (rule R170). -/
def execDetile (s : State) : Result :=
  pixelCommand (tiledLength s.swz s.width.toNat s.height.toNat) (rasterLength s.width.toNat s.height.toNat)
    permIdentity (detileMoves s) s

/-- `DETILE.P` (rule R176): `DETILE` with each pixel's bytes permuted on the way. -/
def execDetileP (s : State) : Result :=
  pixelCommand (tiledLength s.swz s.width.toNat s.height.toNat) (rasterLength s.width.toNat s.height.toNat)
    (permChannels s.swz) (detileMoves s) s

/-- `TILE` (rule R175). -/
def execTile (s : State) : Result :=
  pixelCommand (rasterLength s.width.toNat s.height.toNat) (tiledLength s.swz s.width.toNat s.height.toNat)
    permIdentity (tileMoves s) s

end Sys2Proof.Machine
end

