-- ==== Sys2Proof/Machine/Dispatch.lean ====
section
/-! DEFINITION. What each command's completion does (rule R197: "perform the pseudocode of k's rule"): one arm per
constructor. -/

namespace Sys2Proof.Machine

def exec (i : Instr) (s : State) : Host.Outcome State Fault Refusal :=
  match i with
  | .nop => Sys2Proof.Machine.execNop s
  | .hdrparse => Sys2Proof.Machine.execHdrparse s
  | .hdrupd => Sys2Proof.Machine.execHdrupd s
  | .ddsbuild => Sys2Proof.Machine.execDdsbuild s
  | .ddspatch => Sys2Proof.Machine.execDdspatch s
  | .ddsparse => Sys2Proof.Machine.execDdsparse s
  | .detile => Sys2Proof.Machine.execDetile s
  | .detileP => Sys2Proof.Machine.execDetileP s
  | .tile => Sys2Proof.Machine.execTile s
  | .clrerr => Sys2Proof.Machine.execClrerr s

end Sys2Proof.Machine
end

