-- ==== Sys2Proof/Machine/Completion.lean ====
section
/-! DEFINITION. The block's completion step (rule R197): decode `PENDING`, fault on an illegal word (rule R94), else
perform the command. -/

namespace Sys2Proof.Machine

/-- The completion step (rule R197). -/
def completionStep (s : State) : Result :=
  match decode s.pending with
  | none => raise .illegalCommand s.pending s
  | some i => exec i s

/-- A state whose next step completes the command word `c`: the word accepted (rule R195), the reset released, and the
block's turn. -/
def placeCommand (s : State) (c : Word) : State :=
  { accept s c with resetN := true, turns := [] }

end Sys2Proof.Machine
end

