-- ==== Sys2Proof/Machine/Step.lean ====
section
/-! DEFINITION. One step of the machine: the agent whose move it is makes it (rules R8, R198). -/

namespace Sys2Proof.Machine

/-- One step: the block's completion step or the host's next transaction. -/
def step (s : State) : Host.Outcome State Fault Refusal :=
  match s.nextAgent with
  | .block => completionStep s.takeTurn
  | .host => hostStep s.takeTurn

/-- The state whose next step runs the command word `w`. Nothing is fetched on CTXB (rule R27): the word is the one a
`CMD` write would have placed in `PENDING` (rule R195; log entry 4). -/
def State.withFetchWord (s : State) (_nbits w : Nat) : State :=
  placeCommand s (BitVec.ofNat 32 w)

end Sys2Proof.Machine
end

