-- ==== Sys2Proof/Safety.lean ====
section
/-! DEFINITION. What claims about runs are stated in: the end of a run (rule R10), a run gone wrong, and the
invariants of the state (rules R30, R31, R34, R35, R201). -/

namespace Sys2Proof.Machine

/-- The run has ended: the script is exhausted and no command is in flight (rule R10). A script that leaves `RESET_N`
low during a command never ends in this sense, since `BUSY` keeps its 1 until the release, and one that leaves it low
while idle ends with the values from before (DESIGN CHOICE, log entry 18). -/
abbrev State.ended (s : State) : Prop := s.host.script = [] ∧ s.status.busy = false

/-- The run has gone wrong: a fault is recorded (rule R10). -/
abbrev State.goneWrong (s : State) : Prop := s.status.err = true

/-- The run contains a `MEM` access that rule R246 gives no meaning although `BUSY = 0`: the host had not read `STATUS`
since the command completed. Under the reading `HandOver.untilStatusRead` the access is refused and no run gets here;
under the other a claim about what a run leaves in `MEM` or returns from it excludes such runs (log entry 17). -/
abbrev State.outsideHandOver (s : State) : Prop := s.host.earlyAccess = true

/-- The fault codes CTXB ever writes (U11 of 93; rule R201). -/
def writtenCodes : List (BitVec 4) := [0, 1, 2, 5, 6, 8, 9, 10]

/-- The invariants of `STATUS`, `ERRINFO`, `PENDING` and the hand-over of `MEM`. -/
structure State.StatusInv (s : State) : Prop where
  /-- `BUSY = 1` implies `DONE = 0` (rule R30) -/
  busyNotDone : s.status.busy = true → s.status.done = false
  /-- `DONE = 1` and `ERR = 1` never hold together (rule R30) -/
  doneNotErr : s.status.done = true → s.status.err = false
  /-- `ERRCODE ≠ 0` if and only if `ERR = 1` (rule R30) -/
  codeIffErr : s.status.errcode ≠ 0 ↔ s.status.err = true
  /-- only the codes of U11 are ever written (rule R201) -/
  codeWritten : s.status.errcode ∈ writtenCodes
  /-- `ERRINFO` is 0 while no fault is recorded (rule R31) -/
  infoZero : s.status.err = false → s.errinfo = 0
  /-- `LASTOP` equals the low byte of the word last accepted (rule R34). That the latch still holds that word while
  `BUSY = 0`, and 0 after reset, is the model's choice (log entry 2) -/
  lastopPending : s.status.lastop = s.pending.extractLsb' 0 8
  /-- under `ERR = 1` only a word that passed the gate is in flight (rule R212) -/
  gated : s.status.busy = true → s.status.err = true → s.pending.extractLsb' 0 8 = 0x08#8
  /-- while a command is in flight the host has handed `MEM` over (rules R73, R246; log entry 17) -/
  handed : s.status.busy = true → s.host.handedOver = true

/-- The invariants of `MEM`: canonical form, and every listed address below `MEM_SIZE` (rules R35, R61). -/
structure State.MemInv (s : State) : Prop where
  canonical : Memory.wf s.mem = true
  inside : ∀ c ∈ s.mem, c.1 < s.cfg.memSize

/-- What every step keeps. -/
structure State.Inv (s : State) : Prop where
  params : s.cfg.wf = true
  status : s.StatusInv
  memory : s.MemInv

end Sys2Proof.Machine
end

