-- ==== Sys2Proof/Certificates/Slice0/Obligations.lean ====
section
/-! DEFINITION. The statements for the provers. The vocabulary they use is written out here from the rules, beside the
model's own functions for what is compared. -/

namespace Sys2Proof.Claims

open Sys2Proof.Machine

/-! ### Vocabulary -/

/-- `BE16` as a number (rule R13). -/
def be16Nat (b0 b1 : Byte) : Nat := b0.toNat * 256 + b1.toNat

/-- `BE32` as a number (rule R13). -/
def be32Nat (b0 b1 b2 b3 : Byte) : Nat :=
  b0.toNat * 2 ^ 24 + b1.toNat * 2 ^ 16 + b2.toNat * 2 ^ 8 + b3.toNat

/-- `LE32` as a number (rule R13). -/
def le32Nat (b0 b1 b2 b3 : Byte) : Nat :=
  b0.toNat + b1.toNat * 2 ^ 8 + b2.toNat * 2 ^ 16 + b3.toNat * 2 ^ 24

/-- A 32-bit target-header field in `MEM`, in the byte order of `DdsConst` (little-endian by default, rule R131). -/
def ddsField (s : State) (a : Nat) : Nat :=
  match s.cfg.dds.order with
  | .little => le32Nat (s.byte a) (s.byte (a + 1)) (s.byte (a + 2)) (s.byte (a + 3))
  | .big => be32Nat (s.byte a) (s.byte (a + 1)) (s.byte (a + 2)) (s.byte (a + 3))

/-- Four bytes of `MEM` equal a tag. -/
def hasTag (s : State) (a : Nat) (q : Quad) : Prop :=
  s.byte a = q.b0 ∧ s.byte (a + 1) = q.b1 ∧ s.byte (a + 2) = q.b2 ∧ s.byte (a + 3) = q.b3

/-- The whole window lies in `MEM` (rule R15). -/
def inMem (s : State) (base len : Word) : Prop := base.toNat + len.toNat ≤ s.cfg.memSize

/-- The state after a fault with the given code and info (rule R210): `STATUS` and `ERRINFO`, nothing else. -/
def faultState (s : State) (code : BitVec 4) (info : Word) : State :=
  { s with status := { s.status with busy := false, done := false, err := true, errcode := code }, errinfo := info }

/-- The command faults with the given code and info. -/
def FaultsWith (i : Instr) (s : State) (code : BitVec 4) (info : Word) : Prop :=
  exec i s = .next (faultState s code info)

/-- `STATUS` after a command that completed (rule R197). -/
def doneStatus (s : State) : Status := { s.status with busy := false, done := true }

/-- The command completes and changes nothing but `STATUS` and `MEM`, as the rules R26 and R67 say of the storing
commands: `t` is the next state. -/
def StoresOnly (i : Instr) (s t : State) : Prop :=
  exec i s = .next t ∧ t = { s with status := doneStatus s, mem := t.mem }

/-- Number of pixels (rule R165). -/
def area (s : State) : Nat := s.width.toNat * s.height.toNat

/-- The index of a pixel on the tiled side (rules R162, R167, R170). -/
def zIndex (s : State) (x y : Nat) : Nat :=
  if s.swz = true then interleave s.width.toNat s.height.toNat x y else y * s.width.toNat + x

/-- Bytes needed on the tiled side (rule R165). -/
def tiledNeed (s : State) : Nat :=
  if area s = 0 then 0
  else if s.swz = true then
    4 * (interleave s.width.toNat s.height.toNat (s.width.toNat - 1) (s.height.toNat - 1) + 1)
  else 4 * area s

/-- `overlap` (rule R15). -/
def Overlapping (a n b m : Nat) : Prop := n > 0 ∧ m > 0 ∧ a < b + m ∧ b < a + n

/-- `DETILE` and `DETILE.P` pass every test (rule R170). -/
def DetileReady (s : State) : Prop :=
  inMem s s.src s.srclen ∧ inMem s s.dst s.dstlen ∧ tiledNeed s ≤ s.srclen.toNat ∧ 4 * area s ≤ s.dstlen.toNat
    ∧ ¬ Overlapping s.src.toNat (tiledNeed s) s.dst.toNat (4 * area s)

/-- `TILE` passes every test (rule R175). -/
def TileReady (s : State) : Prop :=
  inMem s s.src s.srclen ∧ inMem s s.dst s.dstlen ∧ 4 * area s ≤ s.srclen.toNat ∧ tiledNeed s ≤ s.dstlen.toNat
    ∧ ¬ Overlapping s.src.toNat (4 * area s) s.dst.toNat (tiledNeed s)

/-- Byte `i` of a target header lies in the 32-bit field at offset `k`. -/
def InField (k : FieldOffset) (i : Nat) : Prop := k.val ≤ i ∧ i < k.val + 4

/-- The six fields of rule R139. -/
def sixFields (o : DdsOffsets) : List FieldOffset :=
  [o.flags, o.height, o.width, o.pitchOrLinearSize, o.mipMapCount, o.caps]

/-- The fields of rule R130 that have an offset in `DdsConst`; `magic` stands at 0. -/
def allFields (o : DdsOffsets) : List FieldOffset :=
  sixFields o ++ [o.size, o.pfSize, o.pfFlags, o.pfFourcc, o.pfRgbBitCount, o.pfRMask, o.pfGMask, o.pfBMask, o.pfAMask]

/-- The format that the pixel-format fields of the header at `a` show (rule R143), as a value of `FMT`. -/
def ShowsFormat (s : State) (a : Nat) (f : BitVec 2) : Prop :=
  let o := s.cfg.dds.offsets
  let pff := BitVec.ofNat 32 (ddsField s (a + o.pfFlags.val))
  (pff &&& s.cfg.dds.pfFourcc ≠ 0 ∧ hasTag s (a + o.pfFourcc.val) s.cfg.dds.fourccDxt1 ∧ f = 1)
  ∨ (pff &&& s.cfg.dds.pfFourcc ≠ 0 ∧ ¬ hasTag s (a + o.pfFourcc.val) s.cfg.dds.fourccDxt1
      ∧ hasTag s (a + o.pfFourcc.val) s.cfg.dds.fourccDxt5 ∧ f = 2)
  ∨ (pff &&& s.cfg.dds.pfFourcc = 0 ∧ pff &&& s.cfg.dds.pfRgb ≠ 0
      ∧ ddsField s (a + o.pfRgbBitCount.val) = s.cfg.dds.bitcountRaw.toNat ∧ f = 0)

/-- The field that makes the header at `a` none of the three formats (rule R143): 84, 88 or 80 by default. -/
def ShowsUnsupported (s : State) (a : Nat) (k : FieldOffset) : Prop :=
  let o := s.cfg.dds.offsets
  let pff := BitVec.ofNat 32 (ddsField s (a + o.pfFlags.val))
  (pff &&& s.cfg.dds.pfFourcc ≠ 0 ∧ ¬ hasTag s (a + o.pfFourcc.val) s.cfg.dds.fourccDxt1
      ∧ ¬ hasTag s (a + o.pfFourcc.val) s.cfg.dds.fourccDxt5 ∧ k = o.pfFourcc)
  ∨ (pff &&& s.cfg.dds.pfFourcc = 0 ∧ pff &&& s.cfg.dds.pfRgb ≠ 0
      ∧ ddsField s (a + o.pfRgbBitCount.val) ≠ s.cfg.dds.bitcountRaw.toNat ∧ k = o.pfRgbBitCount)
  ∨ (pff &&& s.cfg.dds.pfFourcc = 0 ∧ pff &&& s.cfg.dds.pfRgb = 0 ∧ k = o.pfFlags)

/-- `flagsOf(m, f)` of rule R133. -/
def flagsWord (c : DdsConst) (mips : Byte) (fmt : BitVec 2) : Word :=
  c.fCaps ||| c.fHeight ||| c.fWidth ||| c.fPixelformat
    ||| (if 1 < mips.toNat then c.fMipmapcount else 0) ||| (if fmt = 1 ∨ fmt = 2 then c.fLinearsize else 0)

/-- `pitchOrLinearSize(w, f)` of rule R132. -/
def pitchNat (width : Half) (fmt : BitVec 2) : Nat :=
  if fmt = 1 then (width.toNat + 3) / 4 * 8
  else if fmt = 2 then (width.toNat + 3) / 4 * 16
  else width.toNat * 4

/-- `capsOf(m)` of rule R134. -/
def capsWord (c : DdsConst) (mips : Byte) : Word :=
  c.cTexture ||| (if 1 < mips.toNat then c.cComplex ||| c.cMipmap else 0)

/-- The six words that `DDSBUILD` and `DDSPATCH` both write for the registers of `s`, found in `t` from address `a`
(rules R138, R139). -/
def SixWords (s t : State) (a : Nat) : Prop :=
  let o := s.cfg.dds.offsets
  ddsField t (a + o.flags.val) = (flagsWord s.cfg.dds s.mips s.fmt).toNat
    ∧ ddsField t (a + o.height.val) = s.height.toNat
    ∧ ddsField t (a + o.width.val) = s.width.toNat
    ∧ ddsField t (a + o.pitchOrLinearSize.val) = pitchNat s.width s.fmt
    ∧ ddsField t (a + o.mipMapCount.val) = s.mips.toNat
    ∧ ddsField t (a + o.caps.val) = (capsWord s.cfg.dds s.mips).toNat

/-- The pixel-format fields of rule R135 for `FMT = fmt`, found in `t` from address `a`. -/
def PixelFormatWords (t : State) (a : Nat) (fmt : BitVec 2) : Prop :=
  let c := t.cfg.dds
  let o := t.cfg.dds.offsets
  ddsField t (a + o.pfSize.val) = c.pfSize.toNat
    ∧ (fmt = 0 →
        ddsField t (a + o.pfFlags.val) = (c.pfRgb ||| c.pfAlphapixels).toNat
          ∧ hasTag t (a + o.pfFourcc.val) ⟨0, 0, 0, 0⟩
          ∧ ddsField t (a + o.pfRgbBitCount.val) = c.bitcountRaw.toNat
          ∧ ddsField t (a + o.pfRMask.val) = 0x000000FF ∧ ddsField t (a + o.pfGMask.val) = 0x0000FF00
          ∧ ddsField t (a + o.pfBMask.val) = 0x00FF0000 ∧ ddsField t (a + o.pfAMask.val) = 0xFF000000)
    ∧ (fmt = 1 → ddsField t (a + o.pfFlags.val) = c.pfFourcc.toNat ∧ hasTag t (a + o.pfFourcc.val) c.fourccDxt1)
    ∧ (fmt = 2 → ddsField t (a + o.pfFlags.val) = c.pfFourcc.toNat ∧ hasTag t (a + o.pfFourcc.val) c.fourccDxt5)
    ∧ (fmt = 1 ∨ fmt = 2 →
        ddsField t (a + o.pfRgbBitCount.val) = 0
          ∧ ddsField t (a + o.pfRMask.val) = 0 ∧ ddsField t (a + o.pfGMask.val) = 0
          ∧ ddsField t (a + o.pfBMask.val) = 0 ∧ ddsField t (a + o.pfAMask.val) = 0)

/-- The host's first transaction is `x`, the reset is released, and it is the host that moves: no command is in
flight, or one is and the schedule says host. -/
def HostMoves (s : State) (x : HostTxn) (rest : List HostTxn) : Prop :=
  s.host.script = x :: rest ∧ s.resetN = true
    ∧ (s.status.busy = false ∨ (s.status.busy = true ∧ s.turns.head? = some .host))

/-- The host's first transaction is `x` and it is up: the host moves, or the block is held in reset. -/
def HostActs (s : State) (x : HostTxn) (rest : List HostTxn) : Prop :=
  HostMoves s x rest ∨ (s.resetN = false ∧ s.host.script = x :: rest)

/-- `MEM` is the host's: `BUSY = 0` (rules R62, R196), and, under the reading of rule R246, a `STATUS` read has
returned that (log entry 17). -/
def MemIsHosts (s : State) : Prop :=
  s.status.busy = false ∧ (s.cfg.handOver = .untilStatusRead → s.host.handedOver = false)

/-- The transaction accesses `MEM`. -/
def isMemAccess : HostTxn → Bool
  | .regWrite _ _ _ => false
  | .regRead _ _ => false
  | .memWrite _ _ => true
  | .memRead _ => true
  | .poll => false
  | .resetN _ => false

/-- The transaction has a meaning (rules R62, R66, R196, R246). -/
def HasMeaning (s : State) : HostTxn → Prop
  | .regWrite size off _ => size = .word ∧ off % 4 = 0 ∧ off < 0x100
  | .regRead size off => size = .word ∧ off % 4 = 0 ∧ off < 0x100
  | .memWrite a _ => MemIsHosts s ∧ a < s.cfg.memSize
  | .memRead a => MemIsHosts s ∧ a < s.cfg.memSize
  | .poll => True
  | .resetN _ => True

/-- `s` after the host performed its first transaction, with nothing else changed: the script is `rest`, and the
schedule's entry is used up when a command is in flight. -/
def hostMoved (s : State) (rest : List HostTxn) : State :=
  { s with
    host := { s.host with script := rest }
    turns := if s.status.busy = true then s.turns.tail else s.turns }

/-- The block moves: a command is in flight, the reset is released, and the host has nothing to do or the schedule
does not say host (rules R197, R198). -/
def BlockMoves (s : State) : Prop :=
  s.status.busy = true ∧ s.resetN = true ∧ (s.host.script = [] ∨ s.turns.head? ≠ some .host)

/-- `s` with the schedule's entry used up where the schedule decided. -/
def blockTurn (s : State) : State :=
  if s.host.script = [] then s else { s with turns := s.turns.tail }

end Sys2Proof.Claims

open Sys2Proof Sys2Proof.Machine Sys2Proof.Claims

/-! ### Encoding -/

/-- The words of rule R93 decode to their commands. -/
def Obligations.TableWordsDecodeToTheirCommands : Prop :=
  decode 0x00000000 = some .nop ∧ decode 0x00000001 = some .hdrparse ∧ decode 0x00000002 = some .hdrupd
    ∧ decode 0x00000003 = some .ddsbuild ∧ decode 0x00000004 = some .ddspatch ∧ decode 0x00000005 = some .ddsparse
    ∧ decode 0x00000006 = some .detile ∧ decode 0x00000106 = some .detileP ∧ decode 0x00000007 = some .tile
    ∧ decode 0x00000008 = some .clrerr

/-- Rule R95: the table decoder is the field decoder, on every word; `encode` is its inverse on the ten commands and
gives the words of rule R93. -/
def Obligations.DecodingFollowsTheFields : Prop :=
  (∀ c : Word, decode c =
    if c >>> 9 ≠ 0 then none
    else if c.getLsbD 8 = true ∧ c.toNat % 256 ≠ 0x06 then none
    else if c.toNat % 256 = 0x00 then some .nop
    else if c.toNat % 256 = 0x01 then some .hdrparse
    else if c.toNat % 256 = 0x02 then some .hdrupd
    else if c.toNat % 256 = 0x03 then some .ddsbuild
    else if c.toNat % 256 = 0x04 then some .ddspatch
    else if c.toNat % 256 = 0x05 then some .ddsparse
    else if c.toNat % 256 = 0x06 then (if c.getLsbD 8 = true then some .detileP else some .detile)
    else if c.toNat % 256 = 0x07 then some .tile
    else if c.toNat % 256 = 0x08 then some .clrerr
    else none)
  ∧ ∀ i : Instr, decode (encode i) = some i ∧ encode i = match i with
      | .nop => 0x00000000
      | .hdrparse => 0x00000001
      | .hdrupd => 0x00000002
      | .ddsbuild => 0x00000003
      | .ddspatch => 0x00000004
      | .ddsparse => 0x00000005
      | .detile => 0x00000006
      | .detileP => 0x00000106
      | .tile => 0x00000007
      | .clrerr => 0x00000008

/-- Rule R95: decode and encode are inverse to each other; each command has exactly one word. -/
def Obligations.DecodeAndEncodeAreInverse : Prop :=
  ∀ (c : Word) (i : Instr), decode c = some i ↔ encode i = c

/-- The fields of a word and the word of fields are inverse to each other, and a word decodes exactly when its fields
are well formed (rules R90, R92, R94). -/
def Obligations.WordsAndFieldsAgree : Prop :=
  (∀ c : Word, (fieldsOf c).word = c) ∧ (∀ f : CommandFields, fieldsOf f.word = f)
    ∧ ∀ c : Word, (decode c).isSome = (fieldsOf c).wf

/-! ### The block's step -/

/-- Rule R197: when the block moves and `PENDING` decodes to a command, the step is that command at the state with
the schedule's entry used up. -/
def Obligations.StepRunsTheDecodedCommand : Prop :=
  ∀ (s : State) (i : Instr), BlockMoves s → decode s.pending = some i → step s = exec i (blockTurn s)

/-- The state that `withFetchWord` builds runs exactly the placed command: its next step is that command there.
(How a program comes to run is log entry 4.) -/
def Obligations.PlacedWordRunsNext : Prop :=
  ∀ (s : State) (n w : Nat) (i : Instr), decode (BitVec.ofNat 32 w) = some i →
    step (s.withFetchWord n w) = exec i (s.withFetchWord n w)

/-- Rules R94, R197, R201: an accepted word with an opcode above 0x08, with reserved bits set, or with `P = 1` off
`DETILE` faults with `IllegalCommand` and the word as info. -/
def Obligations.IllegalWordFaults : Prop :=
  ∀ s : State, BlockMoves s →
    (s.pending >>> 9 ≠ 0 ∨ 0x08 < s.pending.toNat % 256
      ∨ (s.pending.getLsbD 8 = true ∧ s.pending.toNat % 256 ≠ 0x06)) →
    step s = .next (faultState (blockTurn s) 8 s.pending)

/-- Rule R210: fault entry changes `STATUS` and `ERRINFO` as the rule lists, `LASTOP` and everything else stay, and the
codes are those of rule R201. -/
def Obligations.FaultEntryRecordsAndKeepsTheRest : Prop :=
  ∀ (k : FaultKind) (info : Word) (s : State), ∃ t, raise k info s = .next t
    ∧ t.status.busy = false ∧ t.status.done = false ∧ t.status.err = true ∧ t.status.lastop = s.status.lastop
    ∧ t.errinfo = info ∧ t = { s with status := t.status, errinfo := t.errinfo }
    ∧ t.status.errcode.toNat = match k with
        | .badMagic => 1
        | .truncatedHeader => 2
        | .unexpectedEof => 3
        | .sizeFieldOutOfTolerance => 4
        | .unsupportedFormat => 5
        | .configurationError => 6
        | .illegalCommand => 8
        | .rangeError => 9
        | .overlapError => 10

/-- Rules R61, R197, R214: every command, in every state, ends in a next state with `BUSY = 0`; no command touches an
address outside `MEM` (that would be the outcome `fault`). It either completes, or changes nothing but the record of a
fault. -/
def Obligations.EveryCommandCompletesOrFaultsWhole : Prop :=
  ∀ (i : Instr) (s : State), ∃ t, exec i s = .next t ∧ t.status.busy = false
    ∧ ((t.status.done = true ∧ t.status.lastop = s.status.lastop
          ∧ (i ≠ .clrerr → t.status = doneStatus s ∧ t.errinfo = s.errinfo))
      ∨ ∃ (code : BitVec 4) (info : Word),
          t = faultState s code info ∧ code ∈ [1#4, 2#4, 5#4, 6#4, 9#4, 10#4])

/-- Rules R197, R198: a host that polls sees `BUSY = 0` in the end, under every schedule: after at most one step more
than the schedule is long the command is completed and the poll is still there to return it. (That the schedule is a
finite list after which the block moves is the model's form of weak fairness, log entry 5; that the poll stays at the
head of the script is log entry 11.) -/
def Obligations.PolledCommandIsCompleted : Prop :=
  ∀ (s : State) (rest : List HostTxn), s.status.busy = true → s.resetN = true → s.host.script = .poll :: rest →
    ∃ (k : Nat) (t : State), k ≤ s.turns.length + 1 ∧ Host.Core.run Sys2Proof.core k s = .next t
      ∧ t.status.busy = false ∧ t.host = s.host

/-- Rule R198: nothing in CTXB is spontaneous: idle and with no transaction left, a step changes nothing. (That the
machine then has a step at all is the model's choice, log entry 6.) -/
def Obligations.IdleBlockTakesNoStep : Prop :=
  ∀ s : State, s.status.busy = false → s.host.script = [] → step s = .next s

/-! ### Host transactions -/

/-- Rule R195: a write of `c` to `CMD` while `BUSY = 0`. Under `ERR = 1` it is dropped unless the low byte is 0x08;
else the word is latched and `BUSY`, `DONE`, `LASTOP` change, whatever the word is, and nothing else. An illegal word
is accepted too and faults at completion. (`handedOver := true` is the model's record for
rule R246, DEDUCED, log entry 17.) -/
def Obligations.IssueAcceptsOrDrops : Prop :=
  ∀ (s : State) (c : Word) (rest : List HostTxn),
    HostMoves s (.regWrite .word 0x04 c) rest → s.status.busy = false →
    (s.status.err = true → c.toNat % 256 ≠ 0x08 → step s = .next (hostMoved s rest))
    ∧ (s.status.err = false ∨ c.toNat % 256 = 0x08 →
        ∃ t, step s = .next t
          ∧ t = { hostMoved s rest with
              pending := c
              status := { s.status with busy := true, done := false, lastop := BitVec.ofNat 8 (c.toNat % 256) }
              host := ⟨rest, s.host.returned, true, s.host.earlyAccess⟩ }
          ∧ (decode c = none → rest = [] → step t = .next (faultState t 8 c)))

/-- Rule R193: a register write while `BUSY = 0`, `ERR` or not. An RW register of width `w` takes `v[w-1:0]` and
nothing else changes; `ID`, `STATUS`, `ERRINFO` and the reserved offsets drop it. -/
def Obligations.IdleRegisterWriteStores : Prop :=
  ∀ (s : State) (off : Nat) (v : Word) (rest : List HostTxn),
    HostMoves s (.regWrite .word off v) rest → s.status.busy = false → off % 4 = 0 → off < 0x100 → off ≠ 0x04 →
    step s = .next (
      if off = 0x10 then { hostMoved s rest with src := v }
      else if off = 0x14 then { hostMoved s rest with srclen := v }
      else if off = 0x18 then { hostMoved s rest with dst := v }
      else if off = 0x1C then { hostMoved s rest with dstlen := v }
      else if off = 0x20 then { hostMoved s rest with width := BitVec.ofNat 16 (v.toNat % 2 ^ 16) }
      else if off = 0x24 then { hostMoved s rest with height := BitVec.ofNat 16 (v.toNat % 2 ^ 16) }
      else if off = 0x28 then { hostMoved s rest with mips := BitVec.ofNat 8 (v.toNat % 2 ^ 8) }
      else if off = 0x2C then { hostMoved s rest with pdlen := v }
      else if off = 0x30 then { hostMoved s rest with fmt := BitVec.ofNat 2 (v.toNat % 2 ^ 2) }
      else if off = 0x34 then { hostMoved s rest with swz := v.toNat % 2 == 1 }
      else hostMoved s rest)

/-- Rule R194: while `BUSY = 1` a write to any register offset, `CMD` included, changes nothing. -/
def Obligations.BusyRegisterWriteIsDropped : Prop :=
  ∀ (s : State) (off : Nat) (v : Word) (rest : List HostTxn),
    HostMoves s (.regWrite .word off v) rest → s.status.busy = true → off % 4 = 0 → off < 0x100 →
    step s = .next (hostMoved s rest)

/-- Rule R192: a register read, `BUSY` or not, returns the register's value zero-extended, 0 for `CMD` and the reserved
offsets, and changes no state of the block. `STATUS` has the fields of rule R30 and 0 elsewhere; the model records that
a read of it with `BUSY = 0` gives `MEM` back to the host (rule R246, log entry 17). -/
def Obligations.RegisterReadReturnsTheValue : Prop :=
  ∀ (s : State) (off : Nat) (rest : List HostTxn),
    HostMoves s (.regRead .word off) rest → off % 4 = 0 → off < 0x100 →
    ∃ v : Word,
      step s = .next { hostMoved s rest with
          host := ⟨rest, .reg off v :: s.host.returned,
            if off = 0x08 then s.host.handedOver && s.status.busy else s.host.handedOver, s.host.earlyAccess⟩ }
      ∧ v.toNat =
        if off = 0x00 then 0x43545842
        else if off = 0x08 then
          s.status.busy.toNat + 2 * s.status.done.toNat + 4 * s.status.err.toNat
            + 2 ^ 8 * s.status.errcode.toNat + 2 ^ 16 * s.status.lastop.toNat
        else if off = 0x0C then s.errinfo.toNat
        else if off = 0x10 then s.src.toNat
        else if off = 0x14 then s.srclen.toNat
        else if off = 0x18 then s.dst.toNat
        else if off = 0x1C then s.dstlen.toNat
        else if off = 0x20 then s.width.toNat
        else if off = 0x24 then s.height.toNat
        else if off = 0x28 then s.mips.toNat
        else if off = 0x2C then s.pdlen.toNat
        else if off = 0x30 then s.fmt.toNat
        else if off = 0x34 then s.swz.toNat
        else 0

/-- Rules R66, U5: a register access that is not an aligned word inside the register block is refused, whatever the
block is doing, also while it is held in reset. -/
def Obligations.MisshapenRegisterAccessIsRefused : Prop :=
  ∀ (s : State) (size : AccessSize) (off : Nat) (v : Word) (rest : List HostTxn),
    size ≠ .word ∨ off % 4 ≠ 0 ∨ 0x100 ≤ off →
    (HostActs s (.regWrite size off v) rest → step s = .refused (.registerAccessForm off))
    ∧ (HostActs s (.regRead size off) rest → step s = .refused (.registerAccessForm off))

/-- Rules R62, R196, R246: host access to `MEM`. While `MEM` is the host's and below `MEM_SIZE` a byte write stores that
byte and no other, a byte read returns it, neither has another effect; at or above `MEM_SIZE` it is refused; while
`BUSY = 1` it is refused; and where the reading is that of rule R246 it is refused until a `STATUS` read has returned
`BUSY = 0`; all this also in reset. The window of R246 opens with an accepted `CMD` write only, and only such a read, or
the release of the reset, ends it. Under the other reading an access in it is recorded in `earlyAccess`, and nothing
else is. (The two readings, the two records, and that a reset ends the window are log entry 17; the order of the names
of the refusals is log entry 11.) -/
def Obligations.HostMemoryAccess : Prop :=
  ∀ (s : State) (a : Nat) (b : Byte) (rest : List HostTxn),
    (HostMoves s (.memWrite a b) rest → MemIsHosts s → a < s.cfg.memSize →
      ∃ t, step s = .next t ∧ t.byte a = b ∧ (∀ k, k ≠ a → t.byte k = s.byte k)
        ∧ t = { hostMoved s rest with
            mem := t.mem
            host := ⟨rest, s.host.returned, s.host.handedOver, s.host.earlyAccess || s.host.handedOver⟩ })
    ∧ (HostMoves s (.memRead a) rest → MemIsHosts s → a < s.cfg.memSize →
      step s = .next { hostMoved s rest with
        host := ⟨rest, .mem a (s.byte a) :: s.host.returned, s.host.handedOver,
          s.host.earlyAccess || s.host.handedOver⟩ })
    ∧ (MemIsHosts s → s.cfg.memSize ≤ a →
      (HostActs s (.memWrite a b) rest → step s = .refused (.hostOutsideMem a))
      ∧ (HostActs s (.memRead a) rest → step s = .refused (.hostOutsideMem a)))
    ∧ (s.status.busy = true →
      (HostActs s (.memWrite a b) rest → step s = .refused (.memWhileBusy a))
      ∧ (HostActs s (.memRead a) rest → step s = .refused (.memWhileBusy a)))
    ∧ (s.status.busy = false → s.cfg.handOver = .untilStatusRead → s.host.handedOver = true →
      (HostActs s (.memWrite a b) rest → step s = .refused (.memBeforeStatusRead a))
      ∧ (HostActs s (.memRead a) rest → step s = .refused (.memBeforeStatusRead a)))
    ∧ ∀ t, step s = .next t →
      (s.host.handedOver = false → t.host.handedOver = true →
        s.status.busy = false ∧ ∃ c l, HostMoves s (.regWrite .word 0x04 c) l)
      ∧ (s.host.handedOver = true → t.host.handedOver = false →
        (s.status.busy = false ∧ ∃ l, HostMoves s .poll l ∨ HostMoves s (.regRead .word 0x08) l)
          ∨ (s.resetN = false ∧ ∃ l, s.host.script = .resetN true :: l))
      ∧ (t.host.earlyAccess ≠ s.host.earlyAccess →
        t.host.earlyAccess = true ∧ s.host.handedOver = true ∧ s.status.busy = false ∧ s.cfg.handOver = .whileBusy
          ∧ ∃ l k c, HostActs s (.memRead k) l ∨ HostActs s (.memWrite k c) l)

/-- Rule R99: `poll` waits while `BUSY = 1`; with `BUSY = 0` it returns `STATUS`, is done, and gives `MEM` back to the
host (rule R246). (That it is one read per step and stays at the head of the script meanwhile is the model's choice, log
entry 11; the record `handedOver` is log entry 17.) -/
def Obligations.PollWaitsForIdle : Prop :=
  ∀ (s : State) (rest : List HostTxn), HostMoves s .poll rest →
    (s.status.busy = true → step s = .next { s with turns := s.turns.tail })
    ∧ (s.status.busy = false →
      step s = .next { s with host := ⟨rest, .poll s.status.word :: s.host.returned, false, s.host.earlyAccess⟩ })

/-- Rules R240, R241: a transaction drives `RESET_N`, also while a command is in flight; while it is low no transaction
that has a meaning and no completion changes the block, with transactions left or none; its release leaves the reset
values, whatever was in flight. (That the registers keep their values when it goes low and until the release is the
model's choice, log entry 18; that a transaction is passed over without effect is its reading, log entry 7; the new
unknown content of `MEM` is log entry 1, `PENDING = 0` log entry 2, the records of the host log entry
17. Transactions without a meaning are refused in reset too: `MisshapenRegisterAccessIsRefused`, `HostMemoryAccess`.) -/
def Obligations.ResetInputActs : Prop :=
  (∀ (s : State) (level : Bool) (rest : List HostTxn), HostMoves s (.resetN level) rest →
    step s = .next { hostMoved s rest with resetN := level })
  ∧ (∀ s : State, s.resetN = false → s.host.script = [] → step s = .next s)
  ∧ ∀ (s : State) (x : HostTxn) (rest : List HostTxn), s.resetN = false → s.host.script = x :: rest →
    (x ≠ .resetN true → HasMeaning s x → step s = .next { s with
        host := ⟨rest, s.host.returned, s.host.handedOver,
          s.host.earlyAccess || (isMemAccess x && s.host.handedOver)⟩ })
    ∧ (x = .resetN true → ∃ t, step s = .next t
        ∧ t = { State.reset with
            cfg := s.cfg, epoch := s.epoch + 1, host := ⟨rest, s.host.returned, false, s.host.earlyAccess⟩
            turns := s.turns }
        ∧ ∀ a, t.byte a = Config.launchByte (s.epoch + 1) a)

/-- Rule R37: the reset values the spec gives. Every byte of `MEM` is the unknown launch content; `PENDING` is not
stated (log entry 2). -/
def Obligations.ResetValues : Prop :=
  (∀ r : Reg, readReg State.reset r = if r = .id then 0x43545842 else 0)
    ∧ State.reset.status = ⟨false, false, false, 0, 0⟩
    ∧ ∀ a, State.reset.byte a = Config.launchByte 0 a

/-! ### Invariants and whole-machine rules -/

/-- The invariant holds after reset (with the model's reset values, log entries 2 and 3). -/
def Obligations.ResetMeetsTheInvariant : Prop := State.reset.Inv

/-- Every step keeps the invariant: the facts of rules R30, R31, R201 about `STATUS` and `ERRINFO`, that `LASTOP` is the
low byte of `PENDING`, the hand-over of `MEM`, and the canonical form of `MEM` inside `MEM_SIZE`. (Rule R34 gives
`LASTOP = PENDING[7:0]` as of the last acceptance; that it holds while idle and over the release of the reset rests on
the values the model keeps in `PENDING`, log entry 2. The canonical form is log entry 1, the record `handedOver` log
entry 17.) -/
def Obligations.StepKeepsTheInvariant : Prop :=
  ∀ s t : State, s.Inv → step s = .next t → t.Inv

/-- Rule R9: the parameters are no state: no step changes them. -/
def Obligations.StepKeepsTheParameters : Prop :=
  ∀ s t : State, step s = .next t → t.cfg = s.cfg

/-- Rule R32: only the completion of `CLRERR` and reset clear `ERR`. (That a reset does so at its release and not at its
assertion is the model's choice, log entry 18.) -/
def Obligations.OnlyClrerrAndResetClearErr : Prop :=
  ∀ s t : State, step s = .next t → s.status.err = true → t.status.err = false →
    (BlockMoves s ∧ s.pending = 0x00000008)
      ∨ (s.resetN = false ∧ ∃ rest, s.host.script = .resetN true :: rest)

/-- Rule R25: only a host write to `SWZ` (or reset) changes `SWZ`. (That a reset does so at its release and not at its
assertion is the model's choice, log entry 18.) -/
def Obligations.OnlyTheHostChangesSwz : Prop :=
  ∀ s t : State, step s = .next t → t.swz ≠ s.swz →
    (∃ v rest, HostMoves s (.regWrite .word 0x34 v) rest ∧ s.status.busy = false ∧ t.swz = v.getLsbD 0)
      ∨ (s.resetN = false ∧ t.swz = false ∧ ∃ rest, s.host.script = .resetN true :: rest)

/-- Rule R212 over whole runs: with a fault recorded and the block idle, as long as the script holds no `CMD` write
with low byte 0x08 and no release of the reset, no number of steps changes `STATUS`, `ERRINFO` or `PENDING`: no later
command of the sequence runs. (That `PENDING` keeps its content while idle is log entry 2; that `STATUS` and `ERRINFO`
keep theirs when the script drives `RESET_N` low is log entry 18.) -/
def Obligations.ErrorGateHoldsOverRuns : Prop :=
  ∀ (s t : State) (k : Nat), s.status.err = true → s.status.busy = false →
    (∀ x ∈ s.host.script, x ≠ .resetN true ∧ ∀ size c, x = .regWrite size 0x04 c → c.toNat % 256 ≠ 0x08) →
    Host.Core.run Sys2Proof.core k s = .next t →
    t.status = s.status ∧ t.errinfo = s.errinfo ∧ t.pending = s.pending

/-- Rules R22, R25, R26: the registers each command may write. No command writes a window register or `SWZ`; only the
two parsers write field registers, each its own. (That no command changes the latch `PENDING` either is the model's
choice: rule R34 and U2 leave its content open once `BUSY = 0`, log entry 2.) -/
def Obligations.CommandsWriteOnlyTheirRegisters : Prop :=
  ∀ (i : Instr) (s t : State), exec i s = .next t →
    t = { s with
        status := t.status, errinfo := t.errinfo, mem := t.mem, width := t.width, height := t.height
        mips := t.mips, pdlen := t.pdlen, fmt := t.fmt }
    ∧ (i ≠ .hdrparse → i ≠ .ddsparse → t.width = s.width ∧ t.height = s.height ∧ t.mips = s.mips)
    ∧ (i ≠ .hdrparse → t.pdlen = s.pdlen)
    ∧ (i ≠ .ddsparse → t.fmt = s.fmt)

/-- Rule R67: the commands that write no byte of `MEM`, whether they fault or not. -/
def Obligations.NonStoringCommandsKeepMem : Prop :=
  ∀ (i : Instr) (s t : State), i = .nop ∨ i = .hdrparse ∨ i = .ddsparse ∨ i = .clrerr → exec i s = .next t →
    t.mem = s.mem ∧ ∀ a, t.byte a = s.byte a

/-- Rules R67, R70: whatever a command does, every byte outside the destination window is unchanged. -/
def Obligations.StoresStayInTheDestinationWindow : Prop :=
  ∀ (i : Instr) (s t : State), exec i s = .next t →
    ∀ a, a < s.dst.toNat ∨ s.dst.toNat + s.dstlen.toNat ≤ a → t.byte a = s.byte a

/-- Rules R26, R67: a command learns of `MEM` only the source window. In two states that differ in `MEM` outside it,
the command leaves the same registers, and every byte is equal in both results or unchanged in both. -/
def Obligations.CommandsSeeOnlyTheSourceWindow : Prop :=
  ∀ (i : Instr) (s t : State) (m : List Host.Cell) (e : Nat),
    (∀ a, s.src.toNat ≤ a → a < s.src.toNat + s.srclen.toNat →
      ({ s with mem := m, epoch := e } : State).byte a = s.byte a) →
    exec i s = .next t →
    ∃ u, exec i { s with mem := m, epoch := e } = .next u
      ∧ u = { t with mem := u.mem, epoch := e }
      ∧ ∀ a, u.byte a = t.byte a
          ∨ (u.byte a = ({ s with mem := m, epoch := e } : State).byte a ∧ t.byte a = s.byte a)

/-- Rule R68: run twice, a command leaves the state of running once, faulting or not: `NOP`, `HDRPARSE`, `DDSPARSE`,
`DDSBUILD` always; `DETILE`, `DETILE.P`, `TILE` where their needed ranges do not overlap, and where they do too, since
that is a fault; `HDRUPD` and `DDSPATCH` where source and destination range do not overlap, or `SRC = DST`. (For
`DDSPATCH` in place the offsets of `DdsConst` are well formed, so that no patched word covers the magic, log entry
9.) -/
def Obligations.RepeatedCommandsLeaveTheSameState : Prop :=
  ∀ (i : Instr) (s t : State),
    i = .nop ∨ i = .hdrparse ∨ i = .ddsparse ∨ i = .ddsbuild ∨ i = .detile ∨ i = .detileP ∨ i = .tile
      ∨ (i = .hdrupd ∧ (¬ Overlapping s.src.toNat 132 s.dst.toNat 132 ∨ s.src = s.dst))
      ∨ (i = .ddspatch ∧ (¬ Overlapping s.src.toNat 128 s.dst.toNat 128
          ∨ (s.src = s.dst ∧ s.cfg.dds.offsets.wf = true))) →
    exec i s = .next t → exec i t = .next t

/-! ### System commands -/

/-- Rule R190: `NOP` does nothing but complete; its word is 0; its acceptance leaves `LASTOP = 0`; under `ERR = 1` it
is dropped at the gate. -/
def Obligations.NopOnlyCompletes : Prop :=
  ∀ s : State, exec .nop s = .next { s with status := { s.status with busy := false, done := true } }
    ∧ decode 0x00000000 = some .nop
    ∧ (s.status.err = false → (issue s 0x00000000).status.lastop = 0)
    ∧ (s.status.err = true → issue s 0x00000000 = s)

/-- Rules R191, R213: `CLRERR` clears `ERR`, `ERRCODE`, `ERRINFO`, completes, and touches nothing else. Its word alone
is legal among those with low byte 0x08; it is accepted with `ERR` or without, and is the only command accepted under
`ERR = 1`. -/
def Obligations.ClrerrReopensTheGate : Prop :=
  ∀ s : State,
    exec .clrerr s = .next { s with
      status := { s.status with busy := false, done := true, err := false, errcode := 0 }, errinfo := 0 }
    ∧ decode 0x00000008 = some .clrerr
    ∧ (∀ c : Word, c.toNat % 256 = 0x08 → c ≠ 0x00000008 → decode c = none)
    ∧ (issue s 0x00000008).status.busy = true ∧ (issue s 0x00000008).status.lastop = 0x08
    ∧ ∀ i : Instr, i ≠ .clrerr → s.status.err = true → issue s (encode i) = s

/-! ### CTXR header -/

/-- Rules R111, R112: with a valid source window of at least 132 bytes `HDRPARSE` completes: the four registers take
the big-endian fields, any bit pattern, and nothing else changes, in `MEM` or elsewhere. -/
def Obligations.HdrparseReadsTheFields : Prop :=
  ∀ s : State, inMem s s.src s.srclen → 132 ≤ s.srclen.toNat →
    ∃ t, exec .hdrparse s = .next t
      ∧ t.width.toNat = be16Nat (s.byte (s.src.toNat + 8)) (s.byte (s.src.toNat + 9))
      ∧ t.height.toNat = be16Nat (s.byte (s.src.toNat + 10)) (s.byte (s.src.toNat + 11))
      ∧ t.mips = s.byte (s.src.toNat + 38)
      ∧ t.pdlen.toNat = be32Nat (s.byte (s.src.toNat + 128)) (s.byte (s.src.toNat + 129))
          (s.byte (s.src.toNat + 130)) (s.byte (s.src.toNat + 131))
      ∧ t = { s with
          status := doneStatus s, width := t.width, height := t.height, mips := t.mips, pdlen := t.pdlen }

/-- Rules R112, R207: the faults of `HDRPARSE` and their order. -/
def Obligations.HdrparseFaultOrder : Prop :=
  ∀ s : State,
    (¬ inMem s s.src s.srclen → FaultsWith .hdrparse s 9 0)
    ∧ (inMem s s.src s.srclen → s.srclen.toNat < 132 → FaultsWith .hdrparse s 2 s.srclen)

/-- Rules R114, R116: with valid windows of at least 132 bytes `HDRUPD` completes: the header at the destination is the
old source header with exactly the four fields overwritten, also when the windows overlap; every byte outside those
132 and every register but `STATUS` is unchanged. -/
def Obligations.HdrupdWritesTheUpdatedHeader : Prop :=
  ∀ s : State, inMem s s.src s.srclen → inMem s s.dst s.dstlen → 132 ≤ s.srclen.toNat → 132 ≤ s.dstlen.toNat →
    ∃ t, StoresOnly .hdrupd s t
      ∧ be16Nat (t.byte (s.dst.toNat + 8)) (t.byte (s.dst.toNat + 9)) = s.width.toNat
      ∧ be16Nat (t.byte (s.dst.toNat + 10)) (t.byte (s.dst.toNat + 11)) = s.height.toNat
      ∧ t.byte (s.dst.toNat + 38) = s.mips
      ∧ be32Nat (t.byte (s.dst.toNat + 128)) (t.byte (s.dst.toNat + 129)) (t.byte (s.dst.toNat + 130))
          (t.byte (s.dst.toNat + 131)) = s.pdlen.toNat
      ∧ (∀ i, i < 132 → i ∉ [8, 9, 10, 11, 38, 128, 129, 130, 131] →
          t.byte (s.dst.toNat + i) = s.byte (s.src.toNat + i))
      ∧ ∀ a, a < s.dst.toNat ∨ s.dst.toNat + 132 ≤ a → t.byte a = s.byte a

/-- Rules R116, R207: the faults of `HDRUPD` and their order. -/
def Obligations.HdrupdFaultOrder : Prop :=
  ∀ s : State,
    (¬ inMem s s.src s.srclen → FaultsWith .hdrupd s 9 0)
    ∧ (inMem s s.src s.srclen → ¬ inMem s s.dst s.dstlen → FaultsWith .hdrupd s 9 1)
    ∧ (inMem s s.src s.srclen → inMem s s.dst s.dstlen → s.srclen.toNat < 132 → FaultsWith .hdrupd s 2 s.srclen)
    ∧ (inMem s s.src s.srclen → inMem s s.dst s.dstlen → 132 ≤ s.srclen.toNat → s.dstlen.toNat < 132 →
        FaultsWith .hdrupd s 9 3)

/-- Rule R115: the laws of the accessor. -/
def Obligations.HeaderAccessorLaws : Prop :=
  ∀ (h : List Byte) (w t w' t' : Half) (m m' : Byte) (l l' : Word), h.length = 132 →
    (getWidth (withUpdated h w t m l) = w ∧ getHeight (withUpdated h w t m l) = t
      ∧ getMips (withUpdated h w t m l) = m ∧ getPdlen (withUpdated h w t m l) = l)
    ∧ withUpdated h (getWidth h) (getHeight h) (getMips h) (getPdlen h) = h
    ∧ (∀ i, i ∉ [8, 9, 10, 11, 38, 128, 129, 130, 131] → (withUpdated h w t m l)[i]? = h[i]?)
    ∧ withUpdated (withUpdated h w t m l) w' t' m' l' = withUpdated h w' t' m' l'

/-- Rule R117 item 6 and property T1: `HDRPARSE` and then `HDRUPD` from the same source with no register write between
reproduce the header byte for byte. -/
def Obligations.ParseThenUpdateReproducesTheHeader : Prop :=
  ∀ s : State, inMem s s.src s.srclen → inMem s s.dst s.dstlen → 132 ≤ s.srclen.toNat → 132 ≤ s.dstlen.toNat →
    ∃ t u, exec .hdrparse s = .next t ∧ exec .hdrupd t = .next u
      ∧ ∀ i, i < 132 → u.byte (s.dst.toNat + i) = s.byte (s.src.toNat + i)

/-! ### Target-container header -/

/-- Rules R132 to R136, R138: with a valid destination window of at least 128 bytes and `FMT` not 3 `DDSBUILD`
completes and writes the 128-byte header; every other byte and every register but `STATUS` is unchanged. The words
stand at the offsets and in the byte order of `DdsConst`, by default those of rule R130 and little-endian; every byte of
the header in no field (`depth`, `reserved1`, `caps2` to `reserved2`) is 0. (That well-formed offsets keep the fields
apart is log entry 9.) -/
def Obligations.DdsbuildWritesTheHeader : Prop :=
  ∀ s : State, s.cfg.dds.offsets.wf = true → inMem s s.dst s.dstlen → 128 ≤ s.dstlen.toNat → s.fmt ≠ 3 →
    ∃ t, StoresOnly .ddsbuild s t
      ∧ hasTag t s.dst.toNat s.cfg.dds.magic
      ∧ ddsField t (s.dst.toNat + s.cfg.dds.offsets.size.val) = 124
      ∧ SixWords s t s.dst.toNat
      ∧ PixelFormatWords t s.dst.toNat s.fmt
      ∧ (∀ k, 4 ≤ k → k < 128 → (∀ x ∈ allFields s.cfg.dds.offsets, ¬ InField x k) → t.byte (s.dst.toNat + k) = 0)
      ∧ ∀ a, a < s.dst.toNat ∨ s.dst.toNat + 128 ≤ a → t.byte a = s.byte a

/-- Rules R136, R207: the faults of `DDSBUILD` and their order. -/
def Obligations.DdsbuildFaultOrder : Prop :=
  ∀ s : State,
    (¬ inMem s s.dst s.dstlen → FaultsWith .ddsbuild s 9 1)
    ∧ (inMem s s.dst s.dstlen → s.dstlen.toNat < 128 → FaultsWith .ddsbuild s 9 3)
    ∧ (inMem s s.dst s.dstlen → 128 ≤ s.dstlen.toNat → s.fmt = 3 → FaultsWith .ddsbuild s 5 3)

/-- Rules R139, R140: with valid windows of at least 128 bytes, `FMT` not 3 and a template that starts with the magic,
`DDSPATCH` completes: six words are those of `DDSBUILD`, every other byte of the header is the old template's, also
when the windows overlap; every byte outside those 128 and every register but `STATUS` is unchanged. (Well-formed
offsets: log entry 9.) -/
def Obligations.DdspatchReplacesSixWords : Prop :=
  ∀ s : State, s.cfg.dds.offsets.wf = true →
    inMem s s.src s.srclen → inMem s s.dst s.dstlen → 128 ≤ s.srclen.toNat → 128 ≤ s.dstlen.toNat →
    s.fmt ≠ 3 → hasTag s s.src.toNat s.cfg.dds.magic →
    ∃ t, StoresOnly .ddspatch s t
      ∧ SixWords s t s.dst.toNat
      ∧ (∀ i, i < 128 → (∀ x ∈ sixFields s.cfg.dds.offsets, ¬ InField x i) →
          t.byte (s.dst.toNat + i) = s.byte (s.src.toNat + i))
      ∧ ∀ a, a < s.dst.toNat ∨ s.dst.toNat + 128 ≤ a → t.byte a = s.byte a

/-- Rules R140, R207: the faults of `DDSPATCH` and their order. -/
def Obligations.DdspatchFaultOrder : Prop :=
  ∀ s : State,
    (¬ inMem s s.src s.srclen → FaultsWith .ddspatch s 9 0)
    ∧ (inMem s s.src s.srclen → ¬ inMem s s.dst s.dstlen → FaultsWith .ddspatch s 9 1)
    ∧ (inMem s s.src s.srclen → inMem s s.dst s.dstlen →
        (s.srclen = 0 → FaultsWith .ddspatch s 6 0)
        ∧ (0 < s.srclen.toNat → s.srclen.toNat < 128 → FaultsWith .ddspatch s 2 s.srclen)
        ∧ (128 ≤ s.srclen.toNat → s.dstlen.toNat < 128 → FaultsWith .ddspatch s 9 3)
        ∧ (128 ≤ s.srclen.toNat → 128 ≤ s.dstlen.toNat → s.fmt = 3 → FaultsWith .ddspatch s 5 3)
        ∧ (128 ≤ s.srclen.toNat → 128 ≤ s.dstlen.toNat → s.fmt ≠ 3 → ¬ hasTag s s.src.toNat s.cfg.dds.magic →
            FaultsWith .ddspatch s 1 (BitVec.ofNat 32 (le32Nat (s.byte s.src.toNat) (s.byte (s.src.toNat + 1))
              (s.byte (s.src.toNat + 2)) (s.byte (s.src.toNat + 3))))))

/-- Rules R143, R145: on a header with the magic, dimensions that fit and a format that rule R143 recognises,
`DDSPARSE` completes: `WIDTH`, `HEIGHT`, `MIPS`, `FMT` are the header's, and nothing else changes, in `MEM` or
elsewhere. -/
def Obligations.DdsparseReadsTheHeader : Prop :=
  ∀ (s : State) (f : BitVec 2), inMem s s.src s.srclen → 128 ≤ s.srclen.toNat →
    hasTag s s.src.toNat s.cfg.dds.magic →
    ddsField s (s.src.toNat + s.cfg.dds.offsets.height.val) ≤ 0xFFFF →
    ddsField s (s.src.toNat + s.cfg.dds.offsets.width.val) ≤ 0xFFFF →
    ddsField s (s.src.toNat + s.cfg.dds.offsets.mipMapCount.val) ≤ 0xFF → ShowsFormat s s.src.toNat f →
    ∃ t, exec .ddsparse s = .next t
      ∧ t.height.toNat = ddsField s (s.src.toNat + s.cfg.dds.offsets.height.val)
      ∧ t.width.toNat = ddsField s (s.src.toNat + s.cfg.dds.offsets.width.val)
      ∧ t.mips.toNat = ddsField s (s.src.toNat + s.cfg.dds.offsets.mipMapCount.val)
      ∧ t.fmt = f
      ∧ t = { s with status := doneStatus s, width := t.width, height := t.height, mips := t.mips, fmt := t.fmt }

/-- Rules R143, R145, R207: the faults of `DDSPARSE` and their order. The info of `UnsupportedFormat` is the offset of
the field that decided it: 12, 16, 28, 84, 88 or 80 at the offsets of rule R130. -/
def Obligations.DdsparseFaultOrder : Prop :=
  ∀ s : State,
    let o := s.cfg.dds.offsets
    (¬ inMem s s.src s.srclen → FaultsWith .ddsparse s 9 0)
    ∧ (inMem s s.src s.srclen → s.srclen.toNat < 128 → FaultsWith .ddsparse s 2 s.srclen)
    ∧ (inMem s s.src s.srclen → 128 ≤ s.srclen.toNat →
        (¬ hasTag s s.src.toNat s.cfg.dds.magic →
          FaultsWith .ddsparse s 1 (BitVec.ofNat 32 (le32Nat (s.byte s.src.toNat) (s.byte (s.src.toNat + 1))
            (s.byte (s.src.toNat + 2)) (s.byte (s.src.toNat + 3)))))
        ∧ (hasTag s s.src.toNat s.cfg.dds.magic →
            (0xFFFF < ddsField s (s.src.toNat + o.height.val) →
              FaultsWith .ddsparse s 5 (BitVec.ofNat 32 o.height.val))
            ∧ (ddsField s (s.src.toNat + o.height.val) ≤ 0xFFFF → 0xFFFF < ddsField s (s.src.toNat + o.width.val) →
                FaultsWith .ddsparse s 5 (BitVec.ofNat 32 o.width.val))
            ∧ (ddsField s (s.src.toNat + o.height.val) ≤ 0xFFFF → ddsField s (s.src.toNat + o.width.val) ≤ 0xFFFF →
                (0xFF < ddsField s (s.src.toNat + o.mipMapCount.val) →
                  FaultsWith .ddsparse s 5 (BitVec.ofNat 32 o.mipMapCount.val))
                ∧ ∀ k : FieldOffset, ddsField s (s.src.toNat + o.mipMapCount.val) ≤ 0xFF →
                    ShowsUnsupported s s.src.toNat k → FaultsWith .ddsparse s 5 (BitVec.ofNat 32 k.val))))

/-- Rule R147 law 1 and property T7: `DDSPARSE` of what `DDSBUILD` wrote recovers `WIDTH`, `HEIGHT`, `MIPS` and `FMT`,
whatever the host wrote to those registers in between. (That the two FourCC tags differ and no two fields overlap is a
premise of the model, log entry 9.) -/
def Obligations.BuildThenParseRecovers : Prop :=
  ∀ (s : State) (w t' : Half) (m : Byte) (f : BitVec 2), s.cfg.dds.wf = true →
    inMem s s.dst s.dstlen → 128 ≤ s.dstlen.toNat → s.fmt ≠ 3 →
    ∃ t u, exec .ddsbuild s = .next t
      ∧ exec .ddsparse { t with
          src := s.dst, srclen := s.dstlen, width := w, height := t', mips := m, fmt := f } = .next u
      ∧ u.status.done = true
      ∧ u.width = s.width ∧ u.height = s.height ∧ u.mips = s.mips ∧ u.fmt = s.fmt

/-- Rule R147 law 2: the flags and caps are consistent with the mip count and the format. -/
def Obligations.BuiltFlagsAreConsistent : Prop :=
  ∀ (c : DdsConst) (m : Byte) (f : Format), c.wf = true →
    (flagsOf c m f &&& c.fMipmapcount ≠ 0 ↔ 1 < m.toNat)
    ∧ (capsOf c m &&& c.cComplex ≠ 0 ↔ 1 < m.toNat)
    ∧ (capsOf c m &&& c.cMipmap ≠ 0 ↔ 1 < m.toNat)
    ∧ (flagsOf c m f &&& c.fLinearsize ≠ 0 ↔ f ≠ .rawRgba8)
    ∧ (pfFlags c f &&& c.pfFourcc ≠ 0 ↔ f ≠ .rawRgba8)
    ∧ (pfFlags c f &&& c.pfRgb = 0 ↔ f ≠ .rawRgba8)

/-- Rule R147 laws 3 and 4: patching a built header with new dimensions is building anew; patching keeps every other
byte. -/
def Obligations.PatchedBuiltHeaderIsBuiltAnew : Prop :=
  ∀ (c : DdsConst) (w w' t t' : Half) (m m' : Byte) (f f' : Format) (p : List Byte),
    patchHeader c (buildHeader c w t m f) w' t' m' f = buildHeader c w' t' m' f
    ∧ (p.length = 128 → ∀ i, (∀ x ∈ sixFields c.offsets, ¬ InField x i) →
        (patchHeader c p w t m f')[i]? = p[i]?)

/-! ### Morton engine -/

/-- Rule R161: `nbits(d)` is the least `n` with `2^n ≥ d`, for `d ≥ 1`; every coordinate fits in that many bits; both
axes have at most 16 bits and every index is below `2^32`. -/
def Obligations.NbitsIsTheLeast : Prop :=
  (∀ d, 1 ≤ d → d ≤ 2 ^ nbits d ∧ (∀ n, d ≤ 2 ^ n → nbits d ≤ n) ∧ ∀ x, x < d → x < 2 ^ nbits d)
    ∧ (∀ d, 1 ≤ d → d ≤ 65535 → nbits d ≤ 16)
    ∧ ∀ w h x y, 1 ≤ w → w ≤ 65535 → 1 ≤ h → h ≤ 65535 → interleave w h x y < 2 ^ 32

/-- Rule R163: where each bit of `x` and `y` goes in the index, and that it has no bit above. -/
def Obligations.InterleaveClosedForm : Prop :=
  ∀ w h x y : Nat,
    (∀ i, i < min (nbits w) (nbits h) →
      (interleave w h x y).testBit (2 * i) = x.testBit i ∧ (interleave w h x y).testBit (2 * i + 1) = y.testBit i)
    ∧ (∀ i, nbits h ≤ i → i < nbits w → (interleave w h x y).testBit (nbits h + i) = x.testBit i)
    ∧ (∀ j, nbits w ≤ j → j < nbits h → (interleave w h x y).testBit (nbits w + j) = y.testBit j)
    ∧ interleave w h x y < 2 ^ (nbits w + nbits h)

/-- Rule R164 item 1: distinct pixels have distinct indices, at every size. -/
def Obligations.MortonIndexIsInjective : Prop :=
  ∀ w h x y x' y' : Nat, x < w → y < h → x' < w → y' < h →
    interleave w h x y = interleave w h x' y' → x = x' ∧ y = y'

/-- Rule R164 item 2: the index is strictly monotone in each coordinate, so the far corner has the largest one. -/
def Obligations.MortonIndexIsMonotone : Prop :=
  ∀ w h x y : Nat, x < w → y < h →
    (∀ x', x' < x → interleave w h x' y < interleave w h x y)
    ∧ (∀ y', y' < y → interleave w h x y' < interleave w h x y)
    ∧ interleave w h x y = interleave w h x 0 + interleave w h 0 y
    ∧ interleave w h x y ≤ interleave w h (w - 1) (h - 1)

/-- Rule R164 item 3: at power-of-two sizes the index is a bijection onto `0 .. W*H-1`. -/
def Obligations.MortonIndexFillsPowersOfTwo : Prop :=
  ∀ a b z : Nat, z < 2 ^ a * 2 ^ b →
    (∃ x y, x < 2 ^ a ∧ y < 2 ^ b ∧ interleave (2 ^ a) (2 ^ b) x y = z)
    ∧ interleave (2 ^ a) (2 ^ b) (2 ^ a - 1) (2 ^ b - 1) = 2 ^ a * 2 ^ b - 1

/-- Rules R170, R172: when its tests pass `DETILE` completes: pixel `(x, y)` of the destination raster is the source
pixel at the Morton index (`SWZ = 1`) or the raster index (`SWZ = 0`); every byte outside the `4n` destination bytes
and every register but `STATUS` is unchanged. With `n = 0` nothing is moved (rule R171). -/
def Obligations.DetileMovesPixelsToRaster : Prop :=
  ∀ s : State, DetileReady s →
    ∃ t, StoresOnly .detile s t
      ∧ (∀ x y k, x < s.width.toNat → y < s.height.toNat → k < 4 →
          t.byte (s.dst.toNat + 4 * (y * s.width.toNat + x) + k) = s.byte (s.src.toNat + 4 * zIndex s x y + k))
      ∧ ∀ a, a < s.dst.toNat ∨ s.dst.toNat + 4 * area s ≤ a → t.byte a = s.byte a

/-- Rule R176: `DETILE.P` completes exactly where `DETILE` does and permutes the bytes of each pixel: `[3,2,1,0]` with
`SWZ = 1`, `[3,1,2,0]` with `SWZ = 0`. -/
def Obligations.DetilePPermutesChannels : Prop :=
  ∀ s : State, DetileReady s →
    ∃ t, StoresOnly .detileP s t
      ∧ (∀ x y, x < s.width.toNat → y < s.height.toNat →
          let d := s.dst.toNat + 4 * (y * s.width.toNat + x)
          let b := fun k => s.byte (s.src.toNat + 4 * zIndex s x y + k)
          t.byte d = b 3 ∧ t.byte (d + 3) = b 0
            ∧ (s.swz = true → t.byte (d + 1) = b 2 ∧ t.byte (d + 2) = b 1)
            ∧ (s.swz = false → t.byte (d + 1) = b 1 ∧ t.byte (d + 2) = b 2))
      ∧ ∀ a, a < s.dst.toNat ∨ s.dst.toNat + 4 * area s ≤ a → t.byte a = s.byte a

/-- Rules R172, R175, R177: when its tests pass `TILE` completes: the source raster pixel `(x, y)` stands at its tiled
index in the destination; every byte at no pixel's index, holes included, and every register but `STATUS` is
unchanged. -/
def Obligations.TileMovesPixelsToTiledPositions : Prop :=
  ∀ s : State, TileReady s →
    ∃ t, StoresOnly .tile s t
      ∧ (∀ x y k, x < s.width.toNat → y < s.height.toNat → k < 4 →
          t.byte (s.dst.toNat + 4 * zIndex s x y + k) = s.byte (s.src.toNat + 4 * (y * s.width.toNat + x) + k))
      ∧ ∀ a, (∀ x y k, x < s.width.toNat → y < s.height.toNat → k < 4 → a ≠ s.dst.toNat + 4 * zIndex s x y + k) →
          t.byte a = s.byte a

/-- Rules R165, R166, R170, R175, R176, R207: the faults of the pixel commands and their order. -/
def Obligations.PixelCommandFaultOrder : Prop :=
  ∀ (s : State) (i : Instr) (ls ld : Nat),
    ((i = .detile ∨ i = .detileP) ∧ ls = tiledNeed s ∧ ld = 4 * area s)
      ∨ (i = .tile ∧ ls = 4 * area s ∧ ld = tiledNeed s) →
    (¬ inMem s s.src s.srclen → FaultsWith i s 9 0)
    ∧ (inMem s s.src s.srclen → ¬ inMem s s.dst s.dstlen → FaultsWith i s 9 1)
    ∧ (inMem s s.src s.srclen → inMem s s.dst s.dstlen →
        (s.srclen.toNat < ls → FaultsWith i s 9 2)
        ∧ (ls ≤ s.srclen.toNat → s.dstlen.toNat < ld → FaultsWith i s 9 3)
        ∧ (ls ≤ s.srclen.toNat → ld ≤ s.dstlen.toNat → Overlapping s.src.toNat ls s.dst.toNat ld →
            FaultsWith i s 10 0))

/-- Rule R171 item 1: with `WIDTH = 0` or `HEIGHT = 0` and valid windows, however short, the pixel commands complete
and move nothing. -/
def Obligations.ZeroAreaMovesNothing : Prop :=
  ∀ (s : State) (i : Instr), i = .detile ∨ i = .detileP ∨ i = .tile →
    s.width = 0 ∨ s.height = 0 → inMem s s.src s.srclen → inMem s s.dst s.dstlen →
    exec i s = .next { s with status := doneStatus s }

/-- Rule R178 laws 1, 2, 4 and property T5: `TILE` from window A to B and then `DETILE` from B to a third window C
leave in C the raster buffer that A held, at every size, power of two or not, for either `SWZ`. -/
def Obligations.TileThenDetileRestores : Prop :=
  ∀ (s : State) (c clen : Word), TileReady s → inMem s c clen → 4 * area s ≤ clen.toNat →
    ¬ Overlapping s.dst.toNat (tiledNeed s) c.toNat (4 * area s) →
    ∃ t u, exec .tile s = .next t
      ∧ exec .detile { t with src := s.dst, srclen := s.dstlen, dst := c, dstlen := clen } = .next u
      ∧ u.status.done = true
      ∧ ∀ k, k < 4 * area s → u.byte (c.toNat + k) = s.byte (s.src.toNat + k)

/-- Rule R178 laws 3, 4: `DETILE` from B to A and then `TILE` from A to C restore the tiled buffer at every index that
is no hole. -/
def Obligations.DetileThenTileRestores : Prop :=
  ∀ (s : State) (c clen : Word), DetileReady s → inMem s c clen → tiledNeed s ≤ clen.toNat →
    ¬ Overlapping s.dst.toNat (4 * area s) c.toNat (tiledNeed s) →
    ∃ t u, exec .detile s = .next t
      ∧ exec .tile { t with src := s.dst, srclen := s.dstlen, dst := c, dstlen := clen } = .next u
      ∧ u.status.done = true
      ∧ ∀ x y k, x < s.width.toNat → y < s.height.toNat → k < 4 →
          u.byte (c.toNat + 4 * zIndex s x y + k) = s.byte (s.src.toNat + 4 * zIndex s x y + k)
end

