-- ==== Sys2Proof/Laws/State.lean ====
section
/-! SUPPORT. One lemma per field of State and per update of it, all true by unfolding, so that no later proof unfolds
a record update. -/

namespace Sys2Proof.Laws

open Sys2Proof.Machine

variable (s : State) (k : FaultKind) (info c : Word) (script : List HostTxn) (r : Returned)

/-! ### enterFault -/

@[simp] theorem enterFault_cfg : (enterFault k info s).cfg = s.cfg := rfl
@[simp] theorem enterFault_status : (enterFault k info s).status = s.status.faulted k := rfl
@[simp] theorem enterFault_errinfo : (enterFault k info s).errinfo = info := rfl
@[simp] theorem enterFault_src : (enterFault k info s).src = s.src := rfl
@[simp] theorem enterFault_srclen : (enterFault k info s).srclen = s.srclen := rfl
@[simp] theorem enterFault_dst : (enterFault k info s).dst = s.dst := rfl
@[simp] theorem enterFault_dstlen : (enterFault k info s).dstlen = s.dstlen := rfl
@[simp] theorem enterFault_width : (enterFault k info s).width = s.width := rfl
@[simp] theorem enterFault_height : (enterFault k info s).height = s.height := rfl
@[simp] theorem enterFault_mips : (enterFault k info s).mips = s.mips := rfl
@[simp] theorem enterFault_pdlen : (enterFault k info s).pdlen = s.pdlen := rfl
@[simp] theorem enterFault_fmt : (enterFault k info s).fmt = s.fmt := rfl
@[simp] theorem enterFault_swz : (enterFault k info s).swz = s.swz := rfl
@[simp] theorem enterFault_pending : (enterFault k info s).pending = s.pending := rfl
@[simp] theorem enterFault_mem : (enterFault k info s).mem = s.mem := rfl
@[simp] theorem enterFault_epoch : (enterFault k info s).epoch = s.epoch := rfl
@[simp] theorem enterFault_resetN : (enterFault k info s).resetN = s.resetN := rfl
@[simp] theorem enterFault_host : (enterFault k info s).host = s.host := rfl
@[simp] theorem enterFault_turns : (enterFault k info s).turns = s.turns := rfl
@[simp] theorem enterFault_byte (a : Nat) : (enterFault k info s).byte a = s.byte a := rfl
@[simp] theorem enterFault_bytes (a n : Nat) : (enterFault k info s).bytes a n = s.bytes a n := rfl

/-! ### clearError -/

@[simp] theorem clearError_cfg : (clearError s).cfg = s.cfg := rfl
@[simp] theorem clearError_status : (clearError s).status = s.status.cleared := rfl
@[simp] theorem clearError_errinfo : (clearError s).errinfo = 0 := rfl
@[simp] theorem clearError_src : (clearError s).src = s.src := rfl
@[simp] theorem clearError_srclen : (clearError s).srclen = s.srclen := rfl
@[simp] theorem clearError_dst : (clearError s).dst = s.dst := rfl
@[simp] theorem clearError_dstlen : (clearError s).dstlen = s.dstlen := rfl
@[simp] theorem clearError_width : (clearError s).width = s.width := rfl
@[simp] theorem clearError_height : (clearError s).height = s.height := rfl
@[simp] theorem clearError_mips : (clearError s).mips = s.mips := rfl
@[simp] theorem clearError_pdlen : (clearError s).pdlen = s.pdlen := rfl
@[simp] theorem clearError_fmt : (clearError s).fmt = s.fmt := rfl
@[simp] theorem clearError_swz : (clearError s).swz = s.swz := rfl
@[simp] theorem clearError_pending : (clearError s).pending = s.pending := rfl
@[simp] theorem clearError_mem : (clearError s).mem = s.mem := rfl
@[simp] theorem clearError_epoch : (clearError s).epoch = s.epoch := rfl
@[simp] theorem clearError_resetN : (clearError s).resetN = s.resetN := rfl
@[simp] theorem clearError_host : (clearError s).host = s.host := rfl
@[simp] theorem clearError_turns : (clearError s).turns = s.turns := rfl
@[simp] theorem clearError_byte (a : Nat) : (clearError s).byte a = s.byte a := rfl
@[simp] theorem clearError_bytes (a n : Nat) : (clearError s).bytes a n = s.bytes a n := rfl

/-! ### accept -/

@[simp] theorem accept_cfg : (accept s c).cfg = s.cfg := rfl
@[simp] theorem accept_status : (accept s c).status = s.status.accepted c := rfl
@[simp] theorem accept_errinfo : (accept s c).errinfo = s.errinfo := rfl
@[simp] theorem accept_src : (accept s c).src = s.src := rfl
@[simp] theorem accept_srclen : (accept s c).srclen = s.srclen := rfl
@[simp] theorem accept_dst : (accept s c).dst = s.dst := rfl
@[simp] theorem accept_dstlen : (accept s c).dstlen = s.dstlen := rfl
@[simp] theorem accept_width : (accept s c).width = s.width := rfl
@[simp] theorem accept_height : (accept s c).height = s.height := rfl
@[simp] theorem accept_mips : (accept s c).mips = s.mips := rfl
@[simp] theorem accept_pdlen : (accept s c).pdlen = s.pdlen := rfl
@[simp] theorem accept_fmt : (accept s c).fmt = s.fmt := rfl
@[simp] theorem accept_swz : (accept s c).swz = s.swz := rfl
@[simp] theorem accept_pending : (accept s c).pending = c := rfl
@[simp] theorem accept_mem : (accept s c).mem = s.mem := rfl
@[simp] theorem accept_epoch : (accept s c).epoch = s.epoch := rfl
@[simp] theorem accept_resetN : (accept s c).resetN = s.resetN := rfl
@[simp] theorem accept_host : (accept s c).host = { s.host with handedOver := true } := rfl
@[simp] theorem accept_turns : (accept s c).turns = s.turns := rfl
@[simp] theorem accept_byte (a : Nat) : (accept s c).byte a = s.byte a := rfl
@[simp] theorem accept_bytes (a n : Nat) : (accept s c).bytes a n = s.bytes a n := rfl

/-! ### withScript -/

@[simp] theorem withScript_cfg : (s.withScript script).cfg = s.cfg := rfl
@[simp] theorem withScript_status : (s.withScript script).status = s.status := rfl
@[simp] theorem withScript_errinfo : (s.withScript script).errinfo = s.errinfo := rfl
@[simp] theorem withScript_src : (s.withScript script).src = s.src := rfl
@[simp] theorem withScript_srclen : (s.withScript script).srclen = s.srclen := rfl
@[simp] theorem withScript_dst : (s.withScript script).dst = s.dst := rfl
@[simp] theorem withScript_dstlen : (s.withScript script).dstlen = s.dstlen := rfl
@[simp] theorem withScript_width : (s.withScript script).width = s.width := rfl
@[simp] theorem withScript_height : (s.withScript script).height = s.height := rfl
@[simp] theorem withScript_mips : (s.withScript script).mips = s.mips := rfl
@[simp] theorem withScript_pdlen : (s.withScript script).pdlen = s.pdlen := rfl
@[simp] theorem withScript_fmt : (s.withScript script).fmt = s.fmt := rfl
@[simp] theorem withScript_swz : (s.withScript script).swz = s.swz := rfl
@[simp] theorem withScript_pending : (s.withScript script).pending = s.pending := rfl
@[simp] theorem withScript_mem : (s.withScript script).mem = s.mem := rfl
@[simp] theorem withScript_epoch : (s.withScript script).epoch = s.epoch := rfl
@[simp] theorem withScript_resetN : (s.withScript script).resetN = s.resetN := rfl
@[simp] theorem withScript_host : (s.withScript script).host = { s.host with script := script } := rfl
@[simp] theorem withScript_turns : (s.withScript script).turns = s.turns := rfl
@[simp] theorem withScript_byte (a : Nat) : (s.withScript script).byte a = s.byte a := rfl
@[simp] theorem withScript_bytes (a n : Nat) : (s.withScript script).bytes a n = s.bytes a n := rfl

/-! ### withReturned -/

@[simp] theorem withReturned_cfg : (s.withReturned r).cfg = s.cfg := rfl
@[simp] theorem withReturned_status : (s.withReturned r).status = s.status := rfl
@[simp] theorem withReturned_errinfo : (s.withReturned r).errinfo = s.errinfo := rfl
@[simp] theorem withReturned_src : (s.withReturned r).src = s.src := rfl
@[simp] theorem withReturned_srclen : (s.withReturned r).srclen = s.srclen := rfl
@[simp] theorem withReturned_dst : (s.withReturned r).dst = s.dst := rfl
@[simp] theorem withReturned_dstlen : (s.withReturned r).dstlen = s.dstlen := rfl
@[simp] theorem withReturned_width : (s.withReturned r).width = s.width := rfl
@[simp] theorem withReturned_height : (s.withReturned r).height = s.height := rfl
@[simp] theorem withReturned_mips : (s.withReturned r).mips = s.mips := rfl
@[simp] theorem withReturned_pdlen : (s.withReturned r).pdlen = s.pdlen := rfl
@[simp] theorem withReturned_fmt : (s.withReturned r).fmt = s.fmt := rfl
@[simp] theorem withReturned_swz : (s.withReturned r).swz = s.swz := rfl
@[simp] theorem withReturned_pending : (s.withReturned r).pending = s.pending := rfl
@[simp] theorem withReturned_mem : (s.withReturned r).mem = s.mem := rfl
@[simp] theorem withReturned_epoch : (s.withReturned r).epoch = s.epoch := rfl
@[simp] theorem withReturned_resetN : (s.withReturned r).resetN = s.resetN := rfl
@[simp] theorem withReturned_host : (s.withReturned r).host = { s.host with returned := r :: s.host.returned } := rfl
@[simp] theorem withReturned_turns : (s.withReturned r).turns = s.turns := rfl
@[simp] theorem withReturned_byte (a : Nat) : (s.withReturned r).byte a = s.byte a := rfl
@[simp] theorem withReturned_bytes (a n : Nat) : (s.withReturned r).bytes a n = s.bytes a n := rfl

/-! ### withStatusRead -/

@[simp] theorem withStatusRead_cfg : s.withStatusRead.cfg = s.cfg := rfl
@[simp] theorem withStatusRead_status : s.withStatusRead.status = s.status := rfl
@[simp] theorem withStatusRead_errinfo : s.withStatusRead.errinfo = s.errinfo := rfl
@[simp] theorem withStatusRead_src : s.withStatusRead.src = s.src := rfl
@[simp] theorem withStatusRead_srclen : s.withStatusRead.srclen = s.srclen := rfl
@[simp] theorem withStatusRead_dst : s.withStatusRead.dst = s.dst := rfl
@[simp] theorem withStatusRead_dstlen : s.withStatusRead.dstlen = s.dstlen := rfl
@[simp] theorem withStatusRead_width : s.withStatusRead.width = s.width := rfl
@[simp] theorem withStatusRead_height : s.withStatusRead.height = s.height := rfl
@[simp] theorem withStatusRead_mips : s.withStatusRead.mips = s.mips := rfl
@[simp] theorem withStatusRead_pdlen : s.withStatusRead.pdlen = s.pdlen := rfl
@[simp] theorem withStatusRead_fmt : s.withStatusRead.fmt = s.fmt := rfl
@[simp] theorem withStatusRead_swz : s.withStatusRead.swz = s.swz := rfl
@[simp] theorem withStatusRead_pending : s.withStatusRead.pending = s.pending := rfl
@[simp] theorem withStatusRead_mem : s.withStatusRead.mem = s.mem := rfl
@[simp] theorem withStatusRead_epoch : s.withStatusRead.epoch = s.epoch := rfl
@[simp] theorem withStatusRead_resetN : s.withStatusRead.resetN = s.resetN := rfl
@[simp] theorem withStatusRead_host : s.withStatusRead.host =
    { s.host with handedOver := s.host.handedOver && s.status.busy } := rfl
@[simp] theorem withStatusRead_turns : s.withStatusRead.turns = s.turns := rfl
@[simp] theorem withStatusRead_byte (a : Nat) : s.withStatusRead.byte a = s.byte a := rfl
@[simp] theorem withStatusRead_bytes (a n : Nat) : s.withStatusRead.bytes a n = s.bytes a n := rfl

/-! ### withMemAccess -/

@[simp] theorem withMemAccess_cfg : s.withMemAccess.cfg = s.cfg := rfl
@[simp] theorem withMemAccess_status : s.withMemAccess.status = s.status := rfl
@[simp] theorem withMemAccess_errinfo : s.withMemAccess.errinfo = s.errinfo := rfl
@[simp] theorem withMemAccess_src : s.withMemAccess.src = s.src := rfl
@[simp] theorem withMemAccess_srclen : s.withMemAccess.srclen = s.srclen := rfl
@[simp] theorem withMemAccess_dst : s.withMemAccess.dst = s.dst := rfl
@[simp] theorem withMemAccess_dstlen : s.withMemAccess.dstlen = s.dstlen := rfl
@[simp] theorem withMemAccess_width : s.withMemAccess.width = s.width := rfl
@[simp] theorem withMemAccess_height : s.withMemAccess.height = s.height := rfl
@[simp] theorem withMemAccess_mips : s.withMemAccess.mips = s.mips := rfl
@[simp] theorem withMemAccess_pdlen : s.withMemAccess.pdlen = s.pdlen := rfl
@[simp] theorem withMemAccess_fmt : s.withMemAccess.fmt = s.fmt := rfl
@[simp] theorem withMemAccess_swz : s.withMemAccess.swz = s.swz := rfl
@[simp] theorem withMemAccess_pending : s.withMemAccess.pending = s.pending := rfl
@[simp] theorem withMemAccess_mem : s.withMemAccess.mem = s.mem := rfl
@[simp] theorem withMemAccess_epoch : s.withMemAccess.epoch = s.epoch := rfl
@[simp] theorem withMemAccess_resetN : s.withMemAccess.resetN = s.resetN := rfl
@[simp] theorem withMemAccess_host : s.withMemAccess.host =
    { s.host with earlyAccess := s.host.earlyAccess || s.host.handedOver } := rfl
@[simp] theorem withMemAccess_turns : s.withMemAccess.turns = s.turns := rfl
@[simp] theorem withMemAccess_byte (a : Nat) : s.withMemAccess.byte a = s.byte a := rfl
@[simp] theorem withMemAccess_bytes (a n : Nat) : s.withMemAccess.bytes a n = s.bytes a n := rfl

/-! ### releaseReset -/

@[simp] theorem releaseReset_cfg : (releaseReset s).cfg = s.cfg := rfl
@[simp] theorem releaseReset_status : (releaseReset s).status = Status.reset := rfl
@[simp] theorem releaseReset_errinfo : (releaseReset s).errinfo = 0 := rfl
@[simp] theorem releaseReset_src : (releaseReset s).src = 0 := rfl
@[simp] theorem releaseReset_srclen : (releaseReset s).srclen = 0 := rfl
@[simp] theorem releaseReset_dst : (releaseReset s).dst = 0 := rfl
@[simp] theorem releaseReset_dstlen : (releaseReset s).dstlen = 0 := rfl
@[simp] theorem releaseReset_width : (releaseReset s).width = 0 := rfl
@[simp] theorem releaseReset_height : (releaseReset s).height = 0 := rfl
@[simp] theorem releaseReset_mips : (releaseReset s).mips = 0 := rfl
@[simp] theorem releaseReset_pdlen : (releaseReset s).pdlen = 0 := rfl
@[simp] theorem releaseReset_fmt : (releaseReset s).fmt = 0 := rfl
@[simp] theorem releaseReset_swz : (releaseReset s).swz = false := rfl
@[simp] theorem releaseReset_pending : (releaseReset s).pending = 0 := rfl
@[simp] theorem releaseReset_mem : (releaseReset s).mem = [] := rfl
@[simp] theorem releaseReset_epoch : (releaseReset s).epoch = s.epoch + 1 := rfl
@[simp] theorem releaseReset_resetN : (releaseReset s).resetN = true := rfl
@[simp] theorem releaseReset_host : (releaseReset s).host = { s.host with handedOver := false } := rfl
@[simp] theorem releaseReset_turns : (releaseReset s).turns = s.turns := rfl

/-! ### takeTurn -/

@[simp] theorem takeTurn_cfg : (s.takeTurn).cfg = s.cfg := by unfold State.takeTurn; split <;> rfl
@[simp] theorem takeTurn_status : (s.takeTurn).status = s.status := by unfold State.takeTurn; split <;> rfl
@[simp] theorem takeTurn_errinfo : (s.takeTurn).errinfo = s.errinfo := by unfold State.takeTurn; split <;> rfl
@[simp] theorem takeTurn_src : (s.takeTurn).src = s.src := by unfold State.takeTurn; split <;> rfl
@[simp] theorem takeTurn_srclen : (s.takeTurn).srclen = s.srclen := by unfold State.takeTurn; split <;> rfl
@[simp] theorem takeTurn_dst : (s.takeTurn).dst = s.dst := by unfold State.takeTurn; split <;> rfl
@[simp] theorem takeTurn_dstlen : (s.takeTurn).dstlen = s.dstlen := by unfold State.takeTurn; split <;> rfl
@[simp] theorem takeTurn_width : (s.takeTurn).width = s.width := by unfold State.takeTurn; split <;> rfl
@[simp] theorem takeTurn_height : (s.takeTurn).height = s.height := by unfold State.takeTurn; split <;> rfl
@[simp] theorem takeTurn_mips : (s.takeTurn).mips = s.mips := by unfold State.takeTurn; split <;> rfl
@[simp] theorem takeTurn_pdlen : (s.takeTurn).pdlen = s.pdlen := by unfold State.takeTurn; split <;> rfl
@[simp] theorem takeTurn_fmt : (s.takeTurn).fmt = s.fmt := by unfold State.takeTurn; split <;> rfl
@[simp] theorem takeTurn_swz : (s.takeTurn).swz = s.swz := by unfold State.takeTurn; split <;> rfl
@[simp] theorem takeTurn_pending : (s.takeTurn).pending = s.pending := by unfold State.takeTurn; split <;> rfl
@[simp] theorem takeTurn_mem : (s.takeTurn).mem = s.mem := by unfold State.takeTurn; split <;> rfl
@[simp] theorem takeTurn_epoch : (s.takeTurn).epoch = s.epoch := by unfold State.takeTurn; split <;> rfl
@[simp] theorem takeTurn_resetN : (s.takeTurn).resetN = s.resetN := by unfold State.takeTurn; split <;> rfl
@[simp] theorem takeTurn_host : (s.takeTurn).host = s.host := by unfold State.takeTurn; split <;> rfl
@[simp] theorem takeTurn_awaitsStatusRead : (s.takeTurn).awaitsStatusRead ↔ s.awaitsStatusRead := by simp [State.awaitsStatusRead]
@[simp] theorem takeTurn_turns : (s.takeTurn).turns = if s.contended then s.turns.tail else s.turns := by unfold State.takeTurn; split <;> rfl
@[simp] theorem takeTurn_byte (a : Nat) : (s.takeTurn).byte a = s.byte a := by unfold State.takeTurn; split <;> rfl
@[simp] theorem takeTurn_bytes (a n : Nat) : (s.takeTurn).bytes a n = s.bytes a n := by unfold State.takeTurn; split <;> rfl

@[simp] theorem faulted_busy (st : Status) : (st.faulted k).busy = false := rfl
@[simp] theorem faulted_done (st : Status) : (st.faulted k).done = false := rfl
@[simp] theorem faulted_err (st : Status) : (st.faulted k).err = true := rfl
@[simp] theorem faulted_errcode (st : Status) : (st.faulted k).errcode = k.code := rfl
@[simp] theorem faulted_lastop (st : Status) : (st.faulted k).lastop = st.lastop := rfl
@[simp] theorem completed_busy (st : Status) : st.completed.busy = false := rfl
@[simp] theorem completed_done (st : Status) : st.completed.done = true := rfl
@[simp] theorem completed_err (st : Status) : st.completed.err = st.err := rfl
@[simp] theorem completed_errcode (st : Status) : st.completed.errcode = st.errcode := rfl
@[simp] theorem completed_lastop (st : Status) : st.completed.lastop = st.lastop := rfl
@[simp] theorem cleared_busy (st : Status) : st.cleared.busy = st.busy := rfl
@[simp] theorem cleared_done (st : Status) : st.cleared.done = st.done := rfl
@[simp] theorem cleared_err (st : Status) : st.cleared.err = false := rfl
@[simp] theorem cleared_errcode (st : Status) : st.cleared.errcode = 0 := rfl
@[simp] theorem cleared_lastop (st : Status) : st.cleared.lastop = st.lastop := rfl
@[simp] theorem accepted_busy (st : Status) : (st.accepted c).busy = true := rfl
@[simp] theorem accepted_done (st : Status) : (st.accepted c).done = false := rfl
@[simp] theorem accepted_err (st : Status) : (st.accepted c).err = st.err := rfl
@[simp] theorem accepted_errcode (st : Status) : (st.accepted c).errcode = st.errcode := rfl
@[simp] theorem accepted_lastop (st : Status) : (st.accepted c).lastop = c.extractLsb' 0 8 := rfl

/-- Entering the same fault twice is entering it once. -/
@[simp] theorem enterFault_enterFault : enterFault k info (enterFault k info s) = enterFault k info s := rfl

/-- A byte depends on `MEM` and on the reset it was last unknown at, only. -/
theorem byte_congr {s t : State} (hm : t.mem = s.mem) (he : t.epoch = s.epoch) (a : Nat) : t.byte a = s.byte a := by
  simp [State.byte, hm, he]

/-- The same for a byte sequence. -/
theorem bytes_congr {s t : State} (hm : t.mem = s.mem) (he : t.epoch = s.epoch) (a n : Nat) :
    t.bytes a n = s.bytes a n := by
  simp [State.bytes, byte_congr hm he]

/-- A register other than `CMD` and the read-only ones reads back what was stored, truncated to its width. -/
theorem readReg_writeReg (s : State) (v : Word) :
    (∀ r ∈ [Reg.src, .srclen, .dst, .dstlen, .pdlen], readReg (writeReg s r v) r = v)
      ∧ readReg (writeReg s .width v) .width = (v.setWidth 16).setWidth 32
      ∧ readReg (writeReg s .height v) .height = (v.setWidth 16).setWidth 32
      ∧ readReg (writeReg s .mips v) .mips = (v.setWidth 8).setWidth 32
      ∧ readReg (writeReg s .fmt v) .fmt = (v.setWidth 2).setWidth 32
      ∧ readReg (writeReg s .swz v) .swz = (BitVec.ofBool (v.getLsbD 0)).setWidth 32 := by
  simp [readReg, writeReg]

/-- Storing in one register leaves every other register as it reads. -/
theorem readReg_writeReg_other (s : State) (r q : Reg) (v : Word) (h : q ≠ r) :
    readReg (writeReg s r v) q = readReg s q := by
  cases r <;> cases q <;> first | rfl | exact absurd rfl h

/-- Storing in a register touches no `MEM`, no latch, no flag and no input. -/
theorem writeReg_frame (s : State) (r : Reg) (v : Word) :
    (writeReg s r v).cfg = s.cfg ∧ (writeReg s r v).status = s.status ∧ (writeReg s r v).errinfo = s.errinfo
      ∧ (writeReg s r v).pending = s.pending ∧ (writeReg s r v).mem = s.mem ∧ (writeReg s r v).epoch = s.epoch
      ∧ (writeReg s r v).resetN = s.resetN ∧ (writeReg s r v).host = s.host
      ∧ (writeReg s r v).turns = s.turns := by
  cases r <;> simp [writeReg]

/-- Every register stands at four times its number (rule R20). -/
theorem regAtOffset_offset (r : Reg) : regAtOffset r.offset = some r := by
  cases r <;> decide

end Sys2Proof.Laws
end

