-- ==== Sys2Proof/Laws/Memory.lean ====
section
/-! SUPPORT. `MEM`: read after write, and that every memory operation keeps the canonical form. -/

namespace Sys2Proof.Laws

open Sys2Proof.Machine

/-! ### Read after write -/

@[simp] theorem lookup_nil (a : Nat) : lookup [] a = none := rfl

theorem lookup_insertCell (m : List Host.Cell) (a k : Nat) (b : Byte) :
    lookup (insertCell m a b) k = if k = a then some b else lookup m k := by
  induction m with
  | nil => simp [insertCell, lookup, eq_comm]
  | cons c m ih =>
    obtain ⟨x, y⟩ := c
    simp only [insertCell]
    split
    · simp only [lookup]; split <;> simp_all [eq_comm]
    · split
      · subst_vars; simp only [lookup]; split <;> simp_all [eq_comm]
      · simp only [lookup, ih]
        by_cases hk : k = a
        · subst hk; simp [eq_comm, *]
        · simp [hk]

theorem lookup_insertBytes (bs : List Byte) (m : List Host.Cell) (a k : Nat) :
    lookup (insertBytes m a bs) k = if a ≤ k ∧ k < a + bs.length then bs[k - a]? else lookup m k := by
  induction bs generalizing m a with
  | nil => simp [insertBytes]
  | cons b bs ih =>
    simp only [insertBytes, ih, lookup_insertCell, List.length_cons]
    by_cases h1 : a + 1 ≤ k ∧ k < a + 1 + bs.length
    · rw [if_pos h1, if_pos (by omega), show k - a = (k - (a + 1)) + 1 by omega, List.getElem?_cons_succ]
    · rw [if_neg h1]
      by_cases h2 : k = a
      · subst h2; simp
      · rw [if_neg h2, if_neg (by omega)]

/-- A byte of `MEM` after a byte sequence was written. -/
theorem byte_insertBytes (s : State) (a k : Nat) (bs : List Byte) :
    ({ s with mem := insertBytes s.mem a bs } : State).byte k
      = if a ≤ k ∧ k < a + bs.length then byteAt bs (k - a) else s.byte k := by
  simp only [State.byte, lookup_insertBytes, byteAt]
  split
  · rw [List.getD_eq_getElem?_getD, List.getElem?_eq_getElem (by omega)]; rfl
  · rfl

/-- A byte of `MEM` after one byte was written. -/
theorem byte_insertCell (s : State) (a k : Nat) (b : Byte) :
    ({ s with mem := insertCell s.mem a b } : State).byte k = if k = a then b else s.byte k := by
  simp only [State.byte, lookup_insertCell]
  split <;> rfl

/-! ### The canonical form -/

/-- The canonical form in terms of neighbours: addresses strictly rising. -/
theorem wf_cons {a : Nat} {b : Byte} {m : List Host.Cell} :
    Memory.wf ((a, b) :: m) = true ↔ (∀ c ∈ m, a < c.1) ∧ Memory.wf m = true := by
  induction m generalizing a b with
  | nil => simp [Memory.wf]
  | cons c m ih =>
    obtain ⟨x, y⟩ := c
    simp only [Memory.wf, Bool.and_eq_true, decide_eq_true_eq, ih, List.mem_cons, forall_eq_or_imp]
    constructor
    · rintro ⟨h1, h2, h3⟩
      exact ⟨⟨h1, fun c hc => Nat.lt_trans h1 (h2 c hc)⟩, h2, h3⟩
    · rintro ⟨⟨h1, _⟩, h2, h3⟩
      exact ⟨h1, h2, h3⟩

/-- The addresses listed after a write: those of before, and the written one. -/
theorem mem_insertCell {m : List Host.Cell} {a : Nat} {b : Byte} {c : Host.Cell} (h : c ∈ insertCell m a b) :
    c = (a, b) ∨ c ∈ m := by
  induction m with
  | nil => simpa [insertCell] using h
  | cons d m ih =>
    obtain ⟨x, y⟩ := d
    simp only [insertCell] at h
    split at h
    · simpa using h
    · split at h
      · rcases List.mem_cons.1 h with h | h
        · exact .inl h
        · exact .inr (List.mem_cons_of_mem _ h)
      · rcases List.mem_cons.1 h with h | h
        · exact .inr (h ▸ List.mem_cons_self)
        · exact (ih h).imp id (List.mem_cons_of_mem _)

theorem wf_insertCell {m : List Host.Cell} (h : Memory.wf m = true) (a : Nat) (b : Byte) :
    Memory.wf (insertCell m a b) = true := by
  induction m with
  | nil => rfl
  | cons c m ih =>
    obtain ⟨x, y⟩ := c
    have hc := wf_cons.1 h
    simp only [insertCell]
    split
    · refine wf_cons.2 ⟨fun d hd => ?_, h⟩
      rcases List.mem_cons.1 hd with rfl | hd
      · assumption
      · exact Nat.lt_trans ‹_› (hc.1 d hd)
    · split
      · subst_vars; exact wf_cons.2 hc
      · refine wf_cons.2 ⟨fun d hd => ?_, ih hc.2⟩
        rcases mem_insertCell hd with rfl | hd
        · show x < a; omega
        · exact hc.1 d hd

theorem wf_insertBytes (bs : List Byte) {m : List Host.Cell} (h : Memory.wf m = true) (a : Nat) :
    Memory.wf (insertBytes m a bs) = true := by
  induction bs generalizing m a with
  | nil => exact h
  | cons b bs ih => exact ih (wf_insertCell h a b) (a + 1)

/-- Every address listed after a byte sequence was written was listed before or lies in the written range. -/
theorem mem_insertBytes (bs : List Byte) {m : List Host.Cell} {a : Nat} {c : Host.Cell}
    (h : c ∈ insertBytes m a bs) : c ∈ m ∨ (a ≤ c.1 ∧ c.1 < a + bs.length) := by
  induction bs generalizing m a with
  | nil => exact .inl h
  | cons b bs ih =>
    simp only [List.length_cons]
    rcases ih h with h | h
    · rcases mem_insertCell h with rfl | h
      · right; show a ≤ a ∧ a < _; omega
      · exact .inl h
    · right; omega

/-- Writing the same byte again changes nothing. -/
theorem insertCell_insertCell (m : List Host.Cell) (a : Nat) (b : Byte) :
    insertCell (insertCell m a b) a b = insertCell m a b := by
  induction m with
  | nil => simp [insertCell]
  | cons c m ih =>
    obtain ⟨x, y⟩ := c
    by_cases h1 : a < x
    · simp [insertCell, h1]
    · by_cases h2 : a = x
      · simp [insertCell, h2]
      · simp [insertCell, h1, h2, ih]

/-- Where writing a byte changes nothing, it still changes nothing after a byte was written elsewhere. -/
theorem insertCell_settled {m : List Host.Cell} {a : Nat} {b : Byte} (h : insertCell m a b = m) {k : Nat} (hk : k ≠ a)
    (y : Byte) : insertCell (insertCell m k y) a b = insertCell m k y := by
  induction m with
  | nil => simp [insertCell] at h
  | cons c m ih =>
    obtain ⟨x, z⟩ := c
    simp only [insertCell] at h
    split at h
    · exact absurd (congrArg List.length h) (by simp)
    · split at h
      · obtain ⟨rfl, rfl⟩ : a = x ∧ b = z := by simpa using h
        rcases Nat.lt_or_gt_of_ne hk with hlt | hgt
        · simp [insertCell, hlt, Nat.lt_asymm hlt, Nat.ne_of_gt hlt]
        · simp [insertCell, Nat.lt_asymm hgt, hk]
      · have hm : insertCell m a b = m := by simpa using h
        simp only [insertCell]
        split
        · simp_all [insertCell, show ¬ a < k by omega, show a ≠ k from hk.symm]
        · split
          · subst_vars; simp_all [insertCell]
          · simp_all [insertCell]

end Sys2Proof.Laws
end

