-- ==== Sys2Proof/Laws/Ops.lean ====
section
/-! SUPPORT. What each shared operation can do, said once: `MemRead`, `MemWrite`, `raise`, `complete`. -/

namespace Sys2Proof.Laws

open Sys2Proof.Machine

/-! ### MemRead -/

@[simp] theorem length_bytes (s : State) (a n : Nat) : (s.bytes a n).length = n := by
  simp [State.bytes]

/-- Byte `k` of the bytes read. -/
@[simp] theorem byteAt_bytes (s : State) (a n k : Nat) (h : k < n) : byteAt (s.bytes a n) k = s.byte (a + k) := by
  simp [byteAt, State.bytes, h]

/-- `MemRead` inside `MEM` gives the bytes. -/
theorem memRead_eq_ok {s : State} {a n : Nat} (h : a + n ≤ s.cfg.memSize) : memRead s a n = .ok (s.bytes a n) :=
  if_pos h

/-- All `MemRead` can do. -/
theorem memRead_cases (s : State) (a n : Nat) :
    (a + n ≤ s.cfg.memSize ∧ memRead s a n = .ok (s.bytes a n))
      ∨ (s.cfg.memSize < a + n ∧ memRead s a n = .error (.outsideMem a n)) := by
  unfold memRead
  split
  · exact .inl ⟨‹_›, rfl⟩
  · exact .inr ⟨by omega, rfl⟩

/-! ### MemWrite -/

/-- `MemWrite` inside `MEM` writes the bytes and nothing else. -/
theorem memWrite_eq_ok {s : State} {a : Nat} {bs : List Byte} (h : a + bs.length ≤ s.cfg.memSize) :
    memWrite s a bs = .ok { s with mem := insertBytes s.mem a bs } :=
  if_pos h

/-- All a successful `MemWrite` can do. -/
theorem memWrite_ok {s t : State} {a : Nat} {bs : List Byte} (h : memWrite s a bs = .ok t) :
    a + bs.length ≤ s.cfg.memSize ∧ t = { s with mem := insertBytes s.mem a bs } := by
  unfold memWrite at h
  split at h
  · exact ⟨‹_›, (Except.ok.inj h).symm⟩
  · cases h

/-- After a successful `MemWrite` the range holds the bytes and every other byte is unchanged. -/
theorem memWrite_byte {s t : State} {a : Nat} {bs : List Byte} (h : memWrite s a bs = .ok t) (k : Nat) :
    t.byte k = if a ≤ k ∧ k < a + bs.length then byteAt bs (k - a) else s.byte k := by
  rw [(memWrite_ok h).2, byte_insertBytes]

/-! ### The end of a completion step -/

@[simp] theorem raise_next (k : FaultKind) (info : Word) (s : State) :
    raise k info s = .next (enterFault k info s) := rfl

@[simp] theorem complete_next (s : State) :
    complete s = .next { s with status := s.status.completed } := rfl

@[simp] theorem completeWrite_ok (s : State) : completeWrite (.ok s) = complete s := rfl

/-- The only next state a completed write has. -/
theorem completeWrite_next {r : Except Fault State} {t : State} (h : completeWrite r = .next t) :
    ∃ s, r = .ok s ∧ t = { s with status := s.status.completed } := by
  cases r with
  | ok s => exact ⟨s, rfl, by simpa [completeWrite, complete] using h.symm⟩
  | error f => cases h

/-- Every fault kind has a code other than 0 (rule R201). -/
theorem code_ne_zero (k : FaultKind) : k.code ≠ 0 := by
  cases k <;> decide

end Sys2Proof.Laws
end

