-- ==== Sys2Proof/Laws/Bytes.lean ====
section
/-! SUPPORT. Byte orders and the two headers: a field written and read back, the lengths, and where each byte of a
built, patched or updated header comes from. -/

namespace Sys2Proof.Laws

open Sys2Proof.Machine

/-! ### Byte orders (rule R13) -/

theorem be16_toNat (b0 b1 : Byte) : (be16 b0 b1).toNat = b0.toNat * 256 + b1.toNat := by
  simp only [be16, BitVec.toNat_append]
  rw [← Nat.shiftLeft_add_eq_or_of_lt b1.isLt, Nat.shiftLeft_eq]

theorem append_toNat {n m : Nat} (a : BitVec n) (b : BitVec m) : (a ++ b).toNat = a.toNat * 2 ^ m + b.toNat := by
  rw [BitVec.toNat_append, ← Nat.shiftLeft_add_eq_or_of_lt b.isLt, Nat.shiftLeft_eq]

theorem be32_toNat (b0 b1 b2 b3 : Byte) :
    (be32 b0 b1 b2 b3).toNat = b0.toNat * 2 ^ 24 + b1.toNat * 2 ^ 16 + b2.toNat * 2 ^ 8 + b3.toNat := by
  simp only [be32, append_toNat]; omega

theorem le32_toNat (b0 b1 b2 b3 : Byte) :
    (le32 b0 b1 b2 b3).toNat = b0.toNat + b1.toNat * 2 ^ 8 + b2.toNat * 2 ^ 16 + b3.toNat * 2 ^ 24 := by
  simp only [le32, append_toNat]; omega

theorem byteOf_toNat {n : Nat} (v : BitVec n) (k : Nat) : (byteOf v k).toNat = v.toNat / 2 ^ (8 * k) % 256 := by
  simp [byteOf, BitVec.extractLsb', Nat.shiftRight_eq_div_pow]

@[simp] theorem be16_byteOf (v : Half) : be16 (byteOf v 1) (byteOf v 0) = v := by
  apply BitVec.eq_of_toNat_eq
  have := v.isLt
  simp only [be16_toNat, byteOf_toNat]; omega

@[simp] theorem be32_byteOf (v : Word) : be32 (byteOf v 3) (byteOf v 2) (byteOf v 1) (byteOf v 0) = v := by
  apply BitVec.eq_of_toNat_eq
  have := v.isLt
  simp only [be32_toNat, byteOf_toNat]; omega

@[simp] theorem le32_byteOf (v : Word) : le32 (byteOf v 0) (byteOf v 1) (byteOf v 2) (byteOf v 3) = v := by
  apply BitVec.eq_of_toNat_eq
  have := v.isLt
  simp only [le32_toNat, byteOf_toNat]; omega

theorem byteOf_be16 (b0 b1 : Byte) : byteOf (be16 b0 b1) 1 = b0 ∧ byteOf (be16 b0 b1) 0 = b1 := by
  have := b0.isLt; have := b1.isLt
  constructor <;> apply BitVec.eq_of_toNat_eq <;> simp only [be16_toNat, byteOf_toNat] <;> omega

theorem byteOf_be32 (b0 b1 b2 b3 : Byte) :
    byteOf (be32 b0 b1 b2 b3) 3 = b0 ∧ byteOf (be32 b0 b1 b2 b3) 2 = b1
      ∧ byteOf (be32 b0 b1 b2 b3) 1 = b2 ∧ byteOf (be32 b0 b1 b2 b3) 0 = b3 := by
  have := b0.isLt; have := b1.isLt; have := b2.isLt; have := b3.isLt
  refine ⟨?_, ?_, ?_, ?_⟩ <;> apply BitVec.eq_of_toNat_eq <;> simp only [be32_toNat, byteOf_toNat] <;> omega

/-! ### Byte sequences -/

theorem getElem?_eq_byteAt {bs : List Byte} {k : Nat} (h : k < bs.length) : bs[k]? = some (byteAt bs k) := by
  simp [byteAt, h]

/-- Two byte sequences of one length with the same bytes are equal. -/
theorem ext_byteAt {as bs : List Byte} (hl : as.length = bs.length)
    (h : ∀ k, k < as.length → byteAt as k = byteAt bs k) : as = bs := by
  apply List.ext_getElem hl
  intro k h1 h2
  have := h k h1
  simpa [byteAt, h1, h2] using this

/-- A sequence given by a function of the position. -/
theorem byteAt_map_range (f : Nat → Byte) (n k : Nat) (h : k < n) : byteAt ((List.range n).map f) k = f k := by
  simp [byteAt, h]

/-! ### The CTXR header (rule R114) -/

@[simp] theorem length_withUpdated (h : List Byte) (w t : Half) (m : Byte) (l : Word) :
    (withUpdated h w t m l).length = 132 := by
  simp [withUpdated]

/-- The nine field offsets of the CTXR header (rule R110). -/
abbrev headerFieldOffsets : List Nat := [8, 9, 10, 11, 38, 128, 129, 130, 131]

theorem byteAt_withUpdated_field (h : List Byte) (w t : Half) (m : Byte) (l : Word) :
    byteAt (withUpdated h w t m l) 8 = byteOf w 1 ∧ byteAt (withUpdated h w t m l) 9 = byteOf w 0
      ∧ byteAt (withUpdated h w t m l) 10 = byteOf t 1 ∧ byteAt (withUpdated h w t m l) 11 = byteOf t 0
      ∧ byteAt (withUpdated h w t m l) 38 = m
      ∧ byteAt (withUpdated h w t m l) 128 = byteOf l 3 ∧ byteAt (withUpdated h w t m l) 129 = byteOf l 2
      ∧ byteAt (withUpdated h w t m l) 130 = byteOf l 1 ∧ byteAt (withUpdated h w t m l) 131 = byteOf l 0 := by
  exact ⟨byteAt_map_range _ _ _ (by decide), byteAt_map_range _ _ _ (by decide), byteAt_map_range _ _ _ (by decide),
    byteAt_map_range _ _ _ (by decide), byteAt_map_range _ _ _ (by decide), byteAt_map_range _ _ _ (by decide),
    byteAt_map_range _ _ _ (by decide), byteAt_map_range _ _ _ (by decide), byteAt_map_range _ _ _ (by decide)⟩

theorem byteAt_withUpdated_other (h : List Byte) (w t : Half) (m : Byte) (l : Word) (i : Nat) (hi : i < 132)
    (hn : i ∉ headerFieldOffsets) : byteAt (withUpdated h w t m l) i = byteAt h i := by
  rw [withUpdated, byteAt_map_range _ _ _ hi]
  simp only [headerFieldOffsets, List.mem_cons, not_or, List.not_mem_nil] at hn
  obtain ⟨h1, h2, h3, h4, h5, h6, h7, h8, h9, -⟩ := hn
  split <;> simp_all

/-! ### The target-container header (rules R130, R138, R139) -/

@[simp] theorem length_fieldBytes (c : DdsConst) (v : Word) : (fieldBytes c v).length = 4 := by
  unfold fieldBytes; split <;> rfl

@[simp] theorem length_quad (q : Quad) : q.bytes.length = 4 := by simp [Quad.bytes]

@[simp] theorem length_pfFourccBytes (c : DdsConst) (f : Format) : (pfFourccBytes c f).length = 4 := by
  cases f <;> rfl

@[simp] theorem length_buildHeader (c : DdsConst) (w t : Half) (m : Byte) (f : Format) :
    (buildHeader c w t m f).length = 128 := by
  simp [buildHeader]

@[simp] theorem length_patchHeader (c : DdsConst) (p : List Byte) (w t : Half) (m : Byte) (f : Format) :
    (patchHeader c p w t m f).length = 128 := by
  simp [patchHeader]

theorem inField_iff {k i : Nat} : inField k i = true ↔ k ≤ i ∧ i < k + 4 := by
  simp [inField]

/-- A word written in the header's byte order is read back. -/
theorem fieldAt_eq {c : DdsConst} {d : List Byte} {k : Nat} {v : Word}
    (h : ∀ j, j < 4 → byteAt d (k + j) = byteAt (fieldBytes c v) j) : fieldAt c d k = v := by
  have h0 := h 0 (by omega); have h1 := h 1 (by omega); have h2 := h 2 (by omega); have h3 := h 3 (by omega)
  simp only [Nat.add_zero] at h0
  clear h
  cases ho : c.order <;> simp only [fieldBytes, ho] at h0 h1 h2 h3 <;> simp only [fieldAt, ho]
  · rw [le32At, h0, h1, h2, h3]; exact le32_byteOf v
  · rw [be32At, h0, h1, h2, h3]; exact be32_byteOf v

/-- A tag is read back. -/
theorem quadAt_eq {d : List Byte} {k : Nat} {q : Quad} (h : ∀ j, j < 4 → byteAt d (k + j) = byteAt q.bytes j) :
    quadAt d k = q := by
  have h0 := h 0 (by omega); have h1 := h 1 (by omega); have h2 := h 2 (by omega); have h3 := h 3 (by omega)
  simp only [Nat.add_zero] at h0
  simp_all [quadAt, Quad.bytes, byteAt]

/-- Where no two fields overlap, the bytes of a field are its own. -/
theorem layoutByte_mem {fields : List (Nat × List Byte)}
    (hd : fields.Pairwise fun p q => p.1 + 4 ≤ q.1 ∨ q.1 + 4 ≤ p.1) {k : Nat} {bs : List Byte}
    (hm : (k, bs) ∈ fields) {j : Nat} (hj : j < 4) : layoutByte fields (k + j) = byteAt bs j := by
  induction fields with
  | nil => cases hm
  | cons q qs ih =>
    rw [List.pairwise_cons] at hd
    rcases List.mem_cons.1 hm with rfl | hm
    · have : inField k (k + j) = true := inField_iff.2 (by omega)
      simp [layoutByte, this]
    · have hq := hd.1 _ hm
      have : inField q.1 (k + j) = false := by
        rw [← Bool.not_eq_true, inField_iff]; simp only at hq; omega
      have := ih hd.2 hm
      simp_all [layoutByte]

/-- A byte that no field has is 0. -/
theorem layoutByte_none {fields : List (Nat × List Byte)} {i : Nat}
    (h : ∀ p ∈ fields, inField p.1 i = false) : layoutByte fields i = 0 := by
  have : fields.find? (fun p => inField p.1 i) = none := by simpa [List.find?_eq_none] using h
  simp [layoutByte, this]

/-- The offsets of the fields are those of `DdsConst`. -/
theorem headerFields_offsets (c : DdsConst) (w t : Half) (m : Byte) (f : Format) :
    (headerFields c w t m f).map Prod.fst = c.offsets.all := rfl

theorem byteAt_buildHeader (c : DdsConst) (w t : Half) (m : Byte) (f : Format) (i : Nat) (hi : i < 128) :
    byteAt (buildHeader c w t m f) i = layoutByte (headerFields c w t m f) i := by
  rw [buildHeader, byteAt_map_range _ _ _ hi]

/-- The bytes of a field of a built header. -/
theorem byteAt_buildHeader_mem {c : DdsConst} (hc : c.offsets.wf = true) {w t : Half} {m : Byte} {f : Format}
    {k : Nat} {bs : List Byte} (hm : (k, bs) ∈ headerFields c w t m f) (hk : k < 125) {j : Nat} (hj : j < 4) :
    byteAt (buildHeader c w t m f) (k + j) = byteAt bs j := by
  rw [byteAt_buildHeader _ _ _ _ _ _ (by omega)]
  refine layoutByte_mem ?_ hm hj
  have := of_decide_eq_true hc
  rwa [← headerFields_offsets c w t m f, List.pairwise_map] at this

/-- The words of a built header. -/
theorem fieldAt_buildHeader {c : DdsConst} (hc : c.offsets.wf = true) (w t : Half) (m : Byte) (f : Format) :
    quadAt (buildHeader c w t m f) 0 = c.magic
      ∧ fieldAt c (buildHeader c w t m f) c.offsets.size = ddsHdrsize
      ∧ fieldAt c (buildHeader c w t m f) c.offsets.flags = flagsOf c m f
      ∧ fieldAt c (buildHeader c w t m f) c.offsets.height = t.setWidth 32
      ∧ fieldAt c (buildHeader c w t m f) c.offsets.width = w.setWidth 32
      ∧ fieldAt c (buildHeader c w t m f) c.offsets.pitchOrLinearSize = pitchOrLinearSize w f
      ∧ fieldAt c (buildHeader c w t m f) c.offsets.mipMapCount = m.setWidth 32
      ∧ fieldAt c (buildHeader c w t m f) c.offsets.pfSize = c.pfSize
      ∧ fieldAt c (buildHeader c w t m f) c.offsets.pfFlags = pfFlags c f
      ∧ fieldAt c (buildHeader c w t m f) c.offsets.pfRgbBitCount = rawOnly f c.bitcountRaw
      ∧ fieldAt c (buildHeader c w t m f) c.offsets.pfRMask = rawOnly f maskR
      ∧ fieldAt c (buildHeader c w t m f) c.offsets.pfGMask = rawOnly f maskG
      ∧ fieldAt c (buildHeader c w t m f) c.offsets.pfBMask = rawOnly f maskB
      ∧ fieldAt c (buildHeader c w t m f) c.offsets.pfAMask = rawOnly f maskA
      ∧ fieldAt c (buildHeader c w t m f) c.offsets.caps = capsOf c m := by
  refine ⟨quadAt_eq fun j hj => byteAt_buildHeader_mem hc (by simp [headerFields]) (by omega) hj,
    ?_, ?_, ?_, ?_, ?_, ?_, ?_, ?_, ?_, ?_, ?_, ?_, ?_, ?_⟩
  all_goals exact fieldAt_eq fun j hj => byteAt_buildHeader_mem hc (by simp [headerFields]) (Fin.isLt _) hj

/-- The FourCC bytes of a built header. -/
theorem fourcc_buildHeader {c : DdsConst} (hc : c.offsets.wf = true) (w t : Half) (m : Byte) :
    quadAt (buildHeader c w t m .rawRgba8) c.offsets.pfFourcc = ⟨0, 0, 0, 0⟩
      ∧ quadAt (buildHeader c w t m .blockDxt1) c.offsets.pfFourcc = c.fourccDxt1
      ∧ quadAt (buildHeader c w t m .blockDxt5) c.offsets.pfFourcc = c.fourccDxt5 := by
  have h (f : Format) (j : Nat) (hj : j < 4) :
      byteAt (buildHeader c w t m f) (c.offsets.pfFourcc + j) = byteAt (pfFourccBytes c f) j :=
    byteAt_buildHeader_mem hc (by simp [headerFields]) (Fin.isLt _) hj
  exact ⟨quadAt_eq (q := ⟨0, 0, 0, 0⟩) (h _), quadAt_eq (h _), quadAt_eq (h _)⟩

/-- The bytes of a built header that lie in no field are 0 in every format. -/
theorem zero_buildHeader (c : DdsConst) (w t : Half) (m : Byte) (f : Format) (i : Nat) (hi : i < 128)
    (h : ∀ k ∈ c.offsets.all, inField k i = false) : byteAt (buildHeader c w t m f) i = 0 := by
  rw [byteAt_buildHeader _ _ _ _ _ _ hi]
  refine layoutByte_none fun p hp => h p.1 ?_
  rw [← headerFields_offsets c w t m f]
  exact List.mem_map_of_mem hp

/-- The bytes of a patched header (rule R139). -/
theorem byteAt_patchHeader (c : DdsConst) (p : List Byte) (w t : Half) (m : Byte) (f : Format) (i : Nat)
    (hi : i < 128) :
    byteAt (patchHeader c p w t m f) i
      = if patched c.offsets i then byteAt (buildHeader c w t m f) i else byteAt p i := by
  rw [patchHeader, byteAt_map_range _ _ _ hi]

/-- A byte outside the six patched words does not depend on the dimensions (law 3 of rule R147). -/
theorem byteAt_buildHeader_unpatched (c : DdsConst) (w w' t t' : Half) (m m' : Byte) (f : Format) (i : Nat)
    (hi : i < 128) (hp : patched c.offsets i = false) :
    byteAt (buildHeader c w t m f) i = byteAt (buildHeader c w' t' m' f) i := by
  simp only [patched, Bool.or_eq_false_iff] at hp
  obtain ⟨⟨⟨⟨⟨h1, h2⟩, h3⟩, h4⟩, h5⟩, h6⟩ := hp
  simp only [byteAt_buildHeader _ _ _ _ _ _ hi, layoutByte, headerFields, List.find?_cons, h1, h2, h3, h4, h5, h6]

/-- No patched word covers the magic. -/
theorem patched_magic {o : DdsOffsets} (ho : o.wf = true) {i : Nat} (hi : i < 4) : patched o i = false := by
  have h := (List.pairwise_cons.1 (of_decide_eq_true ho)).1
  simp only [List.mem_cons, List.not_mem_nil, or_false, forall_eq_or_imp, forall_eq] at h
  rw [← Bool.not_eq_true]
  simp only [patched, Bool.or_eq_true, inField_iff]
  omega

/-- Which format a value of `FMT` selects (rule R24). -/
theorem formatOfBits_cases (f : BitVec 2) :
    (f = 3 ∧ formatOfBits f = none) ∨ (f = 0 ∧ formatOfBits f = some .rawRgba8)
      ∨ (f = 1 ∧ formatOfBits f = some .blockDxt1) ∨ (f = 2 ∧ formatOfBits f = some .blockDxt5) := by
  revert f; decide

theorem formatOfBits_bits (f : Format) : formatOfBits f.bits = some f := by
  cases f <;> rfl

end Sys2Proof.Laws
end

