-- ==== Sys2Proof/Laws/Morton.lean ====
section
/-! SUPPORT. The Morton index as a sum of placed bits, and what a sequence of pixel moves does. -/

namespace Sys2Proof.Laws

open Sys2Proof.Machine

/-! ### The index (rule R162) -/

/-- What the rounds from `i` on put above the bits already placed: the loop of rule R162 without its accumulator. -/
def mortonTail (nx ny x y : Nat) : (rounds i : Nat) → Nat
  | 0, _ => 0
  | rounds + 1, i =>
    if i < nx then
      if i < ny then coordBit x i + 2 * coordBit y i + 4 * mortonTail nx ny x y rounds (i + 1)
      else coordBit x i + 2 * mortonTail nx ny x y rounds (i + 1)
    else if i < ny then coordBit y i + 2 * mortonTail nx ny x y rounds (i + 1)
    else 0

theorem coordBit_le_one (v i : Nat) : coordBit v i ≤ 1 := by
  unfold coordBit; omega

/-- Placing a bit above everything placed so far adds it. -/
theorem or_shiftLeft_eq_add {z pos : Nat} (hz : z < 2 ^ pos) (b : Nat) : z ||| (b <<< pos) = z + 2 ^ pos * b := by
  rw [Nat.lor_comm, ← Nat.shiftLeft_add_eq_or_of_lt hz, Nat.shiftLeft_eq, Nat.mul_comm, Nat.add_comm]

/-- The loop of rule R162, as a sum. -/
theorem interleaveRounds_eq (nx ny x y : Nat) (rounds i pos z : Nat) (hz : z < 2 ^ pos) :
    interleaveRounds nx ny x y rounds i pos z = z + 2 ^ pos * mortonTail nx ny x y rounds i := by
  induction rounds generalizing i pos z with
  | zero => simp [interleaveRounds, mortonTail]
  | succ n ih =>
    have hx := coordBit_le_one x i
    have hy := coordBit_le_one y i
    have e1 : 2 ^ (pos + 1) = 2 ^ pos * 2 := Nat.pow_succ ..
    have e2 : 2 ^ (pos + 2) = 2 ^ pos * 4 := by rw [Nat.pow_add]
    have bound (b : Nat) (hb : b ≤ 1) : 2 ^ pos * b ≤ 2 ^ pos := by
      simpa using Nat.mul_le_mul_left (2 ^ pos) hb
    simp only [interleaveRounds, mortonTail]
    split
    · have hz1 : z + 2 ^ pos * coordBit x i < 2 ^ (pos + 1) := by have := bound _ hx; omega
      split
      · rw [or_shiftLeft_eq_add hz, or_shiftLeft_eq_add hz1, ih]
        · rw [e2, e1]; ring
        · have := bound _ hx
          have : 2 ^ (pos + 1) * coordBit y i ≤ 2 ^ (pos + 1) := by
            simpa using Nat.mul_le_mul_left (2 ^ (pos + 1)) hy
          omega
      · rw [or_shiftLeft_eq_add hz, ih _ _ _ hz1, e1]; ring
    · split
      · rw [or_shiftLeft_eq_add hz, ih, e1]
        · ring
        · have := bound _ hy; omega
      · simp

/-- The Morton index is the sum of the placed bits. -/
theorem interleave_eq (w h x y : Nat) :
    interleave w h x y = mortonTail (nbits w) (nbits h) x y (max (nbits w) (nbits h)) 0 := by
  rw [interleave, interleaveRounds_eq _ _ _ _ _ _ _ _ (by simp)]; simp

/-- The two coordinates contribute separately (rule R164 item 2). -/
theorem mortonTail_add (nx ny x y rounds i : Nat) :
    mortonTail nx ny x y rounds i = mortonTail nx ny x 0 rounds i + mortonTail nx ny 0 y rounds i := by
  induction rounds generalizing i with
  | zero => rfl
  | succ n ih =>
    have h0 : coordBit 0 i = 0 := by simp [coordBit]
    simp only [mortonTail, h0]
    rw [ih (i + 1)]
    split
    · split <;> omega
    · split <;> omega

/-! ### Pixel moves -/

@[simp] theorem length_permute (p : List Nat) (px : List Byte) : (permute p px).length = p.length := by
  simp [permute]

/-- Byte `k` of a permuted pixel is input byte `p_k` (rule R176). -/
theorem byteAt_permute (p : List Nat) (px : List Byte) (k : Nat) (h : k < p.length) :
    byteAt (permute p px) k = byteAt px p[k] := by
  simp [permute, byteAt, h]

theorem mem_pixels {w h x y : Nat} : (x, y) ∈ pixels w h ↔ x < w ∧ y < h := by
  simp [pixels, and_comm]

/-- One pixel move inside `MEM`. -/
theorem movePixels_cons {p : List Nat} {a d : Nat} {moves : List (Nat × Nat)} {s t : State}
    (h : movePixels p ((a, d) :: moves) s = .ok t) :
    a + 4 ≤ s.cfg.memSize ∧ d + p.length ≤ s.cfg.memSize
      ∧ movePixels p moves { s with mem := insertBytes s.mem d (permute p (s.bytes a 4)) } = .ok t := by
  rcases memRead_cases s a bpp with ⟨ha, hr⟩ | ⟨_, hr⟩
  · simp only [movePixels, hr] at h
    split at h
    · cases h
    · next s' hw =>
      obtain ⟨hd, rfl⟩ := memWrite_ok hw
      exact ⟨ha, by simpa using hd, h⟩
  · simp [movePixels, hr] at h

/-- All that a sequence of pixel moves that went through can have done: it changed `MEM` alone, inside its size, kept
the canonical form, and left every byte at no destination as it was. -/
theorem movePixels_frame {p : List Nat} {moves : List (Nat × Nat)} {s t : State}
    (h : movePixels p moves s = .ok t) :
    t = { s with mem := t.mem }
      ∧ (Memory.wf s.mem = true → Memory.wf t.mem = true)
      ∧ (∀ c ∈ t.mem, c ∈ s.mem ∨ c.1 < s.cfg.memSize)
      ∧ ∀ k, (∀ q ∈ moves, k < q.2 ∨ q.2 + p.length ≤ k) → t.byte k = s.byte k := by
  induction moves generalizing s with
  | nil => cases h; exact ⟨rfl, id, fun c hc => .inl hc, fun _ _ => rfl⟩
  | cons q moves ih =>
    obtain ⟨a, d⟩ := q
    obtain ⟨_, hd, h⟩ := movePixels_cons h
    obtain ⟨h1, h2, h3, h4⟩ := ih h
    refine ⟨h1, fun hw => h2 (wf_insertBytes _ hw _), fun c hc => ?_, fun k hk => ?_⟩
    · rcases h3 c hc with h | h
      · rcases mem_insertBytes _ h with h | ⟨_, h⟩
        · exact .inl h
        · right; simp only [length_permute] at h; omega
      · exact .inr h
    · rw [h4 k fun q hq => hk q (List.mem_cons_of_mem _ hq), byte_insertBytes, if_neg]
      have := hk (a, d) List.mem_cons_self
      simp only [length_permute]; omega

/-- Moves whose addresses lie in `MEM`, whose sources meet no destination and whose destinations are apart from each
other go through, and each destination then holds the permuted pixel that its source held before (rules R166, R171
item 6). -/
theorem movePixels_spec {p : List Nat} (hp : p.length = 4) (moves : List (Nat × Nat)) (s : State)
    (hin : ∀ q ∈ moves, q.1 + 4 ≤ s.cfg.memSize ∧ q.2 + 4 ≤ s.cfg.memSize)
    (hsd : ∀ q ∈ moves, ∀ r ∈ moves, q.1 + 4 ≤ r.2 ∨ r.2 + 4 ≤ q.1)
    (hdd : moves.Pairwise fun q r => q.2 + 4 ≤ r.2 ∨ r.2 + 4 ≤ q.2) :
    ∃ t, movePixels p moves s = .ok t
      ∧ ∀ q ∈ moves, ∀ k, k < 4 → t.byte (q.2 + k) = byteAt (permute p (s.bytes q.1 4)) k := by
  induction moves generalizing s with
  | nil => exact ⟨s, rfl, by simp⟩
  | cons q moves ih =>
    obtain ⟨a, d⟩ := q
    obtain ⟨ha, hd⟩ := hin (a, d) List.mem_cons_self
    obtain ⟨hd1, hd2⟩ := List.pairwise_cons.1 hdd
    let s' : State := { s with mem := insertBytes s.mem d (permute p (s.bytes a 4)) }
    have hs' : ∀ k, s'.byte k = if d ≤ k ∧ k < d + 4 then byteAt (permute p (s.bytes a 4)) (k - d) else s.byte k := by
      intro k; show (State.byte _ k) = _; rw [byte_insertBytes, length_permute, hp]
    obtain ⟨t, ht, hb⟩ := ih s' (fun q hq => hin q (List.mem_cons_of_mem _ hq))
      (fun q hq r hr => hsd q (List.mem_cons_of_mem _ hq) r (List.mem_cons_of_mem _ hr)) hd2
    refine ⟨t, ?_, ?_⟩
    · simp only [movePixels, memRead_eq_ok ha]
      rw [memWrite_eq_ok (by simpa [hp] using hd)]
      exact ht
    · intro q hq k hk
      rcases List.mem_cons.1 hq with rfl | hq
      · rw [(movePixels_frame ht).2.2.2 (d + k) fun r hr => ?_]
        · rw [hs', if_pos (by omega), Nat.add_sub_cancel_left]
        · have := hd1 r hr; rw [hp]; simp only at this; omega
      · rw [hb q hq k hk]
        congr 2
        simp only [State.bytes, List.map_inj_left, List.mem_range]
        intro j hj
        rw [hs', if_neg]
        have := hsd q (List.mem_cons_of_mem _ hq) (a, d) List.mem_cons_self
        simp only at this; omega

/-! ### The pixel commands -/

/-- All a pixel command can do: one of its five faults, or the moves (rules R170, R175). -/
theorem pixelCommand_cases (ls ld : Nat) (p : List Nat) (moves : List (Nat × Nat)) (s : State) :
    (∃ k info, (k = .rangeError ∧ info ∈ [0, 1, 2, 3] ∨ k = .overlapError ∧ info = 0)
        ∧ pixelCommand ls ld p moves s = .next (enterFault k info s))
      ∨ (valid s s.src s.srclen ∧ valid s s.dst s.dstlen ∧ ls ≤ s.srclen.toNat ∧ ld ≤ s.dstlen.toNat
          ∧ ¬ overlap s.src.toNat ls s.dst.toNat ld
          ∧ pixelCommand ls ld p moves s = completeWrite (movePixels p moves s)) := by
  unfold pixelCommand
  split
  · exact .inl ⟨_, _, .inl ⟨rfl, by decide⟩, rfl⟩
  · split
    · exact .inl ⟨_, _, .inl ⟨rfl, by decide⟩, rfl⟩
    · split
      · exact .inl ⟨_, _, .inl ⟨rfl, by decide⟩, rfl⟩
      · split
        · exact .inl ⟨_, _, .inl ⟨rfl, by decide⟩, rfl⟩
        · split
          · exact .inl ⟨_, _, .inr ⟨rfl, rfl⟩, rfl⟩
          · exact .inr ⟨not_not.1 ‹_›, not_not.1 ‹_›, by omega, by omega, ‹_›, rfl⟩

end Sys2Proof.Laws
end

