-- ==== Sys2Proof/Laws/Commands.lean ====
section
/-! SUPPORT. What each non-pixel command can do, said once per command, and how a step unfolds for each agent. -/

namespace Sys2Proof.Laws

open Sys2Proof.Machine

/-! ### One inversion lemma per command -/

/-- All `HDRPARSE` can do. -/
theorem execHdrparse_cases (s : State) :
    (¬ valid s s.src s.srclen ∧ execHdrparse s = .next (enterFault .rangeError 0 s))
      ∨ (valid s s.src s.srclen ∧ s.srclen.toNat < 132
          ∧ execHdrparse s = .next (enterFault .truncatedHeader s.srclen s))
      ∨ (valid s s.src s.srclen ∧ 132 ≤ s.srclen.toNat
          ∧ execHdrparse s = .next { s with
              status := s.status.completed
              width := getWidth (s.bytes s.src.toNat 132), height := getHeight (s.bytes s.src.toNat 132)
              mips := getMips (s.bytes s.src.toNat 132), pdlen := getPdlen (s.bytes s.src.toNat 132) }) := by
  unfold execHdrparse hdrLen
  split
  · exact .inl ⟨‹_›, rfl⟩
  · have hv : valid s s.src s.srclen := not_not.1 ‹_›
    split
    · exact .inr (.inl ⟨hv, ‹_›, rfl⟩)
    · rw [memRead_eq_ok (by unfold valid at hv; omega)]
      exact .inr (.inr ⟨hv, by omega, rfl⟩)

/-- All `HDRUPD` can do: a fault, or the updated header written at `DST`. -/
theorem execHdrupd_cases (s : State) :
    (¬ valid s s.src s.srclen ∧ execHdrupd s = .next (enterFault .rangeError 0 s))
      ∨ (valid s s.src s.srclen ∧ ¬ valid s s.dst s.dstlen ∧ execHdrupd s = .next (enterFault .rangeError 1 s))
      ∨ (valid s s.src s.srclen ∧ valid s s.dst s.dstlen ∧ s.srclen.toNat < 132
          ∧ execHdrupd s = .next (enterFault .truncatedHeader s.srclen s))
      ∨ (valid s s.src s.srclen ∧ valid s s.dst s.dstlen ∧ 132 ≤ s.srclen.toNat ∧ s.dstlen.toNat < 132
          ∧ execHdrupd s = .next (enterFault .rangeError 3 s))
      ∨ (valid s s.src s.srclen ∧ valid s s.dst s.dstlen ∧ 132 ≤ s.srclen.toNat ∧ 132 ≤ s.dstlen.toNat
          ∧ execHdrupd s = .next { s with
              status := s.status.completed
              mem := insertBytes s.mem s.dst.toNat
                (withUpdated (s.bytes s.src.toNat 132) s.width s.height s.mips s.pdlen) }) := by
  unfold execHdrupd hdrLen
  split
  · exact .inl ⟨‹_›, rfl⟩
  · have hv : valid s s.src s.srclen := not_not.1 ‹_›
    refine .inr ?_
    split
    · exact .inl ⟨hv, ‹_›, rfl⟩
    · have hd : valid s s.dst s.dstlen := not_not.1 ‹_›
      refine .inr ?_
      split
      · exact .inl ⟨hv, hd, ‹_›, rfl⟩
      · refine .inr ?_
        split
        · exact .inl ⟨hv, hd, by omega, ‹_›, rfl⟩
        · refine .inr ⟨hv, hd, by omega, by omega, ?_⟩
          unfold valid at hv hd
          rw [memRead_eq_ok (by omega)]
          simp only []
          rw [memWrite_eq_ok (by rw [length_withUpdated]; omega), completeWrite_ok, complete_next]

/-- All `DDSBUILD` can do: a fault, or the built header written at `DST`. -/
theorem execDdsbuild_cases (s : State) :
    (¬ valid s s.dst s.dstlen ∧ execDdsbuild s = .next (enterFault .rangeError 1 s))
      ∨ (valid s s.dst s.dstlen ∧ s.dstlen.toNat < 128 ∧ execDdsbuild s = .next (enterFault .rangeError 3 s))
      ∨ (valid s s.dst s.dstlen ∧ 128 ≤ s.dstlen.toNat ∧ formatOfBits s.fmt = none
          ∧ execDdsbuild s = .next (enterFault .unsupportedFormat 3 s))
      ∨ ∃ f, valid s s.dst s.dstlen ∧ 128 ≤ s.dstlen.toNat ∧ formatOfBits s.fmt = some f
          ∧ execDdsbuild s = .next { s with
              status := s.status.completed
              mem := insertBytes s.mem s.dst.toNat (buildHeader s.cfg.dds s.width s.height s.mips f) } := by
  unfold execDdsbuild ddsLen
  split
  · exact .inl ⟨‹_›, rfl⟩
  · have hd : valid s s.dst s.dstlen := not_not.1 ‹_›
    refine .inr ?_
    split
    · exact .inl ⟨hd, ‹_›, rfl⟩
    · refine .inr ?_
      split
      · exact .inl ⟨hd, by omega, ‹_›, rfl⟩
      · next f hf =>
        refine .inr ⟨f, hd, by omega, hf, ?_⟩
        unfold valid at hd
        rw [memWrite_eq_ok (by rw [length_buildHeader]; omega), completeWrite_ok, complete_next]

/-- All `DDSPATCH` can do: a fault, or the patched header written at `DST`. -/
theorem execDdspatch_cases (s : State) :
    (∃ k info, execDdspatch s = .next (enterFault k info s)
        ∧ ((¬ valid s s.src s.srclen ∧ k = .rangeError ∧ info = 0)
          ∨ (valid s s.src s.srclen ∧ ¬ valid s s.dst s.dstlen ∧ k = .rangeError ∧ info = 1)
          ∨ (valid s s.src s.srclen ∧ valid s s.dst s.dstlen
              ∧ ((s.srclen = 0 ∧ k = .configurationError ∧ info = 0)
                ∨ (s.srclen ≠ 0 ∧ s.srclen.toNat < 128 ∧ k = .truncatedHeader ∧ info = s.srclen)
                ∨ (128 ≤ s.srclen.toNat ∧ s.dstlen.toNat < 128 ∧ k = .rangeError ∧ info = 3)
                ∨ (128 ≤ s.srclen.toNat ∧ 128 ≤ s.dstlen.toNat ∧ formatOfBits s.fmt = none
                    ∧ k = .unsupportedFormat ∧ info = 3)
                ∨ (128 ≤ s.srclen.toNat ∧ 128 ≤ s.dstlen.toNat ∧ (formatOfBits s.fmt).isSome = true
                    ∧ quadAt (s.bytes s.src.toNat 128) 0 ≠ s.cfg.dds.magic
                    ∧ k = .badMagic ∧ info = le32At (s.bytes s.src.toNat 128) 0)))))
      ∨ ∃ f, valid s s.src s.srclen ∧ valid s s.dst s.dstlen ∧ 128 ≤ s.srclen.toNat ∧ 128 ≤ s.dstlen.toNat
          ∧ formatOfBits s.fmt = some f ∧ quadAt (s.bytes s.src.toNat 128) 0 = s.cfg.dds.magic
          ∧ execDdspatch s = .next { s with
              status := s.status.completed
              mem := insertBytes s.mem s.dst.toNat
                (patchHeader s.cfg.dds (s.bytes s.src.toNat 128) s.width s.height s.mips f) } := by
  unfold execDdspatch ddsLen
  by_cases hv : valid s s.src s.srclen
  · rw [if_neg (not_not.2 hv)]
    by_cases hd : valid s s.dst s.dstlen
    · rw [if_neg (not_not.2 hd)]
      by_cases h0 : s.srclen = 0
      · rw [if_pos h0]
        exact .inl ⟨_, _, rfl, .inr (.inr ⟨hv, hd, .inl ⟨h0, rfl, rfl⟩⟩)⟩
      · rw [if_neg h0]
        by_cases h1 : s.srclen.toNat < 128
        · rw [if_pos h1]
          exact .inl ⟨_, _, rfl, .inr (.inr ⟨hv, hd, .inr (.inl ⟨h0, h1, rfl, rfl⟩)⟩)⟩
        · rw [if_neg h1]
          by_cases h2 : s.dstlen.toNat < 128
          · rw [if_pos h2]
            exact .inl ⟨_, _, rfl, .inr (.inr ⟨hv, hd, .inr (.inr (.inl ⟨by omega, h2, rfl, rfl⟩))⟩)⟩
          · rw [if_neg h2]
            have hr : memRead s s.src.toNat 128 = .ok (s.bytes s.src.toNat 128) :=
              memRead_eq_ok (by unfold valid at hv; omega)
            cases hf : formatOfBits s.fmt with
            | none =>
              exact .inl ⟨_, _, rfl, .inr (.inr ⟨hv, hd, .inr (.inr (.inr (.inl
                ⟨by omega, by omega, rfl, rfl, rfl⟩)))⟩)⟩
            | some f =>
              simp only [hr]
              by_cases hm : quadAt (s.bytes s.src.toNat 128) 0 = s.cfg.dds.magic
              · rw [if_neg (not_not.2 hm)]
                refine .inr ⟨f, hv, hd, by omega, by omega, rfl, hm, ?_⟩
                unfold valid at hd
                rw [memWrite_eq_ok (by rw [length_patchHeader]; omega), completeWrite_ok, complete_next]
              · rw [if_pos hm]
                exact .inl ⟨_, _, rfl, .inr (.inr ⟨hv, hd, .inr (.inr (.inr (.inr
                  ⟨by omega, by omega, rfl, hm, rfl, rfl⟩)))⟩)⟩
    · rw [if_pos hd]
      exact .inl ⟨_, _, rfl, .inr (.inl ⟨hv, hd, rfl, rfl⟩)⟩
  · rw [if_pos hv]
    exact .inl ⟨_, _, rfl, .inl ⟨hv, rfl, rfl⟩⟩

/-- The fault that `DDSPARSE` takes on the contents of a header, if any (rules R143, R145). -/
def ddsparseFault (c : DdsConst) (d : List Byte) : Option (FaultKind × Word) :=
  if quadAt d 0 ≠ c.magic then some (.badMagic, le32At d 0)
  else if (fieldAt c d c.offsets.height).toNat > 0xFFFF then some (.unsupportedFormat, offsetInfo c.offsets.height)
  else if (fieldAt c d c.offsets.width).toNat > 0xFFFF then some (.unsupportedFormat, offsetInfo c.offsets.width)
  else if (fieldAt c d c.offsets.mipMapCount).toNat > 0xFF then
    some (.unsupportedFormat, offsetInfo c.offsets.mipMapCount)
  else match formatOf c d with
    | .unsupported k => some (.unsupportedFormat, k)
    | .ok _ => none

/-- All `DDSPARSE` can do. -/
theorem execDdsparse_cases (s : State) :
    (¬ valid s s.src s.srclen ∧ execDdsparse s = .next (enterFault .rangeError 0 s))
      ∨ (valid s s.src s.srclen ∧ s.srclen.toNat < 128
          ∧ execDdsparse s = .next (enterFault .truncatedHeader s.srclen s))
      ∨ (∃ k info, valid s s.src s.srclen ∧ 128 ≤ s.srclen.toNat
          ∧ ddsparseFault s.cfg.dds (s.bytes s.src.toNat 128) = some (k, info)
          ∧ execDdsparse s = .next (enterFault k info s))
      ∨ ∃ f, valid s s.src s.srclen ∧ 128 ≤ s.srclen.toNat
          ∧ ddsparseFault s.cfg.dds (s.bytes s.src.toNat 128) = none
          ∧ formatOf s.cfg.dds (s.bytes s.src.toNat 128) = .ok f
          ∧ execDdsparse s = .next { s with
              status := s.status.completed
              width := (fieldAt s.cfg.dds (s.bytes s.src.toNat 128) s.cfg.dds.offsets.width).setWidth 16
              height := (fieldAt s.cfg.dds (s.bytes s.src.toNat 128) s.cfg.dds.offsets.height).setWidth 16
              mips := (fieldAt s.cfg.dds (s.bytes s.src.toNat 128) s.cfg.dds.offsets.mipMapCount).setWidth 8
              fmt := f.bits } := by
  unfold execDdsparse ddsLen
  by_cases hv : valid s s.src s.srclen
  · rw [if_neg (not_not.2 hv)]
    by_cases h1 : s.srclen.toNat < 128
    · rw [if_pos h1]; exact .inr (.inl ⟨hv, h1, rfl⟩)
    · rw [if_neg h1]
      have hr : memRead s s.src.toNat 128 = .ok (s.bytes s.src.toNat 128) :=
        memRead_eq_ok (by unfold valid at hv; omega)
      simp only [hr, ddsparseFault]
      refine .inr (.inr ?_)
      split
      · exact .inl ⟨_, _, hv, by omega, rfl, rfl⟩
      · split
        · exact .inl ⟨_, _, hv, by omega, rfl, rfl⟩
        · split
          · exact .inl ⟨_, _, hv, by omega, rfl, rfl⟩
          · split
            · exact .inl ⟨_, _, hv, by omega, rfl, rfl⟩
            · cases hf : formatOf s.cfg.dds (s.bytes s.src.toNat 128) with
              | unsupported k => exact .inl ⟨_, _, hv, by omega, rfl, rfl⟩
              | ok f => exact .inr ⟨f, hv, by omega, rfl, rfl, rfl⟩
  · rw [if_pos hv]; exact .inl ⟨hv, rfl⟩

/-! ### How a step unfolds -/

/-- The block moves when a command is in flight, the reset is released, and the host has nothing to do or is not
scheduled. -/
theorem nextAgent_block {s : State} (hb : s.status.busy = true) (hr : s.resetN = true)
    (h : s.host.script = [] ∨ s.turns.head? ≠ some .host) : s.nextAgent = .block := by
  unfold State.nextAgent
  split
  · next hc =>
    rcases h with h | h
    · simp [State.contended, h] at hc
    · cases ht : s.turns with
      | nil => rfl
      | cons a l => cases a <;> simp_all
  · simp [State.blockEnabled, hb, hr]

/-- The host moves when no command is in flight. -/
theorem nextAgent_idle {s : State} (hb : s.status.busy = false) : s.nextAgent = .host ∧ s.takeTurn = s := by
  simp [State.nextAgent, State.takeTurn, State.contended, State.blockEnabled, hb]

/-- The host moves while the block is held in reset. -/
theorem nextAgent_reset {s : State} (hr : s.resetN = false) : s.nextAgent = .host ∧ s.takeTurn = s := by
  simp [State.nextAgent, State.takeTurn, State.contended, State.blockEnabled, hr]

/-- The block's step is the completion step. -/
theorem step_block {s : State} (h : s.nextAgent = .block) : step s = completionStep s.takeTurn := by
  simp [step, h]

/-- The host's step is its next transaction. -/
theorem step_host {s : State} (h : s.nextAgent = .host) : step s = hostStep s.takeTurn := by
  simp [step, h]

/-- All the host's step can do: nothing left, a refusal, or the effect of its transaction. -/
theorem hostStep_cases (s : State) :
    (s.host.script = [] ∧ hostStep s = .next s)
      ∨ ∃ x rest, s.host.script = x :: rest
        ∧ ((∃ r, refusalOf s x = some r ∧ hostStep s = .refused r)
          ∨ (refusalOf s x = none ∧ s.resetN = true ∧ hostStep s = .next (transaction x (s.withScript rest)))
          ∨ (refusalOf s x = none ∧ s.resetN = false
            ∧ hostStep s = .next (transactionInReset x (s.withScript rest)))) := by
  unfold hostStep
  cases hs : s.host.script with
  | nil => exact .inl ⟨rfl, rfl⟩
  | cons x rest =>
    refine .inr ⟨x, rest, rfl, ?_⟩
    cases hr : refusalOf s x with
    | some r => exact .inl ⟨r, rfl, by simp [hr]⟩
    | none => cases hn : s.resetN <;> simp [hr]

/-- When a host access to `MEM` is refused, and under which name. -/
theorem memRefusal_cases (s : State) (a : Nat) :
    (s.status.busy = true ∧ memRefusal s a = some (.memWhileBusy a))
      ∨ (s.status.busy = false ∧ s.awaitsStatusRead ∧ memRefusal s a = some (.memBeforeStatusRead a))
      ∨ (s.status.busy = false ∧ ¬ s.awaitsStatusRead ∧ s.cfg.memSize ≤ a
        ∧ memRefusal s a = some (.hostOutsideMem a))
      ∨ (s.status.busy = false ∧ ¬ s.awaitsStatusRead ∧ a < s.cfg.memSize ∧ memRefusal s a = none) := by
  unfold memRefusal
  cases s.status.busy
  · by_cases hw : s.awaitsStatusRead
    · exact .inr (.inl ⟨rfl, hw, by simp [hw.1, hw.2]⟩)
    · rcases Nat.lt_or_ge a s.cfg.memSize with h | h
      · simp [hw, h]
      · simp [hw, h, Nat.not_lt.2 h]
  · simp

/-- The completion step of a word that decodes is its command. -/
theorem completionStep_some {s : State} {i : Instr} (h : decode s.pending = some i) :
    completionStep s = exec i s := by
  simp [completionStep, h]

/-- The completion step of an illegal word is the fault `IllegalCommand`. -/
theorem completionStep_none {s : State} (h : decode s.pending = none) :
    completionStep s = .next (enterFault .illegalCommand s.pending s) := by
  simp [completionStep, h]

end Sys2Proof.Laws
end

