-- ==== Sys2Proof/Laws/PerInstr.lean ====
section
/-! SUPPORT. Facts about every command as syntax, one lemma per constructor. -/

namespace Sys2Proof.Laws.TableRow

/-- The command's word is the `match` column of its row of the opcode table, and its fields are legal (rules R92 to
R94). -/
def Statement (i : Instr) : Prop :=
  i.fields.wf = true ∧ ∃ r ∈ opcodeTable, r.instr = i ∧ r.pattern = encode i

theorem nop : Statement .nop := by unfold Statement; decide

theorem hdrparse : Statement .hdrparse := by unfold Statement; decide

theorem hdrupd : Statement .hdrupd := by unfold Statement; decide

theorem ddsbuild : Statement .ddsbuild := by unfold Statement; decide

theorem ddspatch : Statement .ddspatch := by unfold Statement; decide

theorem ddsparse : Statement .ddsparse := by unfold Statement; decide

theorem detile : Statement .detile := by unfold Statement; decide

theorem detileP : Statement .detileP := by unfold Statement; decide

theorem tile : Statement .tile := by unfold Statement; decide

theorem clrerr : Statement .clrerr := by unfold Statement; decide

end Sys2Proof.Laws.TableRow
end

