-- ==== Sys2Proof/Tests/Slice0.lean ====
section
/-! SUPPORT. Tests. Expected results are the spec's own: the vectors of 95_test_vectors.md (V-..) and the worked
examples of the rules; each test names its source. -/

namespace Sys2Proof.Tests

open Sys2Proof.Machine Sys2Proof.Claims

-- One theorem after another: the kernel evaluations below would otherwise each hold a thread.
set_option Elab.async false

/-! ### Helpers -/

/-- The bytes as cells from address `a` upward. -/
def cellsAt (a : Nat) (bs : List Byte) : List Host.Cell := bs.mapIdx fun k b => (a + k, b)

/-- Reset with the given cells in `MEM`, and a command in flight. -/
def busyWith (cells : List Host.Cell) : State :=
  { State.reset with mem := cells, status := { Status.reset with busy := true } }

/-- A view of the next state; `none` where there is none. -/
def view {α : Type} (r : Result) (f : State → α) : Option α :=
  match r with
  | .next t => some (f t)
  | .fault _ => none
  | .refused _ => none

/-- The refusal that a step ended in; `none` where it did not. -/
def refusal (r : Result) : Option Refusal :=
  match r with
  | .next _ => none
  | .fault _ => none
  | .refused e => some e

/-- The flags, the code and `ERRINFO` after a command. -/
def report (t : State) : Bool × Bool × Bool × BitVec 4 × Word :=
  (t.status.busy, t.status.done, t.status.err, t.status.errcode, t.errinfo)

/-- The host holds one transaction. -/
def hosting (t : HostTxn) (s : State) : State := { s with host := ⟨[t], [], false, false⟩ }

/-! ### Decoding: each command's word, bit by bit from rules R90 and R93 -/

theorem test_word_nop : decode 0b00000000000000000000000000000000#32 = some .nop := by decide
theorem test_word_hdrparse : decode 0b00000000000000000000000000000001#32 = some .hdrparse := by decide
theorem test_word_hdrupd : decode 0b00000000000000000000000000000010#32 = some .hdrupd := by decide
theorem test_word_ddsbuild : decode 0b00000000000000000000000000000011#32 = some .ddsbuild := by decide
theorem test_word_ddspatch : decode 0b00000000000000000000000000000100#32 = some .ddspatch := by decide
theorem test_word_ddsparse : decode 0b00000000000000000000000000000101#32 = some .ddsparse := by decide
theorem test_word_detile : decode 0b00000000000000000000000000000110#32 = some .detile := by decide
theorem test_word_detileP : decode 0b00000000000000000000000100000110#32 = some .detileP := by decide
theorem test_word_tile : decode 0b00000000000000000000000000000111#32 = some .tile := by decide
theorem test_word_clrerr : decode 0b00000000000000000000000000001000#32 = some .clrerr := by decide

/-- V-C2: the illegal words of the table. -/
theorem test_illegal_words :
    [0x00000009#32, 0x00000107#32, 0x00000200#32, 0xFFFFFFFF#32, 0x80000006#32, 0x00000108#32].map decode
      = List.replicate 6 none := by decide

theorem test_decodeTableWord : decodeTableWord 32 0x106 = some .detileP ∧ decodeTableWord 32 (2 ^ 32) = none := by
  decide

theorem test_table_rows_disjoint :
    opcodeTable.Pairwise fun r q => r.pattern &&& q.mask ≠ q.pattern := by decide

/-! ### WellFormed refuses an ill-formed term of each kind -/

theorem test_wf_rsv : (CommandFields.mk 0x06 false 1).wf = false := by decide
theorem test_wf_p : (CommandFields.mk 0x07 true 0).wf = false := by decide
theorem test_wf_opc : (CommandFields.mk 0x09 false 0).wf = false := by decide
theorem test_wf_fields : (CommandFields.mk 0x06 true 0).wf = true := by decide
theorem test_wf_params : Config.default.wf = true := by decide
theorem test_wf_memSize_zero : { Config.default with memSize := 0 }.wf = false := by decide
theorem test_wf_memSize_over : { Config.default with memSize := 2 ^ 32 + 1 }.wf = false := by decide
theorem test_wf_regBase : { Config.default with regBase := 4 }.wf = false := by decide
theorem test_wf_flags_distinct : { DdsConst.default with fHeight := 1 }.wf = false := by decide
theorem test_wf_caps_single : { DdsConst.default with cMipmap := 3 }.wf = false := by decide
theorem test_wf_pf_distinct : { DdsConst.default with pfRgb := 4 }.wf = false := by decide
theorem test_wf_fourcc :
    { DdsConst.default with fourccDxt5 := DdsConst.default.fourccDxt1 }.wf = false := by decide
theorem test_wf_offsets_overlap :
    { DdsConst.default with offsets := { DdsOffsets.default with caps := 105 } }.wf = false := by decide
theorem test_wf_offsets_on_magic :
    { DdsConst.default with offsets := { DdsOffsets.default with size := 3 } }.wf = false := by decide
theorem test_wf_reg_unaligned : (HostTxn.regRead .word 2).wf Config.default = false := by decide
theorem test_wf_reg_size : (HostTxn.regWrite .half 4 0).wf Config.default = false := by decide
theorem test_wf_reg_outside : (HostTxn.regRead .word 0x100).wf Config.default = false := by decide
theorem test_wf_mem_write : (HostTxn.memWrite 65536 0).wf Config.default = false := by decide
theorem test_wf_mem_read : (HostTxn.memRead 65536).wf Config.default = false := by decide

/-! ### System commands (V-C1, rule R191) -/

theorem test_nop_status : view (step (State.reset.withFetchWord 32 0)) (·.status.word) = some 0x00000002 := by decide

theorem test_clrerr_status :
    view (exec .clrerr
      { State.reset with status := ⟨true, false, true, 2, 0x08⟩, errinfo := 0x7F })
      (fun t => (t.status.word, t.errinfo)) = some (0x00080002, 0) := by decide

/-! ### CTXR header (V-H1, V-H2, V-H4, V-H6) -/

/-- The header whose byte `i` has value `i`, at 0x100. Only the bytes the tests look at are listed; the others are the
unknown launch content. -/
def countingHeader : List Host.Cell :=
  [(0x107, 0x07), (0x108, 0x08), (0x109, 0x09), (0x10A, 0x0A), (0x10B, 0x0B), (0x10C, 0x0C), (0x125, 0x25),
    (0x126, 0x26), (0x127, 0x27), (0x17F, 0x7F), (0x180, 0x80), (0x181, 0x81), (0x182, 0x82), (0x183, 0x83)]

theorem test_hdrparse_fields :
    view (exec .hdrparse { busyWith countingHeader with src := 0x100, srclen := 132 })
      (fun t => (t.width, t.height, t.mips, t.pdlen)) = some (0x0809, 0x0A0B, 0x26, 0x80818283) := by
  decide +kernel

theorem test_hdrparse_truncated :
    view (exec .hdrparse { busyWith countingHeader with src := 0x100, srclen := 131 })
      (fun t => (report t, t.width)) = some ((false, false, true, 2, 0x83), 0) := by decide +kernel

theorem test_hdrupd_fields :
    view (exec .hdrupd { busyWith countingHeader with
        src := 0x100, srclen := 132, dst := 0x200, dstlen := 132,
        width := 0x0100, height := 0x0080, mips := 4, pdlen := 0x00020000 })
      (fun t => (t.bytes 0x207 6, t.bytes 0x225 3, t.bytes 0x27F 5))
      = some ([0x07, 0x01, 0x00, 0x00, 0x80, 0x0C], [0x25, 0x04, 0x27], [0x7F, 0x00, 0x02, 0x00, 0x00]) := by
  decide +kernel

theorem test_hdrupd_faults_in_order :
    view (exec .hdrupd { busyWith countingHeader with src := 0x100, srclen := 131, dst := 0x200, dstlen := 10 })
      report = some (false, false, true, 2, 131) := by decide +kernel

/-! ### Target-container header (V-D1, V-D5, V-D6, V-D9, V-D10) -/

/-- The 128 bytes of V-D1. -/
def vd1 : List Byte :=
  [0x44, 0x44, 0x53, 0x20, 0x7C, 0x00, 0x00, 0x00, 0x07, 0x10, 0x08, 0x00, 0x00, 0x01, 0x00, 0x00,
    0x00, 0x01, 0x00, 0x00, 0x00, 0x04, 0x00, 0x00, 0x00, 0x00, 0x00, 0x00, 0x01, 0x00, 0x00, 0x00]
  ++ List.replicate 44 0
  ++ [0x20, 0x00, 0x00, 0x00, 0x04, 0x00, 0x00, 0x00, 0x44, 0x58, 0x54, 0x35]
  ++ List.replicate 20 0
  ++ [0x00, 0x10, 0x00, 0x00]
  ++ List.replicate 16 0

theorem test_ddsbuild_bytes :
    view (exec .ddsbuild { busyWith [] with
        dst := 0x800, dstlen := 128, width := 256, height := 256, mips := 1, fmt := 2 })
      (·.bytes 0x800 128) = some vd1 := by decide +kernel

/-- V-D2: the raw format, with mip levels. -/
theorem test_build_raw :
    let d := buildHeader DdsConst.default 64 32 4 .rawRgba8
    (d.take 32, (d.drop 76).take 36)
      = ([0x44, 0x44, 0x53, 0x20, 0x7C, 0x00, 0x00, 0x00, 0x07, 0x10, 0x02, 0x00, 0x20, 0x00, 0x00, 0x00,
          0x40, 0x00, 0x00, 0x00, 0x00, 0x01, 0x00, 0x00, 0x00, 0x00, 0x00, 0x00, 0x04, 0x00, 0x00, 0x00],
        [0x20, 0x00, 0x00, 0x00, 0x41, 0x00, 0x00, 0x00, 0x00, 0x00, 0x00, 0x00, 0x20, 0x00, 0x00, 0x00,
          0xFF, 0x00, 0x00, 0x00, 0x00, 0xFF, 0x00, 0x00, 0x00, 0x00, 0xFF, 0x00, 0x00, 0x00, 0x00, 0xFF,
          0x08, 0x10, 0x40, 0x00]) := by decide +kernel

theorem test_ddsbuild_window_before_format :
    view (exec .ddsbuild { busyWith [] with dst := 0, dstlen := 127, fmt := 3 }) report
      = some (false, false, true, 9, 3) := by decide +kernel

/-- V-D6; of the template only the magic, the size byte, `depth` and the changed byte 32 are listed. -/
theorem test_ddspatch_words :
    view (exec .ddspatch { busyWith
          [(0x300, 0x44), (0x301, 0x44), (0x302, 0x53), (0x303, 0x20), (0x304, 0x7C), (0x305, 0x00), (0x306, 0x00),
            (0x307, 0x00), (0x318, 0x00), (0x319, 0x00), (0x31A, 0x00), (0x31B, 0x00), (0x320, 0xAB)] with
        src := 0x300, srclen := 128, dst := 0x400, dstlen := 128,
        width := 512, height := 128, mips := 3, fmt := 2 })
      (fun t => (t.bytes 0x404 29, t.bytes 0x46C 4))
      = some ([0x7C, 0x00, 0x00, 0x00, 0x07, 0x10, 0x0A, 0x00, 0x80, 0x00, 0x00, 0x00, 0x00, 0x02, 0x00, 0x00,
          0x00, 0x08, 0x00, 0x00, 0x00, 0x00, 0x00, 0x00, 0x03, 0x00, 0x00, 0x00, 0xAB],
        [0x08, 0x10, 0x40, 0x00]) := by decide +kernel

theorem test_ddspatch_bad_magic :
    view (exec .ddspatch { busyWith (cellsAt 0 [0x58, 0x54, 0x43, 0x00]) with
        src := 0, srclen := 128, dst := 0x100, dstlen := 128 }) report
      = some (false, false, true, 1, 0x00435458) := by decide +kernel

theorem test_ddsparse_fields :
    view (exec .ddsparse { busyWith (cellsAt 0 vd1) with src := 0, srclen := 128 })
      (fun t => (t.width, t.height, t.mips, t.fmt)) = some (256, 256, 1, 2) := by decide +kernel

/-- V-D9: FourCC "DXT3". -/
theorem test_ddsparse_unknown_fourcc :
    view (exec .ddsparse { busyWith (cellsAt 0 (vd1.set 87 0x33)) with src := 0, srclen := 128, width := 7 })
      (fun t => (report t, t.width)) = some ((false, false, true, 5, 84), 7) := by decide +kernel

/-- A `DdsConst` with the other byte order, and with the offsets of `height` and `caps` exchanged. -/
def otherDds : DdsConst :=
  { DdsConst.default with order := .big, offsets := { DdsOffsets.default with height := 108, caps := 12 } }

/-- The fields move with the offsets: height 32 stands at 108, caps 0x1000 at 12. -/
theorem test_build_offsets :
    let d := buildHeader otherDds 64 32 1 .rawRgba8
    ((d.drop 12).take 4, (d.drop 108).take 4) = ([0x00, 0x00, 0x10, 0x00], [0x00, 0x00, 0x00, 0x20]) := by
  decide +kernel

/-! ### Morton engine (V-M1 to V-M11) -/

theorem test_nbits :
    [1, 2, 3, 4, 5, 8, 9, 255, 256, 257, 65535].map nbits = [0, 1, 2, 2, 3, 3, 4, 8, 8, 9, 16] := by decide +kernel

/-- V-M1: the 5x3 table, row by row. -/
theorem test_interleave_table :
    (pixels 5 3).map (fun q => interleave 5 3 q.1 q.2)
      = [0, 1, 4, 5, 16, 2, 3, 6, 7, 18, 8, 9, 12, 13, 24] := by decide +kernel

theorem test_interleave_largest : interleave 65535 65535 65534 65534 = 0xFFFFFFFC := by decide +kernel

/-- Pixel `i` as four bytes of value `b + i`, `n` pixels from address `a`. -/
def flatPixels (a b n : Nat) : List Host.Cell :=
  cellsAt a ((List.range (4 * n)).map fun k => BitVec.ofNat 8 (b + k / 4))

/-- Every fourth byte: one per pixel. -/
def firstBytes (t : State) (a n : Nat) : List Byte := (List.range n).map fun k => t.byte (a + 4 * k)

theorem test_detile_eight_by_two :
    view (exec .detile { busyWith (flatPixels 0x1000 0 16) with
        src := 0x1000, srclen := 64, dst := 0x2000, dstlen := 64, width := 8, height := 2, swz := true })
      (firstBytes · 0x2000 16)
      = some [0, 1, 4, 5, 8, 9, 12, 13, 2, 3, 6, 7, 10, 11, 14, 15] := by decide +kernel

theorem test_detile_short_source :
    view (exec .detile { busyWith [] with
        src := 0x1000, srclen := 51, dst := 0x2000, dstlen := 36, width := 3, height := 3, swz := true })
      report = some (false, false, true, 9, 2) := by decide +kernel

theorem test_tile_eight_by_two :
    view (exec .tile { busyWith (flatPixels 0x1000 0 16) with
        src := 0x1000, srclen := 64, dst := 0x2000, dstlen := 64, width := 8, height := 2, swz := true })
      (firstBytes · 0x2000 16)
      = some [0, 1, 8, 9, 2, 3, 10, 11, 4, 5, 12, 13, 6, 7, 14, 15] := by decide +kernel

/-- V-M11: holes keep their bytes. -/
theorem test_tile_holes :
    view (exec .tile { busyWith (flatPixels 0x1000 0xA0 9 ++ cellsAt 0x2000 (List.replicate 52 0xEE)) with
        src := 0x1000, srclen := 36, dst := 0x2000, dstlen := 52, width := 3, height := 3, swz := true })
      (firstBytes · 0x2000 13)
      = some [0xA0, 0xA1, 0xA3, 0xA4, 0xA2, 0xEE, 0xA5, 0xEE, 0xA6, 0xA7, 0xEE, 0xEE, 0xA8] := by decide +kernel

theorem test_detileP_tiled :
    view (exec .detileP { busyWith (cellsAt 0 [0x11, 0x22, 0x33, 0x44]) with
        src := 0, srclen := 4, dst := 4, dstlen := 4, width := 1, height := 1, swz := true })
      (·.bytes 4 4) = some [0x44, 0x33, 0x22, 0x11] := by decide +kernel

theorem test_detileP_linear :
    view (exec .detileP { busyWith (cellsAt 0 [0x11, 0x22, 0x33, 0x44]) with
        src := 0, srclen := 4, dst := 4, dstlen := 4, width := 1, height := 1, swz := false })
      (·.bytes 4 4) = some [0x44, 0x22, 0x33, 0x11] := by decide +kernel

/-! ### Control and the bus (V-C2 to V-C5, V-H7) -/

theorem test_illegal_completes_with_fault :
    view (step (State.reset.withFetchWord 32 0x107)) (fun t => (t.status.word, t.errinfo))
      = some (0x00070804, 0x107) := by decide

/-- V-C3: the gate drops `HDRPARSE` and lets 0x108 through. -/
theorem test_gate :
    let s := { State.reset with status := ⟨false, false, true, 2, 0x05⟩, errinfo := 0x7F }
    view (step (hosting (.regWrite .word 4 1) s)) (fun t => (t.status.word, t.pending)) = some (0x00050204, 0)
      ∧ view (step (hosting (.regWrite .word 4 0x108) s)) (fun t => (t.status.word, t.pending))
        = some (0x00080205, 0x108) := by decide

/-- V-C4: while busy a register write is dropped and `STATUS` can be read. -/
theorem test_busy :
    let s := { State.reset with status := ⟨true, false, false, 0, 0x06⟩, pending := 6, turns := [.host] }
    view (step (hosting (.regWrite .word 0x20 1) s)) (fun t => (t.width, t.status.busy)) = some (0, true)
      ∧ view (step (hosting (.regRead .word 8) s)) (·.host.returned) = some [.reg 8 0x00060001] := by decide

/-- Rules R62, R246: the command has completed, but no `STATUS` read has said so yet. By R246 the access gets no step;
by R62 it has its effect, and the run is recorded. After a `poll` the access is the host's right. -/
theorem test_unread_status :
    let s := { State.reset with host := ⟨[.memRead 3], [], true, false⟩, mem := [(3, 7)] }
    refusal (step s) = some (.memBeforeStatusRead 3)
      ∧ view (step { s with cfg := { s.cfg with handOver := .whileBusy } }) (·.host) = some ⟨[], [.mem 3 7], true, true⟩
      ∧ view (Host.Core.run Sys2Proof.core 2 { s with host := ⟨[.poll, .memRead 3], [], true, false⟩ }) (·.host)
        = some ⟨[], [.mem 3 7, .poll 0], false, false⟩ := by
  decide

/-- Rules R62, R66: what is refused is refused in reset too. -/
theorem test_refused_in_reset :
    let s := { busyWith [] with resetN := false }
    refusal (step (hosting (.memRead 3) s)) = some (.memWhileBusy 3)
      ∧ refusal (step (hosting (.regRead .half 4) s)) = some (.registerAccessForm 4) := by decide

theorem test_register_truncation :
    view (step (hosting (.regWrite .word 0x20 0x12345) State.reset)) (readOffset · 0x20) = some 0x2345
      ∧ view (step (hosting (.regWrite .word 0x30 7) State.reset)) (readOffset · 0x30) = some 3
      ∧ view (step (hosting (.regWrite .word 0x34 2) State.reset)) (readOffset · 0x34) = some 0 := by decide

theorem test_id_and_reserved :
    readOffset State.reset 0 = 0x43545842 ∧ readOffset State.reset 4 = 0 ∧ readOffset State.reset 0x38 = 0 := by
  decide

theorem test_go_expands :
    (Statement.go .detileP).expand = [.regWrite .word 0x04 0x106, .poll] := by decide

theorem test_mw_expands :
    (Statement.mw 0x403 [0x20, 0x21]).expand = [.memWrite 0x403 0x20, .memWrite 0x404 0x21] := by decide

theorem test_reset_release :
    view (step (hosting (.resetN true) { State.reset with resetN := false, width := 7, mem := [(3, 1)] }))
      (fun t => (t.width, t.mem, t.epoch)) = some (0, [], 1) := by decide

/-! ### Witnesses: concrete states and operands that meet the hypotheses of the statements

Each is named after its statement; where a statement has several clauses each clause has its own, at the ends of its
range. -/

/-- The command word `c` is in flight and the host has nothing to do. -/
def inFlight (c : Word) : State := { busyWith [] with pending := c }

/-- A command with the given `MEM` and windows. -/
def windows (cells : List Host.Cell) (src srclen dst dstlen : Word) : State :=
  { busyWith cells with src := src, srclen := srclen, dst := dst, dstlen := dstlen }

/-- The host moves first while a command is in flight. -/
def hostFirst (t : HostTxn) : State := { hosting t (inFlight 6) with turns := [.host] }

/-- `BUSY = 0` with a fault recorded. -/
def gated : State := { State.reset with status := ⟨false, false, true, 9, 0x06⟩, errinfo := 3 }

theorem witness_StepRunsTheDecodedCommand :
    (BlockMoves (inFlight 6) ∧ decode (inFlight 6).pending = some .detile)
      ∧ (BlockMoves (hosting .poll (inFlight 6)))
      ∧ BlockMoves { hosting .poll (inFlight 6) with turns := [.block, .host] } := by
  unfold BlockMoves; decide

theorem witness_IllegalWordFaults :
    (BlockMoves (inFlight 0x200) ∧ (inFlight 0x200).pending >>> 9 ≠ 0)
      ∧ (BlockMoves (inFlight 0x09) ∧ 0x08 < (inFlight 0x09).pending.toNat % 256)
      ∧ (BlockMoves (inFlight 0x107) ∧ (inFlight 0x107).pending.getLsbD 8 = true
        ∧ (inFlight 0x107).pending.toNat % 256 ≠ 0x06) := by
  unfold BlockMoves; decide

theorem witness_PolledCommandIsCompleted :
    (hostFirst .poll).status.busy = true ∧ (hostFirst .poll).resetN = true
      ∧ (hostFirst .poll).host.script = .poll :: [] := by decide

theorem witness_IdleBlockTakesNoStep : gated.status.busy = false ∧ gated.host.script = [] := by decide

/-- Idle, any transaction: the host moves. -/
theorem witness_idle_host (x : HostTxn) : HostMoves (hosting x State.reset) x [] := ⟨rfl, rfl, .inl rfl⟩

/-- A command in flight and the schedule says host, any transaction. -/
theorem witness_busy_host (x : HostTxn) : HostMoves (hostFirst x) x [] := ⟨rfl, rfl, .inr ⟨rfl, rfl⟩⟩

/-- A fault recorded, any transaction. -/
theorem witness_gated_host (x : HostTxn) : HostMoves (hosting x gated) x [] := ⟨rfl, rfl, .inl rfl⟩

theorem witness_IssueAcceptsOrDrops :
    (HostMoves (hosting (.regWrite .word 4 0x07) gated) (.regWrite .word 4 0x07) [] ∧ gated.status.err = true
        ∧ (0x07#32).toNat % 256 ≠ 0x08)
      ∧ (HostMoves (hosting (.regWrite .word 4 0x108) gated) (.regWrite .word 4 0x108) []
        ∧ (0x108#32).toNat % 256 = 0x08 ∧ decode 0x108 = none)
      ∧ (HostMoves (hosting (.regWrite .word 4 0) State.reset) (.regWrite .word 4 0) []
        ∧ State.reset.status.err = false ∧ State.reset.status.busy = false) :=
  ⟨⟨witness_gated_host _, by decide⟩, ⟨witness_gated_host _, by decide⟩, ⟨witness_idle_host _, by decide⟩⟩

/-- Every offset of the block, from 0 to 0xFC, registers and reserved ones. -/
theorem witness_IdleRegisterWriteStores (v : Word) :
    (∀ off, HostMoves (hosting (.regWrite .word off v) State.reset) (.regWrite .word off v) [])
      ∧ State.reset.status.busy = false ∧ (0xFC % 4 = 0 ∧ 0xFC < 0x100 ∧ 0xFC ≠ 0x04) :=
  ⟨fun _ => witness_idle_host _, by decide⟩

theorem witness_BusyRegisterWriteIsDropped :
    HostMoves (hostFirst (.regWrite .word 4 8)) (.regWrite .word 4 8) []
      ∧ (hostFirst (.regWrite .word 4 8)).status.busy = true :=
  ⟨witness_busy_host _, rfl⟩

theorem witness_RegisterReadReturnsTheValue :
    HostMoves (hosting (.regRead .word 0xFC) State.reset) (.regRead .word 0xFC) []
      ∧ HostMoves (hostFirst (.regRead .word 8)) (.regRead .word 8) [] :=
  ⟨witness_idle_host _, witness_busy_host _⟩

/-- The block is held in reset, any transaction. -/
theorem witness_reset_host (x : HostTxn) (s : State) : HostActs (hosting x { s with resetN := false }) x [] :=
  .inr ⟨rfl, rfl⟩

theorem witness_MisshapenRegisterAccessIsRefused :
    (HostActs (hosting (.regWrite .byte 4 0) State.reset) (.regWrite .byte 4 0) [] ∧ AccessSize.byte ≠ .word)
      ∧ (HostActs (hosting (.regRead .word 2) State.reset) (.regRead .word 2) [] ∧ 2 % 4 ≠ 0)
      ∧ HostActs (hosting (.regRead .word 0x100) State.reset) (.regRead .word 0x100) []
      ∧ HostActs (hosting (.regRead .burst 4) { inFlight 6 with resetN := false }) (.regRead .burst 4) [] :=
  ⟨⟨.inl (witness_idle_host _), by decide⟩, ⟨.inl (witness_idle_host _), by decide⟩, .inl (witness_idle_host _),
    witness_reset_host _ _⟩

/-- `BUSY = 0` after a command, and `STATUS` not read since. -/
def unread (x : HostTxn) : State := { State.reset with host := ⟨[x], [], true, false⟩ }

/-- The same under the reading of the rules R62 and R196. -/
def unreadWhileBusy (x : HostTxn) : State :=
  { unread x with cfg := { Config.default with handOver := .whileBusy } }

/-- `MEM` is the host's, below `MEM_SIZE` and at it; and with `STATUS` not read, under the reading of R62. -/
theorem witness_HostMemoryAccess :
    (HostMoves (hosting (.memWrite 65535 7) State.reset) (.memWrite 65535 7) []
        ∧ MemIsHosts State.reset ∧ 65535 < State.reset.cfg.memSize)
      ∧ (HostActs (hosting (.memRead 65536) State.reset) (.memRead 65536) [] ∧ State.reset.cfg.memSize ≤ 65536)
      ∧ (HostMoves (unreadWhileBusy (.memRead 0)) (.memRead 0) [] ∧ MemIsHosts (unreadWhileBusy (.memRead 0))) :=
  ⟨⟨witness_idle_host _, ⟨rfl, fun _ => rfl⟩, by decide⟩, ⟨.inl (witness_idle_host _), by decide⟩,
    ⟨rfl, rfl, .inl rfl⟩, rfl, fun h => by cases h⟩

/-- `BUSY = 1`, also at `MEM_SIZE` and in reset; then `BUSY = 0` with `STATUS` not read, under the reading of R246, also
in reset. -/
theorem witness_HostMemoryAccess_refused :
    HostActs (hostFirst (.memRead 0)) (.memRead 0) []
      ∧ HostActs (hostFirst (.memRead 65536)) (.memRead 65536) []
      ∧ (HostActs (hosting (.memRead 0) { inFlight 6 with resetN := false }) (.memRead 0) []
        ∧ (inFlight 6).status.busy = true)
      ∧ (HostActs (unread (.memRead 0)) (.memRead 0) []
        ∧ HostActs { unread (.memRead 0) with resetN := false } (.memRead 0) []
        ∧ (unread (.memRead 0)).status.busy = false
        ∧ (unread (.memRead 0)).cfg.handOver = .untilStatusRead ∧ (unread (.memRead 0)).host.handedOver = true) :=
  ⟨.inl (witness_busy_host _), .inl (witness_busy_host _), ⟨witness_reset_host _ _, rfl⟩, .inl ⟨rfl, rfl, .inl rfl⟩,
    .inr ⟨rfl, rfl⟩, rfl, rfl, rfl⟩

/-- The accepted `CMD` write that opens the window, and the access in it that is recorded, also in reset. -/
theorem witness_HostMemoryAccess_records :
    (view (step (hosting (.regWrite .word 4 0) State.reset)) (·.host.handedOver)) = some true
      ∧ (view (step (unreadWhileBusy (.memRead 0))) (·.host.earlyAccess)) = some true
      ∧ (view (step { unreadWhileBusy (.memRead 0) with resetN := false }) (·.host.earlyAccess)) = some true
      ∧ (unreadWhileBusy (.memRead 0)).host.earlyAccess = false ∧ State.reset.host.handedOver = false := by
  decide

/-- Both reads of `STATUS` give `MEM` back. -/
theorem witness_HostMemoryAccess_back :
    (view (step (unread .poll)) (·.host.handedOver)) = some false
      ∧ (view (step (unread (.regRead .word 8))) (·.host.handedOver)) = some false
      ∧ (unread .poll).host.handedOver = true := by decide

theorem witness_PollWaitsForIdle :
    HostMoves (hostFirst .poll) .poll [] ∧ HostMoves (hosting .poll State.reset) .poll [] :=
  ⟨witness_busy_host _, witness_idle_host _⟩

theorem witness_ResetInputActs :
    let s := { inFlight 6 with resetN := false, host := ⟨[.resetN true], [], true, false⟩ }
    let t := { inFlight 6 with resetN := false, host := ⟨[.regWrite .word 0xFC 1], [], true, false⟩ }
    let v := { State.reset with resetN := false, host := ⟨[.memWrite 65535 1], [], false, false⟩ }
    let u := { inFlight 6 with resetN := false }
    (s.resetN = false ∧ s.host.script = .resetN true :: [])
      ∧ (t.host.script = .regWrite .word 0xFC 1 :: [] ∧ HasMeaning t (.regWrite .word 0xFC 1))
      ∧ (v.host.script = .memWrite 65535 1 :: [] ∧ HasMeaning v (.memWrite 65535 1))
      ∧ (u.resetN = false ∧ u.status.busy = true ∧ u.host.script = []) := by
  simp only [HasMeaning, MemIsHosts]; decide

/-- The assertion while a command is in flight, and idle. -/
theorem witness_ResetInputActs_assertion :
    HostMoves (hostFirst (.resetN false)) (.resetN false) []
      ∧ HostMoves (hosting (.resetN false) State.reset) (.resetN false) [] :=
  ⟨witness_busy_host _, witness_idle_host _⟩

/-- A written byte, and a fault recorded: every part of the invariant says something. -/
theorem witness_StepKeepsTheInvariant :
    State.Inv { inFlight 8 with
      mem := [(3, 1), (65535, 2)], status := ⟨true, false, true, 2, 8⟩, host := ⟨[], [], true, false⟩ } where
  params := by decide
  status := ⟨by decide, by decide, by decide, by decide, by decide, by decide, by decide, by decide⟩
  memory := ⟨by decide, by decide⟩

theorem witness_OnlyClrerrAndResetClearErr :
    let s := { inFlight 8 with status := ⟨true, false, true, 2, 8⟩ }
    s.status.err = true ∧ view (step s) (·.status.err) = some false := by decide

theorem witness_OnlyTheHostChangesSwz :
    view (step (hosting (.regWrite .word 0x34 1) State.reset)) (·.swz) = some true := by decide

theorem witness_ErrorGateHoldsOverRuns :
    let s := hosting (.regWrite .word 4 1) gated
    s.status.err = true ∧ s.status.busy = false
      ∧ (∀ x ∈ s.host.script, x ≠ .resetN true ∧ ∀ size c, x = .regWrite size 0x04 c → c.toNat % 256 ≠ 0x08)
      ∧ (view (Host.Core.run Sys2Proof.core 2 s) (·.status)) = some s.status := by
  refine ⟨rfl, rfl, ?_, by decide⟩
  intro x hx
  obtain rfl : x = .regWrite .word 4 1 := by simpa [hosting] using hx
  exact ⟨by decide, fun size c h => by obtain ⟨-, -, rfl⟩ := h; decide⟩

/-- A next state of each command that writes no byte of `MEM`; also for the statements about any command. -/
theorem witness_NonStoringCommandsKeepMem :
    [Instr.nop, .hdrparse, .ddsparse, .clrerr].all (fun i => (view (exec i (inFlight 0)) id).isSome) = true := by
  decide

/-- Two states that differ outside the source window only, the windows one byte apart. -/
theorem witness_CommandsSeeOnlyTheSourceWindow :
    let s := windows (cellsAt 0 [1, 2, 3, 4]) 0 4 4 4
    let u := { s with mem := cellsAt 0 [1, 2, 3, 4, 9], epoch := 7 }
    (∀ a, s.src.toNat ≤ a → a < s.src.toNat + s.srclen.toNat → u.byte a = s.byte a)
      ∧ (view (exec .detile { s with width := 1, height := 1 }) (·.status.done)) = some true := by
  refine ⟨?_, by decide +kernel⟩
  intro a _ h
  have h4 : a < 4 := h
  match a, h4 with
  | 0, _ => rfl
  | 1, _ => rfl
  | 2, _ => rfl
  | 3, _ => rfl

theorem witness_NopOnlyCompletes : gated.status.err = true ∧ State.reset.status.err = false := by decide

theorem witness_ClrerrReopensTheGate :
    gated.status.err = true ∧ (0x108#32).toNat % 256 = 0x08 ∧ 0x108#32 ≠ 0x00000008#32 := by decide

/-! Windows that end at the last byte of `MEM` are valid and one byte more is not. -/

theorem witness_HdrparseReadsTheFields :
    let s := windows [] 65404 132 0 0
    inMem s s.src s.srclen ∧ 132 ≤ s.srclen.toNat := by unfold inMem; decide

theorem witness_HdrparseFaultOrder :
    (let s := windows [] 65405 132 0 0; ¬ inMem s s.src s.srclen)
      ∧ (let s := windows [] 65405 131 0 0; inMem s s.src s.srclen ∧ s.srclen.toNat < 132) := by
  unfold inMem; decide

/-- The two windows overlap. -/
theorem witness_HdrupdWritesTheUpdatedHeader :
    let s := windows [] 65404 132 65400 136
    inMem s s.src s.srclen ∧ inMem s s.dst s.dstlen ∧ 132 ≤ s.srclen.toNat ∧ 132 ≤ s.dstlen.toNat := by
  unfold inMem; decide

theorem witness_HdrupdFaultOrder :
    (let s := windows [] 65405 132 0 132; ¬ inMem s s.src s.srclen)
      ∧ (let s := windows [] 0 132 65405 132; inMem s s.src s.srclen ∧ ¬ inMem s s.dst s.dstlen)
      ∧ (let s := windows [] 0 131 0 132; inMem s s.src s.srclen ∧ inMem s s.dst s.dstlen ∧ s.srclen.toNat < 132)
      ∧ (let s := windows [] 0 132 0 131
        inMem s s.src s.srclen ∧ inMem s s.dst s.dstlen ∧ 132 ≤ s.srclen.toNat ∧ s.dstlen.toNat < 132) := by
  unfold inMem; decide

theorem witness_HeaderAccessorLaws : (List.replicate 132 (0xA5 : Byte)).length = 132 := by simp

/-- Each of the three formats. -/
theorem witness_DdsbuildWritesTheHeader (f : BitVec 2) (hf : f ≠ 3) :
    let s := { windows [] 0 0 65408 128 with fmt := f }
    s.cfg.dds.offsets.wf = true ∧ inMem s s.dst s.dstlen ∧ 128 ≤ s.dstlen.toNat ∧ s.fmt ≠ 3 :=
  ⟨show DdsOffsets.default.wf = true by decide,
    show (65408#32).toNat + (128#32).toNat ≤ 65536 by decide, show 128 ≤ (128#32).toNat by decide, hf⟩

theorem witness_DdsbuildFaultOrder :
    (let s := windows [] 0 0 65409 128; ¬ inMem s s.dst s.dstlen)
      ∧ (let s := windows [] 0 0 65409 127; inMem s s.dst s.dstlen ∧ s.dstlen.toNat < 128)
      ∧ (let s := { windows [] 0 0 65408 128 with fmt := 3 }
        inMem s s.dst s.dstlen ∧ 128 ≤ s.dstlen.toNat ∧ s.fmt = 3) := by
  unfold inMem; decide

/-- A template at 0, the windows overlapping. -/
theorem witness_DdspatchReplacesSixWords :
    let s := windows (cellsAt 0 vd1) 0 128 1 128
    s.cfg.dds.offsets.wf = true ∧ inMem s s.src s.srclen ∧ inMem s s.dst s.dstlen
      ∧ 128 ≤ s.srclen.toNat ∧ 128 ≤ s.dstlen.toNat ∧ s.fmt ≠ 3 ∧ hasTag s s.src.toNat s.cfg.dds.magic := by
  unfold inMem hasTag; decide +kernel

theorem witness_DdspatchFaultOrder :
    (let s := windows [] 65409 128 0 128; ¬ inMem s s.src s.srclen)
      ∧ (let s := windows [] 0 128 65409 128; inMem s s.src s.srclen ∧ ¬ inMem s s.dst s.dstlen)
      ∧ (let s := windows [] 0 0 0 128; inMem s s.src s.srclen ∧ inMem s s.dst s.dstlen ∧ s.srclen = 0)
      ∧ (let s := windows [] 0 1 0 128
        inMem s s.src s.srclen ∧ inMem s s.dst s.dstlen ∧ 0 < s.srclen.toNat ∧ s.srclen.toNat < 128)
      ∧ (let s := windows [] 0 128 0 127
        inMem s s.src s.srclen ∧ inMem s s.dst s.dstlen ∧ 128 ≤ s.srclen.toNat ∧ s.dstlen.toNat < 128)
      ∧ (let s := { windows [] 0 128 0 128 with fmt := 3 }
        inMem s s.src s.srclen ∧ inMem s s.dst s.dstlen ∧ 128 ≤ s.srclen.toNat ∧ 128 ≤ s.dstlen.toNat ∧ s.fmt = 3)
      ∧ (let s := windows (cellsAt 0 [0x44, 0x44, 0x53, 0x21]) 0 128 0 128
        inMem s s.src s.srclen ∧ inMem s s.dst s.dstlen ∧ 128 ≤ s.srclen.toNat ∧ 128 ≤ s.dstlen.toNat ∧ s.fmt ≠ 3
          ∧ ¬ hasTag s s.src.toNat s.cfg.dds.magic) := by
  unfold inMem hasTag; decide +kernel

/-- What the two parse statements ask of a source window before they look at the format. -/
def parseable (s : State) : Prop :=
  inMem s s.src s.srclen ∧ 128 ≤ s.srclen.toNat ∧ hasTag s s.src.toNat s.cfg.dds.magic
    ∧ ddsField s (s.src.toNat + s.cfg.dds.offsets.height.val) ≤ 0xFFFF
    ∧ ddsField s (s.src.toNat + s.cfg.dds.offsets.width.val) ≤ 0xFFFF
    ∧ ddsField s (s.src.toNat + s.cfg.dds.offsets.mipMapCount.val) ≤ 0xFF

/-- `V-D1` with the largest dimensions and mip count that fit. -/
def largest : List Byte := (((vd1.set 12 0xFF).set 13 0xFF).set 16 0xFF).set 17 0xFF |>.set 28 0xFF

/-- `BLOCK_DXT5`. -/
theorem witness_DdsparseReadsTheHeader_dxt5 :
    let s := windows (cellsAt 0 largest) 0 128 0 0
    parseable s ∧ ShowsFormat s s.src.toNat 2 := by
  refine ⟨?_, .inr (.inl ⟨?_, ?_, ?_, rfl⟩)⟩ <;> (try simp only [parseable, inMem, hasTag]) <;> decide +kernel

/-- `BLOCK_DXT1`. -/
theorem witness_DdsparseReadsTheHeader_dxt1 :
    let s := windows (cellsAt 0 (vd1.set 87 0x31)) 0 128 0 0
    parseable s ∧ ShowsFormat s s.src.toNat 1 := by
  refine ⟨?_, .inl ⟨?_, ?_, rfl⟩⟩ <;> (try simp only [parseable, inMem, hasTag]) <;> decide +kernel

/-- The raw format. -/
theorem witness_DdsparseReadsTheHeader_raw :
    let s := windows (cellsAt 0 ((vd1.set 80 0x40).set 88 0x20)) 0 128 0 0
    parseable s ∧ ShowsFormat s s.src.toNat 0 := by
  refine ⟨?_, .inr (.inr ⟨?_, ?_, ?_, rfl⟩)⟩ <;> (try simp only [parseable, inMem, hasTag]) <;> decide +kernel

theorem witness_DdsparseFaultOrder :
    (let s := windows [] 65409 128 0 0; ¬ inMem s s.src s.srclen)
      ∧ (let s := windows [] 0 127 0 0; inMem s s.src s.srclen ∧ s.srclen.toNat < 128)
      ∧ (let s := windows (cellsAt 0 (vd1.set 3 0x21)) 0 128 0 0; ¬ hasTag s s.src.toNat s.cfg.dds.magic)
      ∧ (let s := windows (cellsAt 0 (vd1.set 14 1)) 0 128 0 0
        hasTag s s.src.toNat s.cfg.dds.magic ∧ 0xFFFF < ddsField s (s.src.toNat + 12))
      ∧ (let s := windows (cellsAt 0 (vd1.set 18 1)) 0 128 0 0
        hasTag s s.src.toNat s.cfg.dds.magic ∧ ddsField s (s.src.toNat + 12) ≤ 0xFFFF
          ∧ 0xFFFF < ddsField s (s.src.toNat + 16))
      ∧ (let s := windows (cellsAt 0 (vd1.set 29 1)) 0 128 0 0
        hasTag s s.src.toNat s.cfg.dds.magic ∧ ddsField s (s.src.toNat + 12) ≤ 0xFFFF
          ∧ ddsField s (s.src.toNat + 16) ≤ 0xFFFF ∧ 0xFF < ddsField s (s.src.toNat + 28)) := by
  unfold inMem hasTag; decide +kernel

theorem witness_DdsparseFaultOrder_fourcc :
    let s := windows (cellsAt 0 (vd1.set 87 0x33)) 0 128 0 0
    parseable s ∧ ShowsUnsupported s s.src.toNat 84 := by
  refine ⟨?_, .inl ⟨?_, ?_, ?_, rfl⟩⟩ <;> (try simp only [parseable, inMem, hasTag]) <;> decide +kernel

theorem witness_DdsparseFaultOrder_bitcount :
    let s := windows (cellsAt 0 (vd1.set 80 0x40)) 0 128 0 0
    parseable s ∧ ShowsUnsupported s s.src.toNat 88 := by
  refine ⟨?_, .inr (.inl ⟨?_, ?_, ?_, rfl⟩)⟩ <;> (try simp only [parseable, inMem, hasTag]) <;> decide +kernel

theorem witness_DdsparseFaultOrder_flags :
    let s := windows (cellsAt 0 (vd1.set 80 0)) 0 128 0 0
    parseable s ∧ ShowsUnsupported s s.src.toNat 80 := by
  refine ⟨?_, .inr (.inr ⟨?_, ?_, rfl⟩)⟩ <;> (try simp only [parseable, inMem, hasTag]) <;> decide +kernel

/-- All premises together, with the default `DdsConst`; and one with the other byte order and two offsets exchanged. -/
theorem witness_BuildThenParseRecovers :
    (let s := { windows [] 0 0 65408 128 with fmt := 2 };
      s.cfg.dds.wf = true ∧ inMem s s.dst s.dstlen ∧ 128 ≤ s.dstlen.toNat ∧ s.fmt ≠ 3)
      ∧ otherDds.wf = true := by
  unfold inMem; decide

theorem witness_MortonIndexFillsPowersOfTwo : 31 < 2 ^ 3 * 2 ^ 2 ∧ 0 < 2 ^ 0 * 2 ^ 0 := by decide

/-- The tiled side of a 3x3 image ends at the last byte of `MEM` and just touches the raster side; `SWZ = 0`; no
pixel. -/
theorem witness_DetileReady :
    DetileReady { windows [] 65484 52 65448 36 with width := 3, height := 3, swz := true }
      ∧ DetileReady { windows [] 0 36 36 36 with width := 3, height := 3, swz := false }
      ∧ DetileReady { windows [] 0 0 0 0 with width := 0, height := 3, swz := true } := by
  unfold DetileReady Overlapping inMem; decide +kernel

theorem witness_TileReady :
    TileReady { windows [] 65448 36 65484 52 with width := 3, height := 3, swz := true }
      ∧ TileReady { windows [] 0 36 36 36 with width := 3, height := 3, swz := false }
      ∧ TileReady { windows [] 0 0 0 0 with width := 0, height := 3, swz := true } := by
  unfold TileReady Overlapping inMem; decide +kernel

/-- The clauses of `PixelCommandFaultOrder` for `DETILE`, whose source side needs 52 bytes for a 3x3 image. -/
theorem witness_PixelCommandFaultOrder :
    (let s := windows [] 65536 1 0 0; ¬ inMem s s.src s.srclen)
      ∧ (let s := windows [] 0 1 65536 1; inMem s s.src s.srclen ∧ ¬ inMem s s.dst s.dstlen)
      ∧ (let s := { windows [] 0 51 100 36 with width := 3, height := 3, swz := true }
        inMem s s.src s.srclen ∧ inMem s s.dst s.dstlen ∧ s.srclen.toNat < tiledNeed s)
      ∧ (let s := { windows [] 0 52 100 35 with width := 3, height := 3, swz := true }
        inMem s s.src s.srclen ∧ inMem s s.dst s.dstlen ∧ tiledNeed s ≤ s.srclen.toNat
          ∧ s.dstlen.toNat < 4 * area s)
      ∧ (let s := { windows [] 0 52 51 36 with width := 3, height := 3, swz := true }
        inMem s s.src s.srclen ∧ inMem s s.dst s.dstlen ∧ tiledNeed s ≤ s.srclen.toNat ∧ 4 * area s ≤ s.dstlen.toNat
          ∧ Overlapping s.src.toNat (tiledNeed s) s.dst.toNat (4 * area s)) := by
  unfold Overlapping inMem; decide +kernel

/-- The same for `TILE`, whose destination side needs them. -/
theorem witness_PixelCommandFaultOrder_tile :
    (let s := { windows [] 0 35 100 52 with width := 3, height := 3, swz := true };
      inMem s s.src s.srclen ∧ inMem s s.dst s.dstlen ∧ s.srclen.toNat < 4 * area s)
      ∧ (let s := { windows [] 0 36 100 51 with width := 3, height := 3, swz := true }
        inMem s s.src s.srclen ∧ inMem s s.dst s.dstlen ∧ 4 * area s ≤ s.srclen.toNat
          ∧ s.dstlen.toNat < tiledNeed s)
      ∧ (let s := { windows [] 0 36 35 52 with width := 3, height := 3, swz := true }
        4 * area s ≤ s.srclen.toNat ∧ tiledNeed s ≤ s.dstlen.toNat
          ∧ Overlapping s.src.toNat (4 * area s) s.dst.toNat (tiledNeed s)) := by
  unfold Overlapping inMem; decide +kernel

theorem witness_ZeroAreaMovesNothing :
    let s := { windows [] 65536 0 0 0 with width := 0, height := 0xFFFF }
    (s.width = 0 ∨ s.height = 0) ∧ inMem s s.src s.srclen ∧ inMem s s.dst s.dstlen := by
  unfold inMem; decide

/-- The third window may be the first one again. -/
theorem witness_TileThenDetileRestores :
    let s := { windows [] 0 36 36 52 with width := 3, height := 3, swz := true }
    TileReady s ∧ inMem s 0 36 ∧ 4 * area s ≤ (36#32).toNat
      ∧ ¬ Overlapping s.dst.toNat (tiledNeed s) (0#32).toNat (4 * area s) := by
  unfold TileReady Overlapping inMem; decide +kernel

theorem witness_DetileThenTileRestores :
    let s := { windows [] 0 52 52 36 with width := 3, height := 3, swz := true }
    DetileReady s ∧ inMem s 0 52 ∧ tiledNeed s ≤ (52#32).toNat
      ∧ ¬ Overlapping s.dst.toNat (4 * area s) (0#32).toNat (tiledNeed s) := by
  unfold DetileReady Overlapping inMem; decide +kernel

theorem witness_PlacedWordRunsNext : decode (BitVec.ofNat 32 0x106) = some .detileP := by decide

/-- A next state of a step; also for the statements about every step. -/
theorem witness_StepKeepsTheParameters : view (step (inFlight 0)) (·.cfg) = some Config.default := by decide

/-- A next state of a storing command, whose window starts at 0x800. -/
theorem witness_StoresStayInTheDestinationWindow :
    let s := windows [] 0 0 0x800 128
    (view (exec .ddsbuild s) (·.status.done)) = some true ∧ 0x7FF < s.dst.toNat
      ∧ s.dst.toNat + s.dstlen.toNat ≤ 0x880 := by decide +kernel

/-- A next state of each command, here one that faults or completes without a window. -/
theorem witness_CommandsWriteOnlyTheirRegisters :
    [Instr.nop, .hdrparse, .hdrupd, .ddsbuild, .ddspatch, .ddsparse, .detile, .detileP, .tile, .clrerr].all
      (fun i => (view (exec i (inFlight 0)) id).isSome) = true := by decide

/-- `DDSBUILD` has a next state here; those of the other commands are in the two witnesses above. Windows that just
touch, and windows that are the same. -/
theorem witness_RepeatedCommandsLeaveTheSameState :
    (view (exec .ddsbuild (windows [] 0 0 0x800 128)) (·.status.done)) = some true
      ∧ (let s := windows [] 0 132 132 132
        ¬ Overlapping s.src.toNat 132 s.dst.toNat 132 ∧ view (exec .hdrupd s) (·.status.done) = some true)
      ∧ (let s := windows (cellsAt 0 vd1) 0 128 128 128
        ¬ Overlapping s.src.toNat 128 s.dst.toNat 128 ∧ view (exec .ddspatch s) (·.status.done) = some true)
      ∧ (let s := windows (cellsAt 0 vd1) 0 132 0 132
        s.src = s.dst ∧ s.cfg.dds.offsets.wf = true ∧ view (exec .hdrupd s) (·.status.done) = some true
          ∧ view (exec .ddspatch s) (·.status.done) = some true) := by
  unfold Overlapping; decide +kernel

theorem witness_ParseThenUpdateReproducesTheHeader :
    let s := windows [] 0 132 65404 132
    inMem s s.src s.srclen ∧ inMem s s.dst s.dstlen ∧ 132 ≤ s.srclen.toNat ∧ 132 ≤ s.dstlen.toNat := by
  unfold inMem; decide

theorem witness_BuiltFlagsAreConsistent : DdsConst.default.wf = true := by decide

theorem witness_PatchedBuiltHeaderIsBuiltAnew : vd1.length = 128 := by decide +kernel

/-- The ends of the range of dimensions; `256` is the last that needs 8 bits. -/
theorem witness_NbitsIsTheLeast : (1 ≤ 1 ∧ 1 ≤ 65535) ∧ (1 ≤ 65535 ∧ 65535 ≤ 65535) ∧ 256 ≤ 2 ^ 8 ∧ 255 < 256 := by
  decide

/-- A 5x3 image, whose axes have 3 and 2 bits, and a 2x3 one, 1 and 2 bits: an index of each clause is in range. -/
theorem witness_InterleaveClosedForm :
    1 < min (nbits 5) (nbits 3) ∧ (nbits 3 ≤ 2 ∧ 2 < nbits 5)
      ∧ (nbits 2 ≤ 1 ∧ 1 < nbits 3) := by decide +kernel

theorem witness_MortonIndexIsInjective : 4 < 5 ∧ 2 < 3 ∧ interleave 5 3 4 2 = interleave 5 3 4 2 :=
  ⟨by decide, by decide, rfl⟩

theorem witness_MortonIndexIsMonotone : (4 < 5 ∧ 2 < 3) ∧ 3 < 4 ∧ 1 < 2 := by decide

end Sys2Proof.Tests
end

section
/-! PROOFS. The frame of the block's completion step, said once for every command, and from it rule R9: no step changes
the parameters. -/

namespace Sys2Proof.Proofs

open Sys2Proof.Machine Sys2Proof.Laws

/-! ### What the block writes -/

/-- `s` with the registers that a completion step may write, and `MEM`, taken from `t` (rule R26's table). -/
def withResults (s t : State) : State :=
  { s with
    status := t.status, errinfo := t.errinfo, width := t.width, height := t.height, mips := t.mips
    pdlen := t.pdlen, fmt := t.fmt, mem := t.mem }

@[simp] theorem withResults_cfg (s t : State) : (withResults s t).cfg = s.cfg := rfl

/-- An outcome has one next state. -/
theorem eq_of_next {r : Result} {t u : State} (hu : r = .next u) (ht : r = .next t) : u = t :=
  Host.Outcome.next.inj (hu.symm.trans ht)

/-- The frame of a known next state, which shows it field by field, is that of every next state. -/
theorem frame_of_next {r : Result} {s t u : State} (hu : r = .next u) (ht : r = .next t)
    (hf : u = withResults s u := by simp only [withResults, enterFault]) : t = withResults s t :=
  eq_of_next hu ht ▸ hf

/-- The pixel commands keep the frame: a fault record, or moves that reach `MEM` alone. -/
theorem pixelCommand_frame {ls ld : Nat} {p : List Nat} {moves : List (Nat × Nat)} {s t : State}
    (h : pixelCommand ls ld p moves s = .next t) : t = withResults s t := by
  rcases pixelCommand_cases ls ld p moves s with ⟨_, _, _, hf⟩ | ⟨_, _, _, _, _, hm⟩
  · exact frame_of_next hf h
  · obtain ⟨u, hu, rfl⟩ := completeWrite_next (hm.symm.trans h)
    rw [(movePixels_frame hu).1]; rfl

/-- A command changes nothing but its result registers, `STATUS`, `ERRINFO` and `MEM`, whether it completes or
faults. -/
theorem exec_frame {i : Instr} {s t : State} (h : exec i s = .next t) : t = withResults s t := by
  cases i with
  | nop => cases h; rfl
  | hdrparse =>
    rcases execHdrparse_cases s with ⟨_, he⟩ | ⟨_, _, he⟩ | ⟨_, _, he⟩ <;>
      exact frame_of_next he h
  | hdrupd =>
    rcases execHdrupd_cases s with ⟨_, he⟩ | ⟨_, _, he⟩ | ⟨_, _, _, he⟩ | ⟨_, _, _, _, he⟩ | ⟨_, _, _, _, he⟩ <;>
      exact frame_of_next he h
  | ddsbuild =>
    rcases execDdsbuild_cases s with ⟨_, he⟩ | ⟨_, _, he⟩ | ⟨_, _, _, he⟩ | ⟨_, _, _, _, he⟩ <;>
      exact frame_of_next he h
  | ddspatch =>
    rcases execDdspatch_cases s with ⟨_, _, he, _⟩ | ⟨_, _, _, _, _, _, _, he⟩ <;>
      exact frame_of_next he h
  | ddsparse =>
    rcases execDdsparse_cases s with ⟨_, he⟩ | ⟨_, _, he⟩ | ⟨_, _, _, _, _, he⟩ | ⟨_, _, _, _, _, he⟩ <;>
      exact frame_of_next he h
  | detile => exact pixelCommand_frame h
  | detileP => exact pixelCommand_frame h
  | tile => exact pixelCommand_frame h
  | clrerr => cases h; rfl

/-- The same for the completion step, whose word may be illegal (rule R94). -/
theorem completionStep_frame {s t : State} (h : completionStep s = .next t) : t = withResults s t := by
  cases hd : decode s.pending with
  | none => exact frame_of_next (completionStep_none hd) h
  | some i => exact exec_frame ((completionStep_some hd).symm.trans h)

/-! ### The host's step keeps the parameters -/

@[simp] theorem issue_cfg (s : State) (c : Word) : (issue s c).cfg = s.cfg := by
  unfold issue; split <;> simp

@[simp] theorem writeReg_cfg (s : State) (r : Reg) (v : Word) : (writeReg s r v).cfg = s.cfg :=
  (writeReg_frame s r v).1

@[simp] theorem hostRegWrite_cfg (s : State) (off : Nat) (v : Word) : (hostRegWrite s off v).cfg = s.cfg := by
  unfold hostRegWrite
  split
  · rfl
  · split <;> simp

@[simp] theorem transaction_cfg (x : HostTxn) (s : State) : (transaction x s).cfg = s.cfg := by
  cases x with
  | regWrite _ off v => exact hostRegWrite_cfg s off v
  | regRead _ off => simp only [transaction, withReturned_cfg]; split <;> simp
  | memWrite a b => simp [transaction]
  | memRead a => simp [transaction]
  | poll => simp only [transaction]; split <;> simp
  | resetN level => rfl

@[simp] theorem transactionInReset_cfg (x : HostTxn) (s : State) : (transactionInReset x s).cfg = s.cfg := by
  cases x with
  | resetN level => cases level <;> rfl
  | _ => rfl

theorem hostStep_cfg {s t : State} (h : hostStep s = .next t) : t.cfg = s.cfg := by
  rcases hostStep_cases s with ⟨_, he⟩ | ⟨x, rest, _, ⟨_, _, he⟩ | ⟨_, _, he⟩ | ⟨_, _, he⟩⟩
  · rw [eq_of_next h he]
  · cases he.symm.trans h
  · rw [eq_of_next h he]; simp
  · rw [eq_of_next h he]; simp

/-! ### Rule R9 -/

/-- Settles O23: the block's step by the frame of the completion step, the host's by its transaction. -/
theorem stepKeepsTheParameters : Obligations.StepKeepsTheParameters := by
  unfold Obligations.StepKeepsTheParameters
  intro s t h
  cases ha : s.nextAgent with
  | block => simpa using congrArg State.cfg (completionStep_frame ((step_block ha).symm.trans h))
  | host => simpa using hostStep_cfg ((step_host ha).symm.trans h)

end Sys2Proof.Proofs
end

section
/-! PROOFS. What a command can do, said once for all ten, and from it which registers each may write (rules R22, R25,
R26). -/

namespace Sys2Proof.Proofs

open Sys2Proof.Machine Sys2Proof.Laws

/-- All that command `i` can leave of `s`: the record of a fault, or its own results with the completion. -/
inductive Ends (s : State) : Instr → State → Prop
  /-- a fault of one of the kinds that are ever raised (rules R201, R203, R210) -/
  | fault {i : Instr} {k : FaultKind} (info : Word) (hk : k.code ∈ writtenCodes) : Ends s i (enterFault k info s)
  /-- rule R112 -/
  | hdrparsed (w h : Half) (m : Byte) (l : Word) :
    Ends s .hdrparse { s with status := s.status.completed, width := w, height := h, mips := m, pdlen := l }
  /-- rule R145 -/
  | ddsparsed (w h : Half) (m : Byte) (f : BitVec 2) :
    Ends s .ddsparse { s with status := s.status.completed, width := w, height := h, mips := m, fmt := f }
  /-- rule R191 -/
  | cleared : Ends s .clrerr { clearError s with status := s.status.cleared.completed }
  /-- a write of `MEM` in canonical form and inside `MEM_SIZE`, or none -/
  | stored {i : Instr} {m : List Host.Cell} (hi : i ≠ .clrerr) (hwf : Memory.wf s.mem = true → Memory.wf m = true)
    (hin : ∀ c ∈ m, c ∈ s.mem ∨ c.1 < s.cfg.memSize) :
    Ends s i { s with status := s.status.completed, mem := m }

/-- A completion that writes a byte sequence into the destination window. -/
theorem ends_insertBytes {s : State} {i : Instr} {bs : List Byte} (hi : i ≠ .clrerr) (hd : valid s s.dst s.dstlen)
    (hl : bs.length ≤ s.dstlen.toNat) :
    Ends s i { s with status := s.status.completed, mem := insertBytes s.mem s.dst.toNat bs } := by
  refine .stored hi (fun hw => wf_insertBytes bs hw _) fun c hc => (mem_insertBytes bs hc).imp id fun h => ?_
  unfold valid at hd
  omega

/-- How a pixel command ends: a fault, or its moves. -/
theorem pixelCommand_ends {ls ld : Nat} {p : List Nat} {moves : List (Nat × Nat)} {s t : State} {i : Instr}
    (hi : i ≠ .clrerr) (h : pixelCommand ls ld p moves s = .next t) : Ends s i t := by
  rcases pixelCommand_cases ls ld p moves s with ⟨_, _, ⟨rfl, -⟩ | ⟨rfl, -⟩, he⟩ | ⟨_, _, _, _, _, hm⟩
  · exact eq_of_next he h ▸ .fault _ (by decide)
  · exact eq_of_next he h ▸ .fault _ (by decide)
  · obtain ⟨u, hu, rfl⟩ := completeWrite_next (hm.symm.trans h)
    obtain ⟨hs, hwf, hin, -⟩ := movePixels_frame hu
    rw [hs]
    exact .stored hi hwf hin

/-- `DDSPARSE` faults on a header's contents with two kinds only. -/
theorem ddsparseFault_code {c : DdsConst} {d : List Byte} {k : FaultKind} {info : Word}
    (h : ddsparseFault c d = some (k, info)) : k.code ∈ writtenCodes := by
  have hk : k = .badMagic ∨ k = .unsupportedFormat := by
    unfold ddsparseFault at h
    split_ifs at h
    · cases h; exact .inl rfl
    · cases h; exact .inr rfl
    · cases h; exact .inr rfl
    · cases h; exact .inr rfl
    · split at h <;> cases h
      exact .inr rfl
  rcases hk with rfl | rfl <;> decide

/-- `DDSPATCH` ends in one of its faults or with the patched header stored. -/
theorem execDdspatch_ends {s t : State} (h : execDdspatch s = .next t) : Ends s .ddspatch t := by
  rcases execDdspatch_cases s with ⟨k, info, he, hk⟩ | ⟨f, _, hd, _, hl, _, _, he⟩
  · have hk : k = .rangeError ∨ k = .configurationError ∨ k = .truncatedHeader ∨ k = .unsupportedFormat
        ∨ k = .badMagic := by tauto
    rw [← eq_of_next he h]
    refine .fault info ?_
    rcases hk with rfl | rfl | rfl | rfl | rfl <;> decide
  · exact eq_of_next he h ▸ ends_insertBytes (by decide) hd (by simpa using hl)

/-- Every command ends in one of the ways listed. -/
theorem exec_ends {i : Instr} {s t : State} (h : exec i s = .next t) : Ends s i t := by
  cases i with
  | nop => cases h; exact .stored (by decide) id fun c hc => .inl hc
  | hdrparse =>
    rcases execHdrparse_cases s with ⟨_, he⟩ | ⟨_, _, he⟩ | ⟨_, _, he⟩ <;> rw [← eq_of_next he h]
    · exact .fault _ (by decide)
    · exact .fault _ (by decide)
    · exact .hdrparsed ..
  | hdrupd =>
    rcases execHdrupd_cases s with ⟨_, he⟩ | ⟨_, _, he⟩ | ⟨_, _, _, he⟩ | ⟨_, _, _, _, he⟩ | ⟨_, hd, _, hl, he⟩ <;>
      rw [← eq_of_next he h]
    · exact .fault _ (by decide)
    · exact .fault _ (by decide)
    · exact .fault _ (by decide)
    · exact .fault _ (by decide)
    · exact ends_insertBytes (by decide) hd (by simpa using hl)
  | ddsbuild =>
    rcases execDdsbuild_cases s with ⟨_, he⟩ | ⟨_, _, he⟩ | ⟨_, _, _, he⟩ | ⟨_, hd, hl, _, he⟩ <;>
      rw [← eq_of_next he h]
    · exact .fault _ (by decide)
    · exact .fault _ (by decide)
    · exact .fault _ (by decide)
    · exact ends_insertBytes (by decide) hd (by simpa using hl)
  | ddspatch => exact execDdspatch_ends h
  | ddsparse =>
    rcases execDdsparse_cases s with ⟨_, he⟩ | ⟨_, _, he⟩ | ⟨_, _, _, _, hf, he⟩ | ⟨_, _, _, _, _, he⟩ <;>
      rw [← eq_of_next he h]
    · exact .fault _ (by decide)
    · exact .fault _ (by decide)
    · exact .fault _ (ddsparseFault_code hf)
    · exact .ddsparsed ..
  | detile => exact pixelCommand_ends (by decide) h
  | detileP => exact pixelCommand_ends (by decide) h
  | tile => exact pixelCommand_ends (by decide) h
  | clrerr => cases h; exact .cleared

/-- Settles O27: case by case over the ways a command ends. -/
theorem commandsWriteOnlyTheirRegisters : Obligations.CommandsWriteOnlyTheirRegisters := by
  unfold Obligations.CommandsWriteOnlyTheirRegisters
  intro i s t h
  refine ⟨exec_frame h, ?_⟩
  cases exec_ends h with
  | fault info hk => exact ⟨fun _ _ => ⟨rfl, rfl, rfl⟩, fun _ => rfl, fun _ => rfl⟩
  | hdrparsed w ht m l => exact ⟨fun hp => absurd rfl hp, fun hp => absurd rfl hp, fun _ => rfl⟩
  | ddsparsed w ht m f => exact ⟨fun _ hp => absurd rfl hp, fun _ => rfl, fun hp => absurd rfl hp⟩
  | cleared => exact ⟨fun _ _ => ⟨rfl, rfl, rfl⟩, fun _ => rfl, fun _ => rfl⟩
  | stored hi hwf hin => exact ⟨fun _ _ => ⟨rfl, rfl, rfl⟩, fun _ => rfl, fun _ => rfl⟩

end Sys2Proof.Proofs
end

section
/-! PROOFS. The invariant of rules R30, R31, R34, R35, R201, R212 and R246: reset meets it, and every way the block or
the host moves keeps it. -/

namespace Sys2Proof.Proofs

open Sys2Proof.Machine Sys2Proof.Laws

/-! ### Reset -/

/-- Settles O20. -/
theorem resetValues : Obligations.ResetValues := by
  unfold Obligations.ResetValues
  refine ⟨fun r => ?_, rfl, fun a => rfl⟩
  cases r <;> rfl

/-- The reset values meet the invariant, whatever the parameters and the world outside. -/
theorem inv_of_resetValues {s : State} (hc : s.cfg.wf = true) (hs : s.status = Status.reset) (he : s.errinfo = 0)
    (hp : s.pending = 0) (hm : s.mem = []) : s.Inv where
  params := hc
  status := by constructor <;> simp [hs, he, hp, Status.reset, writtenCodes]
  memory := by constructor <;> simp [hm, Memory.wf]

/-- Settles O21. -/
theorem resetMeetsTheInvariant : Obligations.ResetMeetsTheInvariant :=
  inv_of_resetValues (by decide) rfl rfl rfl rfl

/-! ### The block's moves -/

/-- The invariant speaks of the parameters, the flags, `ERRINFO`, `PENDING`, `MEM` and, in flight, of the hand-over. -/
theorem inv_congr {s t : State} (h : s.Inv) (hc : t.cfg = s.cfg) (hs : t.status = s.status)
    (he : t.errinfo = s.errinfo) (hp : t.pending = s.pending) (hm : t.mem = s.mem)
    (ho : s.status.busy = true → t.host.handedOver = s.host.handedOver) : t.Inv := by
  obtain ⟨hcfg, hst, ⟨hwf, hin⟩⟩ := h
  refine ⟨hc ▸ hcfg, ?_, ⟨hm ▸ hwf, by rw [hm, hc]; exact hin⟩⟩
  exact {
    busyNotDone := hs ▸ hst.busyNotDone
    doneNotErr := hs ▸ hst.doneNotErr
    codeIffErr := hs ▸ hst.codeIffErr
    codeWritten := hs ▸ hst.codeWritten
    infoZero := by rw [hs, he]; exact hst.infoZero
    lastopPending := by rw [hs, hp]; exact hst.lastopPending
    gated := by rw [hs, hp]; exact hst.gated
    handed := fun hb => (ho (hs ▸ hb)).trans (hst.handed (hs ▸ hb)) }

theorem inv_takeTurn {s : State} (h : s.Inv) : s.takeTurn.Inv :=
  inv_congr h (by simp) (by simp) (by simp) (by simp) (by simp) (by simp)

/-- Fault entry with a code that is ever written keeps the invariant. -/
theorem inv_enterFault {s : State} {k : FaultKind} (info : Word) (hk : k.code ∈ writtenCodes) (h : s.Inv) :
    (enterFault k info s).Inv := by
  have hne : k.code ≠ 0#4 := code_ne_zero k
  refine ⟨h.params, ?_, ⟨h.memory.canonical, h.memory.inside⟩⟩
  constructor <;> simp [hne, hk, h.status.lastopPending]

/-- A word decodes only to the command it encodes (rule R95). -/
theorem encode_of_decode {c : Word} {i : Instr} (h : decode c = some i) : encode i = c := by
  have hrows : ∀ r ∈ opcodeTable, r.mask = BitVec.allOnes 32 ∧ r.pattern = encode r.instr := by decide
  obtain ⟨r, hr, rfl⟩ := Option.map_eq_some_iff.1 h
  obtain ⟨hmask, hpat⟩ := hrows r (List.mem_of_find?_eq_some hr)
  have hsel : r.selects c = true := List.find?_some (p := fun r : OpcodeRow => r.selects c) hr
  rw [OpcodeRow.selects, hmask, BitVec.and_allOnes, beq_iff_eq] at hsel
  exact hpat.symm.trans hsel.symm

/-- Of the ten commands only `CLRERR` passes the gate of rule R212. -/
theorem eq_clrerr_of_opcode {i : Instr} (h : (encode i).extractLsb' 0 8 = 0x08#8) : i = .clrerr := by
  revert h; cases i <;> decide

/-- A command other than `CLRERR` is in flight only while no fault is recorded (rule R212). -/
theorem err_eq_false_of_inFlight {s : State} {i : Instr} (h : s.StatusInv) (hb : s.status.busy = true)
    (hd : decode s.pending = some i) (hi : i ≠ .clrerr) : s.status.err = false := by
  by_contra herr
  have hop := h.gated hb (by simpa using herr)
  exact hi (eq_clrerr_of_opcode (encode_of_decode hd ▸ hop))

/-- A completion that leaves `ERRINFO` and `PENDING` and keeps `MEM` inside its bounds keeps the invariant, where no
fault is recorded. -/
theorem inv_completed {s t : State} (h : s.Inv) (herr : s.status.err = false) (hc : t.cfg = s.cfg)
    (hs : t.status = s.status.completed) (he : t.errinfo = s.errinfo) (hp : t.pending = s.pending)
    (hm : t.MemInv) : t.Inv := by
  obtain ⟨_, _, hcode, hcw, hinfo, hlast, _, _⟩ := h.status
  refine ⟨hc ▸ h.params, ?_, hm⟩
  constructor <;> simp_all

/-- Every end of a command in flight keeps the invariant. -/
theorem inv_of_ends {s t : State} {i : Instr} (h : s.Inv) (hb : s.status.busy = true)
    (hd : decode s.pending = some i) (he : Ends s i t) : t.Inv := by
  cases he with
  | fault info hk => exact inv_enterFault info hk h
  | hdrparsed =>
    exact inv_completed h (err_eq_false_of_inFlight h.status hb hd (by decide)) rfl rfl rfl rfl
      ⟨h.memory.canonical, h.memory.inside⟩
  | ddsparsed =>
    exact inv_completed h (err_eq_false_of_inFlight h.status hb hd (by decide)) rfl rfl rfl rfl
      ⟨h.memory.canonical, h.memory.inside⟩
  | cleared =>
    refine ⟨h.params, ?_, ⟨h.memory.canonical, h.memory.inside⟩⟩
    constructor <;> simp [h.status.lastopPending, writtenCodes]
  | stored hi hwf hin =>
    exact inv_completed h (err_eq_false_of_inFlight h.status hb hd hi) rfl rfl rfl rfl
      ⟨hwf h.memory.canonical, fun c hc => (hin c hc).elim (h.memory.inside c) id⟩

theorem completionStep_keeps_inv {s t : State} (h : s.Inv) (hb : s.status.busy = true)
    (ht : completionStep s = .next t) : t.Inv := by
  cases hd : decode s.pending with
  | none => exact eq_of_next (completionStep_none hd) ht ▸ inv_enterFault _ (by decide) h
  | some i => exact inv_of_ends h hb hd (exec_ends ((completionStep_some hd).symm.trans ht))

/-! ### The host's moves -/

/-- An accepted word that the gate lets through keeps the invariant (rules R195, R212). -/
theorem inv_accept {s : State} {c : Word} (h : s.Inv)
    (hgate : s.status.err = true → c.extractLsb' 0 8 = 0x08#8) : (accept s c).Inv := by
  obtain ⟨_, _, hcode, hcw, hinfo, _, _, _⟩ := h.status
  refine ⟨h.params, ?_, ⟨h.memory.canonical, h.memory.inside⟩⟩
  constructor <;> simp_all

theorem inv_issue {s : State} (c : Word) (h : s.Inv) : (issue s c).Inv := by
  unfold issue
  split_ifs with hg
  · exact h
  · exact inv_accept h fun he => by_contra fun hc => hg ⟨he, hc⟩

theorem inv_writeReg {s : State} (r : Reg) (v : Word) (h : s.Inv) : (writeReg s r v).Inv := by
  obtain ⟨hc, hs, he, hp, hm, -, -, hh, -⟩ := writeReg_frame s r v
  exact inv_congr h hc hs he hp hm fun _ => by rw [hh]

theorem inv_hostRegWrite {s : State} (off : Nat) (v : Word) (h : s.Inv) : (hostRegWrite s off v).Inv := by
  unfold hostRegWrite
  split
  · exact h
  · split
    · exact h
    · exact inv_issue v h
    · exact inv_writeReg _ v h

theorem inv_withScript {s : State} (script : List HostTxn) (h : s.Inv) : (s.withScript script).Inv :=
  inv_congr h rfl rfl rfl rfl rfl fun _ => rfl

theorem inv_withReturned {s : State} (r : Returned) (h : s.Inv) : (s.withReturned r).Inv :=
  inv_congr h rfl rfl rfl rfl rfl fun _ => rfl

/-- A `STATUS` read while `BUSY = 1` gives nothing back. -/
theorem inv_withStatusRead {s : State} (h : s.Inv) : s.withStatusRead.Inv :=
  inv_congr h rfl rfl rfl rfl rfl fun hb => by simp [hb]

theorem inv_withMemAccess {s : State} (h : s.Inv) : s.withMemAccess.Inv :=
  inv_congr h rfl rfl rfl rfl rfl fun _ => rfl

/-- A byte written below `MEM_SIZE` keeps the invariant. -/
theorem inv_insertCell {s : State} {a : Nat} (b : Byte) (ha : a < s.cfg.memSize) (h : s.Inv) :
    State.Inv { s with mem := insertCell s.mem a b } := by
  obtain ⟨h1, h2, h3, h4, h5, h6, h7, h8⟩ := h.status
  refine ⟨h.params, ⟨h1, h2, h3, h4, h5, h6, h7, h8⟩, wf_insertCell h.memory.canonical a b, fun c hc => ?_⟩
  rcases mem_insertCell hc with rfl | hc
  · exact ha
  · exact h.memory.inside c hc

/-- A host access to `MEM` that is not refused lies inside it. -/
theorem lt_memSize_of_not_refused {s : State} {a : Nat} (h : memRefusal s a = none) : a < s.cfg.memSize := by
  rcases memRefusal_cases s a with ⟨_, hr⟩ | ⟨_, _, hr⟩ | ⟨_, _, _, hr⟩ | ⟨_, _, ha, _⟩
  · simp [hr] at h
  · simp [hr] at h
  · simp [hr] at h
  · exact ha

/-- A transaction that has a meaning keeps the invariant; its script is shorter by then, which no refusal looks at. -/
theorem inv_transaction {s : State} {x : HostTxn} (rest : List HostTxn) (h : s.Inv) (hx : refusalOf s x = none) :
    (transaction x (s.withScript rest)).Inv := by
  have h' := inv_withScript rest h
  cases x with
  | regWrite size off v => exact inv_hostRegWrite off v h'
  | regRead size off =>
    simp only [transaction]
    apply inv_withReturned
    split
    · exact inv_withStatusRead h'
    · exact h'
  | memWrite a b => exact inv_insertCell b (lt_memSize_of_not_refused hx) (inv_withMemAccess h')
  | memRead a => exact inv_withReturned _ (inv_withMemAccess h')
  | poll =>
    simp only [transaction]
    split
    · exact inv_withScript _ h'
    · exact inv_withReturned _ (inv_withStatusRead h')
  | resetN level => exact inv_congr h' rfl rfl rfl rfl rfl fun _ => rfl

theorem inv_transactionInReset {s : State} (x : HostTxn) (h : s.Inv) : (transactionInReset x s).Inv := by
  cases x with
  | resetN level =>
    cases level
    · exact h
    · exact inv_of_resetValues h.params rfl rfl rfl rfl
  | memWrite a b => exact inv_withMemAccess h
  | memRead a => exact inv_withMemAccess h
  | regWrite size off v => exact h
  | regRead size off => exact h
  | poll => exact h

theorem hostStep_keeps_inv {s t : State} (h : s.Inv) (ht : hostStep s = .next t) : t.Inv := by
  rcases hostStep_cases s with ⟨_, he⟩ | ⟨x, rest, _, ⟨_, _, he⟩ | ⟨hx, _, he⟩ | ⟨_, _, he⟩⟩
  · exact eq_of_next he ht ▸ h
  · cases he.symm.trans ht
  · exact eq_of_next he ht ▸ inv_transaction rest h hx
  · exact eq_of_next he ht ▸ inv_transactionInReset x (inv_withScript rest h)

/-! ### A step of the machine -/

/-- The block moves only while a command is in flight, the reset is released, and the host has nothing to do or is not
scheduled. -/
theorem blockMoves_of_nextAgent {s : State} (h : s.nextAgent = .block) : Claims.BlockMoves s := by
  have hen : s.blockEnabled = true := by
    by_contra hn
    simp [State.nextAgent, State.contended, hn] at h
  obtain ⟨hr, hb⟩ : s.resetN = true ∧ s.status.busy = true := by simpa [State.blockEnabled] using hen
  refine ⟨hb, hr, or_iff_not_imp_left.2 fun hs hturn => ?_⟩
  simp [State.nextAgent, State.contended, hen, hs, List.headD_eq_head?_getD, hturn] at h

/-- Settles O22: the block's move keeps the invariant because of the gate, the host's because a refused access to `MEM`
takes no step. -/
theorem stepKeepsTheInvariant : Obligations.StepKeepsTheInvariant := by
  unfold Obligations.StepKeepsTheInvariant
  intro s t h ht
  cases ha : s.nextAgent with
  | block =>
    have hb : s.takeTurn.status.busy = true := by simpa using (blockMoves_of_nextAgent ha).1
    exact completionStep_keeps_inv (inv_takeTurn h) hb ((step_block ha).symm.trans ht)
  | host => exact hostStep_keeps_inv (inv_takeTurn h) ((step_host ha).symm.trans ht)

end Sys2Proof.Proofs
end

section
/-! PROOFS. The two rules about who changes one bit of the state: `ERR` (rule R32) and `SWZ` (rule R25). -/

namespace Sys2Proof.Proofs

open Sys2Proof.Machine Sys2Proof.Laws Sys2Proof.Claims

/-! ### Who clears `ERR` -/

/-- A completion step clears `ERR` only when the word in flight is `CLRERR`. -/
theorem decode_eq_clrerr_of_err_cleared {s t : State} (h : completionStep s = .next t)
    (hs : s.status.err = true) (ht : t.status.err = false) : decode s.pending = some .clrerr := by
  cases hd : decode s.pending with
  | none =>
    rw [← eq_of_next (completionStep_none hd) h] at ht
    cases ht
  | some i =>
    cases exec_ends ((completionStep_some hd).symm.trans h) with
    | fault => cases ht
    | hdrparsed => cases hs.symm.trans ht
    | ddsparsed => cases hs.symm.trans ht
    | cleared => rfl
    | stored => cases hs.symm.trans ht

@[simp] theorem writeReg_status (s : State) (r : Reg) (v : Word) : (writeReg s r v).status = s.status :=
  (writeReg_frame s r v).2.1

@[simp] theorem issue_err (s : State) (c : Word) : (issue s c).status.err = s.status.err := by
  unfold issue; split <;> rfl

@[simp] theorem hostRegWrite_err (s : State) (off : Nat) (v : Word) :
    (hostRegWrite s off v).status.err = s.status.err := by
  unfold hostRegWrite
  split
  · rfl
  · split <;> simp

/-- No transaction of the host changes `ERR` out of reset. -/
@[simp] theorem transaction_err (x : HostTxn) (s : State) : (transaction x s).status.err = s.status.err := by
  cases x with
  | regWrite _ off v => exact hostRegWrite_err s off v
  | regRead _ off => simp only [transaction]; split <;> rfl
  | memWrite a b => rfl
  | memRead a => rfl
  | poll => simp only [transaction]; split <;> rfl
  | resetN level => rfl

/-- While `RESET_N` is low only its release changes a register of the block (rule R240). -/
theorem transactionInReset_registers {x : HostTxn} (hx : x ≠ .resetN true) (s : State) :
    (transactionInReset x s).status = s.status ∧ (transactionInReset x s).swz = s.swz := by
  cases x with
  | resetN level =>
    cases level
    · exact ⟨rfl, rfl⟩
    · exact absurd rfl hx
  | _ => exact ⟨rfl, rfl⟩

/-- Settles O24: the block by its command, the host by the release of the reset alone. -/
theorem onlyClrerrAndResetClearErr : Obligations.OnlyClrerrAndResetClearErr := by
  unfold Obligations.OnlyClrerrAndResetClearErr
  intro s t h hs ht
  cases ha : s.nextAgent with
  | block =>
    have hd := decode_eq_clrerr_of_err_cleared ((step_block ha).symm.trans h) (by simpa using hs) ht
    have hp : s.pending = encode .clrerr := by simpa using (encode_of_decode hd).symm
    exact .inl ⟨blockMoves_of_nextAgent ha, hp⟩
  | host =>
    have hh := (step_host ha).symm.trans h
    rcases hostStep_cases s.takeTurn with ⟨_, he⟩ | ⟨x, rest, hsc, ⟨_, _, he⟩ | ⟨_, _, he⟩ | ⟨_, hr, he⟩⟩
    · rw [← eq_of_next he hh] at ht; simp [hs] at ht
    · cases he.symm.trans hh
    · rw [← eq_of_next he hh] at ht; simp [hs] at ht
    · refine .inr ⟨by simpa using hr, rest, ?_⟩
      by_cases hx : x = .resetN true
      · simpa [hx] using hsc
      · rw [← eq_of_next he hh, (transactionInReset_registers hx _).1] at ht
        simp [hs] at ht

/-! ### Who changes `SWZ` -/

/-- The register at an offset stands there (rule R20). -/
theorem offset_of_regAtOffset {off : Nat} {r : Reg} (h : regAtOffset off = some r) : off = r.offset :=
  (beq_iff_eq.1 (List.find?_some (p := fun r : Reg => r.offset == off) h)).symm

/-- A register write changes `SWZ` only at its own offset and while idle, to the low bit of the bus word. -/
theorem hostRegWrite_swz_changed {s : State} {off : Nat} {v : Word} (h : (hostRegWrite s off v).swz ≠ s.swz) :
    off = 0x34 ∧ s.status.busy = false ∧ (hostRegWrite s off v).swz = v.getLsbD 0 := by
  unfold hostRegWrite at h ⊢
  split at h
  · exact absurd rfl h
  · next hb =>
    rw [if_neg hb]
    split at h
    · exact absurd rfl h
    · refine absurd ?_ h
      unfold issue; split <;> rfl
    · next r _ hoff =>
      cases r with
      | swz => exact ⟨offset_of_regAtOffset hoff, by simpa using hb, rfl⟩
      | _ => exact absurd rfl h

/-- A transaction changes `SWZ` out of reset only as a register write does. -/
theorem transaction_swz_changed {x : HostTxn} {s : State} (h : (transaction x s).swz ≠ s.swz) :
    ∃ size off v, x = .regWrite size off v ∧ (hostRegWrite s off v).swz ≠ s.swz := by
  cases x with
  | regWrite size off v => exact ⟨size, off, v, rfl, h⟩
  | regRead _ off => simp only [transaction] at h; split at h <;> exact absurd rfl h
  | memWrite a b => exact absurd rfl h
  | memRead a => exact absurd rfl h
  | poll => simp only [transaction] at h; split at h <;> exact absurd rfl h
  | resetN level => exact absurd rfl h

/-- A register write that has a meaning is a word access (rule R66). -/
theorem size_eq_word_of_not_refused {s : State} {size : AccessSize} {off : Nat} {v : Word}
    (h : refusalOf s (.regWrite size off v) = none) : size = .word := by
  by_contra hs
  simp [refusalOf, hs] at h

/-- Settles O25: no command writes `SWZ`, and the host writes it at its own offset or by the release of the reset. -/
theorem onlyTheHostChangesSwz : Obligations.OnlyTheHostChangesSwz := by
  unfold Obligations.OnlyTheHostChangesSwz
  intro s t h ht
  cases ha : s.nextAgent with
  | block =>
    refine absurd ?_ ht
    simpa [withResults] using congrArg State.swz (completionStep_frame ((step_block ha).symm.trans h))
  | host =>
    have hh := (step_host ha).symm.trans h
    rcases hostStep_cases s.takeTurn with ⟨_, he⟩ | ⟨x, rest, hsc, ⟨_, _, he⟩ | ⟨hx, hr, he⟩ | ⟨_, hr, he⟩⟩
    · rw [← eq_of_next he hh] at ht; simp at ht
    · cases he.symm.trans hh
    · obtain rfl := eq_of_next he hh
      obtain ⟨size, off, v, rfl, hw⟩ := transaction_swz_changed
        (x := x) (s := s.takeTurn.withScript rest) (by simpa using ht)
      obtain ⟨rfl, hb, hv⟩ := hostRegWrite_swz_changed hw
      obtain rfl := size_eq_word_of_not_refused hx
      have hb : s.status.busy = false := by simpa using hb
      exact .inl ⟨v, rest, ⟨by simpa using hsc, by simpa using hr, .inl hb⟩, hb, hv⟩
    · obtain rfl := eq_of_next he hh
      by_cases hx : x = .resetN true
      · subst hx
        exact .inr ⟨by simpa using hr, rfl, rest, by simpa using hsc⟩
      · refine absurd ?_ ht
        simpa using (transactionInReset_registers hx (s.takeTurn.withScript rest)).2

end Sys2Proof.Proofs
end

section
/-! PROOFS. The Morton index grows with the coordinates (rule R164 item 2), so the pixels of an image lie inside the
length of rule R165. -/

namespace Sys2Proof.Proofs

open Sys2Proof.Machine Sys2Proof.Laws

theorem shiftRight_eq_coordBit_add (v i : Nat) : v >>> i = coordBit v i + 2 * v >>> (i + 1) := by
  simp only [coordBit, Nat.shiftRight_succ]
  omega

theorem shiftRight_eq_zero_of_le {v n i : Nat} (hv : v < 2 ^ n) (hi : n ≤ i) : v >>> i = 0 := by
  rw [Nat.shiftRight_eq_div_pow]
  exact Nat.div_eq_of_lt (hv.trans_le (Nat.pow_le_pow_right Nat.two_pos hi))

/-- Where both coordinates grow, what the rounds from `i` on place grows by at least as much as the coordinates do. -/
theorem mortonTail_growth {nx ny x y x' y' : Nat} (hx' : x' < 2 ^ nx) (hy' : y' < 2 ^ ny) (rounds i : Nat)
    (hr : max nx ny ≤ i + rounds) (hx : x >>> i ≤ x' >>> i) (hy : y >>> i ≤ y' >>> i) :
    mortonTail nx ny x y rounds i + x' >>> i + y' >>> i ≤ mortonTail nx ny x' y' rounds i + x >>> i + y >>> i := by
  induction rounds generalizing i with
  | zero =>
    have hx0 : x' >>> i = 0 := shiftRight_eq_zero_of_le hx' (by omega)
    have hy0 : y' >>> i = 0 := shiftRight_eq_zero_of_le hy' (by omega)
    simp [mortonTail, hx0, hy0]
  | succ n ih =>
    have hxb := shiftRight_eq_coordBit_add x i
    have hyb := shiftRight_eq_coordBit_add y i
    have hxb' := shiftRight_eq_coordBit_add x' i
    have hyb' := shiftRight_eq_coordBit_add y' i
    have := coordBit_le_one x i
    have := coordBit_le_one y i
    have := coordBit_le_one x' i
    have := coordBit_le_one y' i
    have ih := ih (i + 1) (by omega) (by omega) (by omega)
    simp only [mortonTail]
    split
    · split
      · omega
      · have := shiftRight_eq_zero_of_le hy' (i := i) (by omega)
        omega
    · have := shiftRight_eq_zero_of_le hx' (i := i) (by omega)
      split
      · omega
      · have := shiftRight_eq_zero_of_le hy' (i := i) (by omega)
        omega

theorem lt_two_pow_nbits {d k : Nat} (h : k < d) : k < 2 ^ nbits d := by
  unfold nbits
  split
  · omega
  · exact (Nat.le_sub_one_of_lt h).trans_lt Nat.lt_log2_self

/-- No pixel of an image has an index above its far corner's (rule R164 item 2). -/
theorem interleave_le_zmax {w h x y : Nat} (hx : x < w) (hy : y < h) : interleave w h x y ≤ zmax w h := by
  have hcorner : w - 1 < 2 ^ nbits w ∧ h - 1 < 2 ^ nbits h :=
    ⟨lt_two_pow_nbits (by omega), lt_two_pow_nbits (by omega)⟩
  have := mortonTail_growth hcorner.1 hcorner.2 (x := x) (y := y) (max (nbits w) (nbits h)) 0 (by omega)
    (Nat.le_sub_one_of_lt hx) (Nat.le_sub_one_of_lt hy)
  simp only [zmax, interleave_eq, Nat.shiftRight_zero] at this ⊢
  omega

theorem rasterIndex_lt {w h x y : Nat} (hx : x < w) (hy : y < h) : rasterIndex w x y < w * h := by
  have : (y + 1) * w ≤ h * w := Nat.mul_le_mul_right w hy
  rw [Nat.add_mul, one_mul, Nat.mul_comm h] at this
  unfold rasterIndex
  omega

/-- A pixel lies inside the length needed on the raster side (rule R165). -/
theorem rasterIndex_mem_length {w h x y : Nat} (hx : x < w) (hy : y < h) :
    bpp * rasterIndex w x y + bpp ≤ rasterLength w h := by
  have := rasterIndex_lt hx hy
  simp only [rasterLength, bpp]
  omega

/-- A pixel lies inside the length needed on the tiled side (rule R165). -/
theorem tiledIndex_mem_length {swz : Bool} {w h x y : Nat} (hx : x < w) (hy : y < h) :
    bpp * tiledIndex swz w h x y + bpp ≤ tiledLength swz w h := by
  have hlt := rasterIndex_lt hx hy
  have hz := interleave_le_zmax hx hy
  rw [tiledLength, if_neg (by omega)]
  cases swz <;> simp only [tiledIndex, bpp, Bool.false_eq_true, if_true, if_false] <;> omega

end Sys2Proof.Proofs
end

section
/-! PROOFS. A command learns of `MEM` only the source window (rules R26, R67): the same command run on two contents of
`MEM` that agree there. -/

namespace Sys2Proof.Proofs

open Sys2Proof.Machine Sys2Proof.Laws

/-- `s` with another content of `MEM`: other written bytes, and another unknown launch content. -/
def withMem (s : State) (m : List Host.Cell) (e : Nat) : State := { s with mem := m, epoch := e }

@[simp] theorem withMem_cfg (s : State) (m : List Host.Cell) (e : Nat) : (withMem s m e).cfg = s.cfg := rfl
@[simp] theorem withMem_src (s : State) (m : List Host.Cell) (e : Nat) : (withMem s m e).src = s.src := rfl
@[simp] theorem withMem_fmt (s : State) (m : List Host.Cell) (e : Nat) : (withMem s m e).fmt = s.fmt := rfl

/-- The two contents of `MEM` agree on the `n` bytes from address `a`. -/
def AgreeOn (s : State) (m : List Host.Cell) (e a n : Nat) : Prop :=
  ∀ k, a ≤ k → k < a + n → (withMem s m e).byte k = s.byte k

/-- Every byte is the same in `v` and `t`, or as it was before in both, which is in `u` and `s`. -/
def SameOrKept (s u t v : State) : Prop :=
  ∀ k, v.byte k = t.byte k ∨ (v.byte k = u.byte k ∧ t.byte k = s.byte k)

/-- The outcome `r'` from `withMem s m e` follows the outcome `r` from `s`: the same registers, and bytes as
`SameOrKept` says. -/
def Follows (s : State) (m : List Host.Cell) (e : Nat) (r r' : Result) : Prop :=
  ∀ t, r = .next t → ∃ m', r' = .next (withMem t m' e) ∧ SameOrKept s (withMem s m e) t (withMem t m' e)

section

variable {s : State} {m : List Host.Cell} {e : Nat}

/-- The same read inside the bytes where the contents agree. -/
theorem memRead_withMem {a n b k : Nat} (h : AgreeOn s m e a n) (hb : a ≤ b) (hk : b + k ≤ a + n) :
    memRead (withMem s m e) b k = memRead s b k := by
  have hbytes : (withMem s m e).bytes b k = s.bytes b k :=
    List.map_congr_left fun j hj => h _ (by omega) (by have := List.mem_range.1 hj; omega)
  simp only [memRead, hbytes]
  rfl

/-- An outcome that leaves `MEM` alone follows itself. -/
theorem follows_of_mem_eq {t : State} (hm : t.mem = s.mem) (he : t.epoch = s.epoch) :
    Follows s m e (.next t) (.next (withMem t m e)) := by
  rintro _ ⟨⟩
  exact ⟨m, rfl, fun k => .inr ⟨rfl, byte_congr hm he k⟩⟩

theorem follows_raise (k : FaultKind) (info : Word) : Follows s m e (raise k info s) (raise k info (withMem s m e)) :=
  follows_of_mem_eq rfl rfl

/-- A test that looks at no byte takes the same fault in both, or in neither. -/
theorem follows_test {c : Prop} [Decidable c] {k : FaultKind} {info : Word} {r r' : Result}
    (h : ¬ c → Follows s m e r r') :
    Follows s m e (if c then raise k info s else r) (if c then raise k info (withMem s m e) else r') := by
  split_ifs with hc
  · exact follows_raise k info
  · exact h hc

/-- The same bytes written at the same address. -/
theorem sameOrKept_insertBytes (a : Nat) (bs : List Byte) :
    SameOrKept s (withMem s m e) { s with mem := insertBytes s.mem a bs } (withMem s (insertBytes m a bs) e) := by
  intro k
  have hs := byte_insertBytes s a k bs
  have hu : (withMem s (insertBytes m a bs) e).byte k = _ := byte_insertBytes (withMem s m e) a k bs
  rw [hs, hu]
  split
  · exact .inl rfl
  · exact .inr ⟨rfl, rfl⟩

theorem follows_memWrite (a : Nat) (bs : List Byte) :
    Follows s m e (completeWrite (memWrite s a bs)) (completeWrite (memWrite (withMem s m e) a bs)) := by
  intro t ht
  obtain ⟨u, hu, rfl⟩ := completeWrite_next ht
  obtain ⟨hin, rfl⟩ := memWrite_ok hu
  rw [memWrite_eq_ok (s := withMem s m e) hin]
  exact ⟨insertBytes m a bs, rfl, sameOrKept_insertBytes (s := s) a bs⟩

/-- `DDSBUILD` reads no byte at all. -/
theorem follows_ddsbuild : Follows s m e (execDdsbuild s) (execDdsbuild (withMem s m e)) := by
  refine follows_test fun _ => ?_
  refine follows_test fun _ => ?_
  rw [withMem_fmt]
  cases formatOfBits s.fmt with
  | none => exact follows_raise _ _
  | some f => exact follows_memWrite _ _

end

/-- Agreement is kept by bytes that are the same or kept. -/
theorem AgreeOn.of_sameOrKept {s t : State} {m m' : List Host.Cell} {e a n : Nat} (h : AgreeOn s m e a n)
    (hk : SameOrKept s (withMem s m e) t (withMem t m' e)) : AgreeOn t m' e a n := by
  intro k ha hn
  rcases hk k with h' | ⟨hu, ht⟩
  · exact h'
  · rw [hu, ht, h k ha hn]

theorem SameOrKept.trans {s u t v t' v' : State} (h₁ : SameOrKept s u t v) (h₂ : SameOrKept t v t' v') :
    SameOrKept s u t' v' := by
  intro k
  rcases h₂ k with h | ⟨hv, ht⟩
  · exact .inl h
  · rw [hv, ht]; exact h₁ k

/-- Pixel moves whose sources lie where the contents agree, one after another. -/
theorem movePixels_withMem {p : List Nat} {moves : List (Nat × Nat)} {s t : State} {m : List Host.Cell}
    {e a n : Nat} (h : AgreeOn s m e a n) (hsrc : ∀ q ∈ moves, a ≤ q.1 ∧ q.1 + bpp ≤ a + n)
    (ht : movePixels p moves s = .ok t) :
    ∃ m', movePixels p moves (withMem s m e) = .ok (withMem t m' e)
      ∧ SameOrKept s (withMem s m e) t (withMem t m' e) := by
  induction moves generalizing s m with
  | nil => cases ht; exact ⟨m, rfl, fun k => .inr ⟨rfl, rfl⟩⟩
  | cons q moves ih =>
    obtain ⟨b, d⟩ := q
    obtain ⟨hb, hd, hrest⟩ := movePixels_cons ht
    obtain ⟨h1, h2⟩ := hsrc (b, d) List.mem_cons_self
    have hstep := sameOrKept_insertBytes (s := s) (m := m) (e := e) d (permute p (s.bytes b 4))
    obtain ⟨m', hm', hkept⟩ := ih (h.of_sameOrKept hstep) (fun q hq => hsrc q (List.mem_cons_of_mem _ hq)) hrest
    refine ⟨m', ?_, hstep.trans hkept⟩
    simp only [movePixels, memRead_withMem h h1 h2, memRead_eq_ok hb]
    rw [memWrite_eq_ok (s := withMem s m e) (by rw [length_permute]; exact hd)]
    exact hm'

/-- A pixel command whose moves read inside its needed source length. -/
theorem follows_pixelCommand {s : State} {m : List Host.Cell} {e : Nat}
    (h : AgreeOn s m e s.src.toNat s.srclen.toNat) (ls ld : Nat) (p : List Nat) {moves : List (Nat × Nat)}
    (hsrc : ∀ q ∈ moves, s.src.toNat ≤ q.1 ∧ q.1 + bpp ≤ s.src.toNat + ls) :
    Follows s m e (pixelCommand ls ld p moves s) (pixelCommand ls ld p moves (withMem s m e)) := by
  refine follows_test fun _ => ?_
  refine follows_test fun _ => ?_
  refine follows_test fun hls => ?_
  refine follows_test fun _ => ?_
  refine follows_test fun _ => ?_
  intro t ht
  obtain ⟨u, hu, rfl⟩ := completeWrite_next ht
  obtain ⟨m', hm', hkept⟩ := movePixels_withMem h (fun q hq => ⟨(hsrc q hq).1, by have := hsrc q hq; omega⟩) hu
  exact ⟨m', by rw [hm']; rfl, hkept⟩

/-- `DETILE` reads inside the needed tiled length (rules R165, R170). -/
theorem detileMoves_source (s : State) : ∀ q ∈ detileMoves s, s.src.toNat ≤ q.1
    ∧ q.1 + bpp ≤ s.src.toNat + tiledLength s.swz s.width.toNat s.height.toNat := by
  intro q hq
  obtain ⟨⟨x, y⟩, hxy, rfl⟩ := List.mem_map.1 hq
  obtain ⟨hx, hy⟩ := mem_pixels.1 hxy
  have := tiledIndex_mem_length (swz := s.swz) hx hy
  dsimp only
  omega

/-- `TILE` reads inside the needed raster length (rules R165, R175). -/
theorem tileMoves_source (s : State) : ∀ q ∈ tileMoves s, s.src.toNat ≤ q.1
    ∧ q.1 + bpp ≤ s.src.toNat + rasterLength s.width.toNat s.height.toNat := by
  intro q hq
  obtain ⟨⟨x, y⟩, hxy, rfl⟩ := List.mem_map.1 hq
  obtain ⟨hx, hy⟩ := mem_pixels.1 hxy
  have := rasterIndex_mem_length hx hy
  dsimp only
  omega

section

variable {s : State} {m : List Host.Cell} {e : Nat} (h : AgreeOn s m e s.src.toNat s.srclen.toNat)
include h

/-- A read of the first `n` bytes of the source window, which is at least that long. -/
theorem memRead_source {n : Nat} (hn : ¬ s.srclen.toNat < n) :
    memRead (withMem s m e) s.src.toNat n = memRead s s.src.toNat n :=
  memRead_withMem h le_rfl (by omega)

theorem follows_hdrparse : Follows s m e (execHdrparse s) (execHdrparse (withMem s m e)) := by
  refine follows_test fun _ => ?_
  refine follows_test fun hn => ?_
  rw [withMem_src, memRead_source h hn]
  cases memRead s s.src.toNat hdrLen with
  | error f => rintro _ ⟨⟩
  | ok d => exact follows_of_mem_eq rfl rfl

theorem follows_hdrupd : Follows s m e (execHdrupd s) (execHdrupd (withMem s m e)) := by
  refine follows_test fun _ => ?_
  refine follows_test fun _ => ?_
  refine follows_test fun hn => ?_
  refine follows_test fun _ => ?_
  rw [withMem_src, memRead_source h hn]
  cases memRead s s.src.toNat hdrLen with
  | error f => rintro _ ⟨⟩
  | ok d => exact follows_memWrite _ _

theorem follows_ddspatch : Follows s m e (execDdspatch s) (execDdspatch (withMem s m e)) := by
  refine follows_test fun _ => ?_
  refine follows_test fun _ => ?_
  refine follows_test fun _ => ?_
  refine follows_test fun hn => ?_
  refine follows_test fun _ => ?_
  rw [withMem_src, memRead_source h hn, withMem_fmt]
  cases formatOfBits s.fmt with
  | none => exact follows_raise _ _
  | some f =>
    cases memRead s s.src.toNat ddsLen with
    | error f => rintro _ ⟨⟩
    | ok d => exact follows_test fun _ => follows_memWrite _ _

theorem follows_ddsparse : Follows s m e (execDdsparse s) (execDdsparse (withMem s m e)) := by
  refine follows_test fun _ => ?_
  refine follows_test fun hn => ?_
  rw [withMem_src, memRead_source h hn]
  cases memRead s s.src.toNat ddsLen with
  | error f => rintro _ ⟨⟩
  | ok d =>
    refine follows_test fun _ => ?_
    refine follows_test fun _ => ?_
    refine follows_test fun _ => ?_
    refine follows_test fun _ => ?_
    rw [withMem_cfg]
    cases formatOf s.cfg.dds d with
    | unsupported k => exact follows_raise _ _
    | ok f => exact follows_of_mem_eq rfl rfl

/-- Every command's outcome follows from the source window. -/
theorem follows_exec (i : Instr) : Follows s m e (exec i s) (exec i (withMem s m e)) := by
  cases i with
  | nop => exact follows_of_mem_eq rfl rfl
  | hdrparse => exact follows_hdrparse h
  | hdrupd => exact follows_hdrupd h
  | ddsbuild => exact follows_ddsbuild
  | ddspatch => exact follows_ddspatch h
  | ddsparse => exact follows_ddsparse h
  | detile => exact follows_pixelCommand h _ _ _ (detileMoves_source s)
  | detileP => exact follows_pixelCommand h _ _ _ (detileMoves_source s)
  | tile => exact follows_pixelCommand h _ _ _ (tileMoves_source s)
  | clrerr => exact follows_of_mem_eq rfl rfl

end

/-- Settles O30: command by command, the tests look at no byte and the reads stay in the source window. -/
theorem commandsSeeOnlyTheSourceWindow : Obligations.CommandsSeeOnlyTheSourceWindow := by
  unfold Obligations.CommandsSeeOnlyTheSourceWindow
  intro i s t m e h ht
  obtain ⟨m', hm', hkept⟩ := follows_exec h i t ht
  exact ⟨withMem t m' e, hm', rfl, hkept⟩

end Sys2Proof.Proofs
end

section
/-! PROOFS. The host's turn, and from it rule R66: a misshapen register access gets no step. -/

namespace Sys2Proof.Proofs

open Sys2Proof.Machine Sys2Proof.Laws

/-- The host's transaction is up: the step is the host's, out of reset and in it (rules R198, R241). -/
theorem nextAgent_of_hostActs {s : State} {x : HostTxn} {rest : List HostTxn} (h : Claims.HostActs s x rest) :
    s.nextAgent = .host ∧ s.host.script = x :: rest := by
  rcases h with ⟨hs, hr, hb | ⟨hb, ht⟩⟩ | ⟨hr, hs⟩
  · exact ⟨(nextAgent_idle hb).1, hs⟩
  · refine ⟨?_, hs⟩
    simp [State.nextAgent, State.contended, State.blockEnabled, hs, hr, hb, List.headD_eq_head?_getD, ht]
  · exact ⟨(nextAgent_reset hr).1, hs⟩

/-- A transaction without a meaning is refused when it is up. -/
theorem step_refused {s : State} {x : HostTxn} {rest : List HostTxn} {r : Refusal} (h : Claims.HostActs s x rest)
    (hr : refusalOf s.takeTurn x = some r) : step s = .refused r := by
  obtain ⟨ha, hs⟩ := nextAgent_of_hostActs h
  simp [step_host ha, hostStep, hs, hr]

/-- Settles O16: the form of a register access is all that its refusal looks at. -/
theorem misshapenRegisterAccessIsRefused : Obligations.MisshapenRegisterAccessIsRefused := by
  unfold Obligations.MisshapenRegisterAccessIsRefused
  intro s size off v rest hform
  have hmis : ¬ registerAccess size off := by
    rintro ⟨hsize, halign, hin⟩
    rcases hform with h | h | h
    · exact h hsize
    · exact h halign
    · omega
  exact ⟨fun h => step_refused h (if_neg hmis), fun h => step_refused h (if_neg hmis)⟩

end Sys2Proof.Proofs
end

section
/-! PROOFS. What a list of byte writes leaves in `MEM`, and that writing it again changes nothing (for rule R68). -/

namespace Sys2Proof.Proofs

open Sys2Proof.Machine Sys2Proof.Laws

/-! ### Writes of single bytes -/

/-- Of two writes at one address the second alone counts. -/
theorem insertCell_overwrite (m : List Host.Cell) (a : Nat) (b c : Byte) :
    insertCell (insertCell m a b) a c = insertCell m a c := by
  induction m with
  | nil => simp [insertCell]
  | cons x m ih =>
    obtain ⟨k, y⟩ := x
    by_cases hlt : a < k
    · simp [insertCell, hlt]
    · by_cases heq : a = k
      · simp [insertCell, heq]
      · simp [insertCell, hlt, heq, ih]

/-- Writes at two addresses can be made in either order. -/
theorem insertCell_comm (m : List Host.Cell) {a k : Nat} (h : a < k) (b c : Byte) :
    insertCell (insertCell m a b) k c = insertCell (insertCell m k c) a b := by
  induction m with
  | nil => simp [insertCell, h, h.ne', h.asymm]
  | cons x m ih =>
    obtain ⟨j, y⟩ := x
    rcases lt_trichotomy a j with ha | rfl | ha
    · rcases lt_trichotomy k j with hk | rfl | hk
      · simp [insertCell, ha, hk, h, h.ne', h.asymm]
      · simp [insertCell, h, h.ne', h.asymm]
      · simp [insertCell, ha, hk.ne', hk.asymm, h.ne', h.asymm]
    · simp [insertCell, h.ne', h.asymm]
    · have hk : j < k := ha.trans h
      simp [insertCell, ha.ne', ha.asymm, hk.ne', hk.asymm, ih]

/-- `MEM` after the byte writes of a list, first one first. -/
def writeCells : List Host.Cell → List Host.Cell → List Host.Cell
  | m, [] => m
  | m, (a, b) :: cells => writeCells (insertCell m a b) cells

theorem writeCells_append (m cells cells' : List Host.Cell) :
    writeCells m (cells ++ cells') = writeCells (writeCells m cells) cells' := by
  induction cells generalizing m with
  | nil => rfl
  | cons c cells ih => exact ih _

/-- A write is lost where the same address is written again at the end. -/
theorem insertCell_writeCells_insertCell (m cells : List Host.Cell) (a : Nat) (b c : Byte) :
    insertCell (writeCells (insertCell m a b) cells) a c = insertCell (writeCells m cells) a c := by
  induction cells generalizing m with
  | nil => exact insertCell_overwrite m a b c
  | cons x cells ih =>
    obtain ⟨k, y⟩ := x
    simp only [writeCells]
    rcases lt_trichotomy a k with h | rfl | h
    · rw [insertCell_comm m h, ih]
    · rw [insertCell_overwrite]
    · rw [← insertCell_comm m h, ih]

/-- The same writes made again change nothing, even where some of them meet. -/
theorem writeCells_writeCells (m cells : List Host.Cell) :
    writeCells (writeCells m cells) cells = writeCells m cells := by
  induction cells using List.reverseRecOn with
  | nil => rfl
  | append_singleton cells x ih =>
    obtain ⟨a, b⟩ := x
    simp only [writeCells_append, writeCells]
    rw [insertCell_writeCells_insertCell, ih]

/-! ### Writes of byte sequences -/

/-- The byte writes that make up the write of a byte sequence from address `a` upward. -/
def sequenceCells : Nat → List Byte → List Host.Cell
  | _, [] => []
  | a, b :: bs => (a, b) :: sequenceCells (a + 1) bs

theorem insertBytes_eq_writeCells (m : List Host.Cell) (a : Nat) (bs : List Byte) :
    insertBytes m a bs = writeCells m (sequenceCells a bs) := by
  induction bs generalizing m a with
  | nil => rfl
  | cons b bs ih => exact ih _ _

/-- Writing the same byte sequence again changes nothing. -/
theorem insertBytes_insertBytes (m : List Host.Cell) (a : Nat) (bs : List Byte) :
    insertBytes (insertBytes m a bs) a bs = insertBytes m a bs := by
  simp only [insertBytes_eq_writeCells, writeCells_writeCells]

/-- Byte sequences are equal where their bytes are. -/
theorem bytes_eq_of_agree {s t : State} {a n : Nat} (h : ∀ k, a ≤ k → k < a + n → t.byte k = s.byte k) :
    t.bytes a n = s.bytes a n :=
  List.map_congr_left fun j hj => h _ (by omega) (by have := List.mem_range.1 hj; omega)

/-- A write leaves the bytes of a range that it does not meet. -/
theorem bytes_insertBytes_apart (s : State) {a n d : Nat} {bs : List Byte} (h : ¬ overlap a n d bs.length) :
    ({ s with mem := insertBytes s.mem d bs } : State).bytes a n = s.bytes a n :=
  bytes_eq_of_agree fun k ha hn => by
    rw [byte_insertBytes, if_neg]
    rintro ⟨hd, hl⟩
    exact h ⟨by omega, by omega, by omega, by omega⟩

/-- The range just written reads as the bytes written. -/
theorem bytes_insertBytes_same (s : State) (a : Nat) (bs : List Byte) :
    ({ s with mem := insertBytes s.mem a bs } : State).bytes a bs.length = bs := by
  refine ext_byteAt (length_bytes ..) fun k hk => ?_
  rw [length_bytes] at hk
  rw [byteAt_bytes _ _ _ _ hk, byte_insertBytes, if_pos ⟨by omega, by omega⟩, Nat.add_sub_cancel_left]

end Sys2Proof.Proofs
end

section
/-! PROOFS. The moves of a pixel command that passes its tests: they go through, and what they leave in `MEM` (rules
R166, R170, R175). -/

namespace Sys2Proof.Proofs

open Sys2Proof.Machine Sys2Proof.Laws

/-! ### A list of moves as a list of byte writes -/

/-- The byte writes of the moves, each pixel as `MEM` holds it in `s`. -/
def moveCells (p : List Nat) (s : State) (moves : List (Nat × Nat)) : List Host.Cell :=
  moves.flatMap fun q => sequenceCells q.2 (permute p (s.bytes q.1 bpp))

theorem moveCells_congr {p : List Nat} {s t : State} {moves : List (Nat × Nat)}
    (h : ∀ q ∈ moves, t.bytes q.1 bpp = s.bytes q.1 bpp) : moveCells p t moves = moveCells p s moves :=
  List.flatMap_congr fun q hq => by rw [h q hq]

/-- The four bytes at each address of a move lie in `MEM`. -/
def MovesInMem (s : State) (moves : List (Nat × Nat)) : Prop :=
  ∀ q ∈ moves, q.1 + bpp ≤ s.cfg.memSize ∧ q.2 + bpp ≤ s.cfg.memSize

/-- No pixel is read where one is written. -/
def MovesApart (moves : List (Nat × Nat)) : Prop :=
  ∀ q ∈ moves, ∀ r ∈ moves, q.1 + bpp ≤ r.2 ∨ r.2 + bpp ≤ q.1

/-- Moves inside `MEM` that read nothing they write go through, and are the writes of the pixels of before. -/
theorem movePixels_eq {p : List Nat} (hp : p.length = bpp) {moves : List (Nat × Nat)} {s : State}
    (hin : MovesInMem s moves) (hap : MovesApart moves) :
    movePixels p moves s = .ok { s with mem := writeCells s.mem (moveCells p s moves) } := by
  induction moves generalizing s with
  | nil => rfl
  | cons q moves ih =>
    obtain ⟨a, d⟩ := q
    obtain ⟨ha, hd⟩ := hin (a, d) List.mem_cons_self
    have hread : ∀ r ∈ moves, ({ s with mem := insertBytes s.mem d (permute p (s.bytes a bpp)) } : State).bytes r.1 bpp
        = s.bytes r.1 bpp := fun r hr => bytes_insertBytes_apart s <| by
      have := hap r (List.mem_cons_of_mem _ hr) (a, d) List.mem_cons_self
      rw [length_permute, hp]
      rintro ⟨-, -, h1, h2⟩
      dsimp only at this
      omega
    have hrest : movePixels p moves { s with mem := insertBytes s.mem d (permute p (s.bytes a bpp)) } = _ :=
      ih (fun r hr => hin r (List.mem_cons_of_mem _ hr))
        (fun q hq r hr => hap q (List.mem_cons_of_mem _ hq) r (List.mem_cons_of_mem _ hr))
    simp only [movePixels, memRead_eq_ok ha]
    rw [memWrite_eq_ok (by rw [length_permute, hp]; exact hd)]
    simp only [hrest, moveCells_congr hread]
    simp only [moveCells, List.flatMap_cons, writeCells_append, insertBytes_eq_writeCells]

/-! ### The moves of the pixel commands -/

theorem length_permChannels (swz : Bool) : (permChannels swz).length = bpp := by
  cases swz <;> rfl

/-- The moves read inside the first `ls` bytes from `SRC` and write inside the first `ld` bytes from `DST`. -/
def MovesInside (s : State) (ls ld : Nat) (moves : List (Nat × Nat)) : Prop :=
  ∀ q ∈ moves, (s.src.toNat ≤ q.1 ∧ q.1 + bpp ≤ s.src.toNat + ls) ∧ (s.dst.toNat ≤ q.2 ∧ q.2 + bpp ≤ s.dst.toNat + ld)

theorem detileMoves_inside (s : State) : MovesInside s (tiledLength s.swz s.width.toNat s.height.toNat)
    (rasterLength s.width.toNat s.height.toNat) (detileMoves s) := by
  refine fun q hq => ⟨detileMoves_source s q hq, ?_⟩
  obtain ⟨⟨x, y⟩, hxy, rfl⟩ := List.mem_map.1 hq
  obtain ⟨hx, hy⟩ := mem_pixels.1 hxy
  have := rasterIndex_mem_length hx hy
  dsimp only
  omega

theorem tileMoves_inside (s : State) : MovesInside s (rasterLength s.width.toNat s.height.toNat)
    (tiledLength s.swz s.width.toNat s.height.toNat) (tileMoves s) := by
  refine fun q hq => ⟨tileMoves_source s q hq, ?_⟩
  obtain ⟨⟨x, y⟩, hxy, rfl⟩ := List.mem_map.1 hq
  obtain ⟨hx, hy⟩ := mem_pixels.1 hxy
  have := tiledIndex_mem_length (swz := s.swz) hx hy
  dsimp only
  omega

section

variable {s : State} {ls ld : Nat} {moves : List (Nat × Nat)} (h : MovesInside s ls ld moves)
include h

/-- Valid windows of the needed lengths keep the moves in `MEM` (rules R61, R70). -/
theorem MovesInside.inMem (hsrc : valid s s.src s.srclen) (hdst : valid s s.dst s.dstlen) (hls : ls ≤ s.srclen.toNat)
    (hld : ld ≤ s.dstlen.toNat) : MovesInMem s moves := by
  intro q hq
  obtain ⟨⟨-, h1⟩, -, h2⟩ := h q hq
  unfold valid at hsrc hdst
  omega

/-- Needed ranges that do not overlap keep the reads and the writes apart (rule R166). -/
theorem MovesInside.apart (hov : ¬ overlap s.src.toNat ls s.dst.toNat ld) : MovesApart moves := by
  intro q hq r hr
  obtain ⟨⟨h1, h2⟩, -⟩ := h q hq
  obtain ⟨-, h3, h4⟩ := h r hr
  unfold overlap at hov
  simp only [bpp] at *
  omega

/-- All a pixel command can do, its moves known to go through: one of its faults, or the writes of its moves. -/
theorem pixelCommand_outcome {p : List Nat} (hp : p.length = bpp) :
    (∃ k info, (k = .rangeError ∨ k = .overlapError) ∧ pixelCommand ls ld p moves s = .next (enterFault k info s))
      ∨ (ld ≤ s.dstlen.toNat ∧ MovesInMem s moves ∧ MovesApart moves
        ∧ pixelCommand ls ld p moves s = .next { s with
            status := s.status.completed, mem := writeCells s.mem (moveCells p s moves) }) := by
  rcases pixelCommand_cases ls ld p moves s with ⟨k, info, hk, he⟩ | ⟨hsrc, hdst, hls, hld, hov, he⟩
  · exact .inl ⟨k, info, hk.imp And.left And.left, he⟩
  · have hin := h.inMem hsrc hdst hls hld
    have hap := h.apart hov
    rw [movePixels_eq hp hin hap] at he
    exact .inr ⟨hld, hin, hap, he⟩

end

/-- Moves change no byte outside the range that they write. -/
theorem byte_writeCells_moves {p : List Nat} (hp : p.length = bpp) {moves : List (Nat × Nat)} {s : State}
    (hin : MovesInMem s moves) (hap : MovesApart moves) {k : Nat} (hk : ∀ q ∈ moves, k < q.2 ∨ q.2 + bpp ≤ k) :
    ({ s with mem := writeCells s.mem (moveCells p s moves) } : State).byte k = s.byte k := by
  obtain ⟨-, -, -, hbyte⟩ := movePixels_frame (movePixels_eq hp hin hap)
  exact hbyte k (by rwa [hp])

/-- The moves made again find the same pixels. -/
theorem moveCells_writeCells {p : List Nat} (hp : p.length = bpp) {moves : List (Nat × Nat)} {s : State}
    (hin : MovesInMem s moves) (hap : MovesApart moves) :
    moveCells p { s with mem := writeCells s.mem (moveCells p s moves) } moves = moveCells p s moves :=
  moveCells_congr fun q hq => bytes_eq_of_agree fun k ha hk => byte_writeCells_moves hp hin hap fun r hr => by
    have := hap q hq r hr
    omega

end Sys2Proof.Proofs
end

section
/-! PROOFS. What a command's completion changes, said once for all ten with the outcome known to be a next state, and
from it rules R61, R67, R70, R197 and R214. -/

namespace Sys2Proof.Proofs

open Sys2Proof.Machine Sys2Proof.Laws

/-- The codes of the faults that a command can raise: those of rule R201 but for the illegal word, which is no
command's (rules R94, R203). -/
def commandCodes : List (BitVec 4) := [1, 2, 5, 6, 9, 10]

/-- The commands that write no byte of `MEM` (rule R67). -/
def nonStoring : List Instr := [.nop, .hdrparse, .ddsparse, .clrerr]

/-- Every byte outside the destination window is the same in `t` (rules R67, R70). -/
def KeepsOutsideWindow (s t : State) : Prop :=
  ∀ a, a < s.dst.toNat ∨ s.dst.toNat + s.dstlen.toNat ≤ a → t.byte a = s.byte a

/-- The state `t` is one in which command `i` completes from `s`. -/
inductive Completes (s : State) : Instr → State → Prop
  /-- rule R191 -/
  | cleared : Completes s .clrerr { clearError s with status := s.status.cleared.completed }
  /-- a command that writes no byte of `MEM` -/
  | keepsMem {i : Instr} {t : State} (hi : i ≠ .clrerr) (hs : t.status = s.status.completed)
    (he : t.errinfo = s.errinfo) (hm : t.mem = s.mem) : Completes s i t
  /-- a command that writes in the destination window -/
  | stores {i : Instr} {t : State} (hi : i ∉ nonStoring) (hs : t.status = s.status.completed)
    (he : t.errinfo = s.errinfo) (hw : KeepsOutsideWindow s t) : Completes s i t

/-- A completion that writes a byte sequence into the destination window. -/
theorem completes_insertBytes {s : State} {i : Instr} (hi : i ∉ nonStoring) {bs : List Byte}
    (hl : bs.length ≤ s.dstlen.toNat) :
    Completes s i { s with status := s.status.completed, mem := insertBytes s.mem s.dst.toNat bs } :=
  .stores hi rfl rfl fun a ha => (byte_insertBytes s _ a bs).trans (if_neg (by omega))

/-- The command takes one of its faults, or completes. -/
def FaultsOrCompletes (s : State) (i : Instr) : Prop :=
  (∃ k info, k.code ∈ commandCodes ∧ exec i s = .next (enterFault k info s)) ∨ ∃ t, exec i s = .next t ∧ Completes s i t

theorem faultsOrCompletes_pixelCommand {s : State} {i : Instr} (hi : i ∉ nonStoring) {ls ld : Nat} {p : List Nat}
    (hp : p.length = bpp) {moves : List (Nat × Nat)} (hm : MovesInside s ls ld moves)
    (he : exec i s = pixelCommand ls ld p moves s) : FaultsOrCompletes s i := by
  rcases pixelCommand_outcome hm hp with ⟨k, info, hk, ho⟩ | ⟨hld, hin, hap, ho⟩
  · refine .inl ⟨k, info, ?_, he.trans ho⟩
    rcases hk with rfl | rfl <;> decide
  · refine .inr ⟨_, he.trans ho, .stores hi rfl rfl fun a ha => byte_writeCells_moves hp hin hap fun q hq => ?_⟩
    obtain ⟨-, h1, h2⟩ := hm q hq
    omega

/-- The two kinds with which `DDSPARSE` faults on a header's contents. -/
theorem ddsparseFault_kind {c : DdsConst} {d : List Byte} {k : FaultKind} {info : Word}
    (h : ddsparseFault c d = some (k, info)) : k = .badMagic ∨ k = .unsupportedFormat := by
  unfold ddsparseFault at h
  split_ifs at h
  · cases h; exact .inl rfl
  · cases h; exact .inr rfl
  · cases h; exact .inr rfl
  · cases h; exact .inr rfl
  · split at h <;> cases h
    exact .inr rfl

theorem faultsOrCompletes_ddspatch (s : State) : FaultsOrCompletes s .ddspatch := by
  rcases execDdspatch_cases s with ⟨k, info, he, hk⟩ | ⟨f, _, _, _, hl, _, _, he⟩
  · have hk : k = .rangeError ∨ k = .configurationError ∨ k = .truncatedHeader ∨ k = .unsupportedFormat
        ∨ k = .badMagic := by tauto
    refine .inl ⟨k, info, ?_, he⟩
    rcases hk with rfl | rfl | rfl | rfl | rfl <;> decide
  · exact .inr ⟨_, he, completes_insertBytes (by decide) (by simpa using hl)⟩

/-- Every command, in every state, ends in one of its faults or completes. -/
theorem exec_faultsOrCompletes (i : Instr) (s : State) : FaultsOrCompletes s i := by
  cases i with
  | nop => exact .inr ⟨_, rfl, .keepsMem (by decide) rfl rfl rfl⟩
  | hdrparse =>
    rcases execHdrparse_cases s with ⟨_, he⟩ | ⟨_, _, he⟩ | ⟨_, _, he⟩
    · exact .inl ⟨_, _, by decide, he⟩
    · exact .inl ⟨_, _, by decide, he⟩
    · exact .inr ⟨_, he, .keepsMem (by decide) rfl rfl rfl⟩
  | hdrupd =>
    rcases execHdrupd_cases s with ⟨_, he⟩ | ⟨_, _, he⟩ | ⟨_, _, _, he⟩ | ⟨_, _, _, _, he⟩ | ⟨_, _, _, hl, he⟩
    · exact .inl ⟨_, _, by decide, he⟩
    · exact .inl ⟨_, _, by decide, he⟩
    · exact .inl ⟨_, _, by decide, he⟩
    · exact .inl ⟨_, _, by decide, he⟩
    · exact .inr ⟨_, he, completes_insertBytes (by decide) (by simpa using hl)⟩
  | ddsbuild =>
    rcases execDdsbuild_cases s with ⟨_, he⟩ | ⟨_, _, he⟩ | ⟨_, _, _, he⟩ | ⟨_, _, hl, _, he⟩
    · exact .inl ⟨_, _, by decide, he⟩
    · exact .inl ⟨_, _, by decide, he⟩
    · exact .inl ⟨_, _, by decide, he⟩
    · exact .inr ⟨_, he, completes_insertBytes (by decide) (by simpa using hl)⟩
  | ddspatch => exact faultsOrCompletes_ddspatch s
  | ddsparse =>
    rcases execDdsparse_cases s with ⟨_, he⟩ | ⟨_, _, he⟩ | ⟨k, _, _, _, hf, he⟩ | ⟨_, _, _, _, _, he⟩
    · exact .inl ⟨_, _, by decide, he⟩
    · exact .inl ⟨_, _, by decide, he⟩
    · exact .inl ⟨_, _, by rcases ddsparseFault_kind hf with rfl | rfl <;> decide, he⟩
    · exact .inr ⟨_, he, .keepsMem (by decide) rfl rfl rfl⟩
  | detile => exact faultsOrCompletes_pixelCommand (by decide) rfl (detileMoves_inside s) rfl
  | detileP => exact faultsOrCompletes_pixelCommand (by decide) (length_permChannels _) (detileMoves_inside s) rfl
  | tile => exact faultsOrCompletes_pixelCommand (by decide) rfl (tileMoves_inside s) rfl
  | clrerr => exact .inr ⟨_, rfl, .cleared⟩

/-- Settles O9: a fault is the record of rule R210, a completion the status of rule R197, with `CLRERR`'s clearing. -/
theorem everyCommandCompletesOrFaultsWhole : Obligations.EveryCommandCompletesOrFaultsWhole := by
  unfold Obligations.EveryCommandCompletesOrFaultsWhole
  intro i s
  rcases exec_faultsOrCompletes i s with ⟨k, info, hk, h⟩ | ⟨t, h, hc⟩
  · exact ⟨_, h, rfl, .inr ⟨k.code, info, rfl, hk⟩⟩
  · refine ⟨t, h, ?_⟩
    cases hc with
    | cleared => exact ⟨rfl, .inl ⟨rfl, rfl, fun hi => absurd rfl hi⟩⟩
    | keepsMem _ hs he _ => rw [hs]; exact ⟨rfl, .inl ⟨rfl, rfl, fun _ => ⟨rfl, he⟩⟩⟩
    | stores _ hs he _ => rw [hs]; exact ⟨rfl, .inl ⟨rfl, rfl, fun _ => ⟨rfl, he⟩⟩⟩

theorem mem_eq_of_nonStoring {i : Instr} {s t : State} (hi : i ∈ nonStoring) (h : exec i s = .next t) :
    t.mem = s.mem := by
  rcases exec_faultsOrCompletes i s with ⟨k, info, _, he⟩ | ⟨u, he, hc⟩ <;> cases eq_of_next he h
  · rfl
  · cases hc with
    | cleared => rfl
    | keepsMem _ _ _ hm => exact hm
    | stores hn _ _ _ => exact absurd hi hn

/-- The reset that a byte was last unknown at is no command's to change. -/
theorem exec_epoch {i : Instr} {s t : State} (h : exec i s = .next t) : t.epoch = s.epoch := by
  rw [exec_frame h]; rfl

/-- Settles O28: such a command's completion leaves the list of written bytes, and so every byte. -/
theorem nonStoringCommandsKeepMem : Obligations.NonStoringCommandsKeepMem := by
  unfold Obligations.NonStoringCommandsKeepMem
  intro i s t hi h
  have hm : t.mem = s.mem := mem_eq_of_nonStoring (by rcases hi with rfl | rfl | rfl | rfl <;> decide) h
  exact ⟨hm, byte_congr hm (exec_epoch h)⟩

/-- Settles O29: a fault and a command that stores nothing keep every byte, the others write inside the window. -/
theorem storesStayInTheDestinationWindow : Obligations.StoresStayInTheDestinationWindow := by
  unfold Obligations.StoresStayInTheDestinationWindow
  intro i s t h a ha
  rcases exec_faultsOrCompletes i s with ⟨k, info, _, he⟩ | ⟨u, he, hc⟩ <;> cases eq_of_next he h
  · rfl
  · cases hc with
    | cleared => rfl
    | keepsMem _ _ _ hm => exact byte_congr hm (exec_epoch h) a
    | stores _ _ _ hw => exact hw a ha

end Sys2Proof.Proofs
end

section
/-! PROOFS. A command run twice leaves the state of running it once (rule R68). -/

namespace Sys2Proof.Proofs

open Sys2Proof.Machine Sys2Proof.Laws

/-- Where the first run, whose outcome is `r`, leaves `t`, the second run, whose outcome is `r'`, leaves it too. -/
def Repeats (t : State) (r r' : Result) : Prop := r = .next t → r' = .next t

/-- The fault taken in the state that the same fault left leaves that state. -/
theorem repeats_raise (k : FaultKind) (info : Word) (s t : State) :
    Repeats t (raise k info s) (raise k info t) := by
  rintro ⟨⟩; rfl

/-- A test that gives the same answer twice. -/
theorem repeats_test {c : Prop} [Decidable c] {k : FaultKind} {info : Word} {s t : State} {r r' : Result}
    (h : ¬ c → Repeats t r r') :
    Repeats t (if c then raise k info s else r) (if c then raise k info t else r') := by
  split_ifs with hc
  · exact repeats_raise k info s t
  · exact h hc

/-! ### The parsers -/

@[simp] theorem withResults_src (s t : State) : (withResults s t).src = s.src := rfl

section

variable {s u : State} (hm : u.mem = s.mem)
include hm

/-- A read finds the same bytes where nothing was written. -/
theorem memRead_withResults (a n : Nat) : memRead (withResults s u) a n = memRead s a n := by
  simp only [memRead, withResults_cfg, bytes_congr (t := withResults s u) hm rfl]

/-- A completion that stores in result registers what the state it leaves stores in them again. -/
theorem repeats_hdrparse : Repeats (withResults s u) (execHdrparse s) (execHdrparse (withResults s u)) := by
  refine repeats_test fun _ => ?_
  refine repeats_test fun _ => ?_
  rw [withResults_src, memRead_withResults hm]
  cases memRead s s.src.toNat hdrLen with
  | error f => rintro ⟨⟩
  | ok d => intro h; rw [← Host.Outcome.next.inj h]; rfl

theorem repeats_ddsparse : Repeats (withResults s u) (execDdsparse s) (execDdsparse (withResults s u)) := by
  refine repeats_test fun _ => ?_
  refine repeats_test fun _ => ?_
  rw [withResults_src, memRead_withResults hm]
  cases memRead s s.src.toNat ddsLen with
  | error f => rintro ⟨⟩
  | ok d =>
    refine repeats_test fun _ => ?_
    refine repeats_test fun _ => ?_
    refine repeats_test fun _ => ?_
    refine repeats_test fun _ => ?_
    rw [withResults_cfg]
    cases formatOf s.cfg.dds d with
    | unsupported k => exact repeats_raise _ _ _ _
    | ok f => intro h; rw [← Host.Outcome.next.inj h]; rfl

end

/-! ### Stores -/

/-- A completed write that leaves `MEM` as it is, from a state that a completion left. -/
theorem completeWrite_settled {t : State} {m : List Host.Cell} {r : Except Fault State}
    (hr : r = .ok { t with mem := m }) (hm : m = t.mem) (hs : t.status.completed = t.status) :
    completeWrite r = .next t := by
  subst hm hr
  rw [completeWrite_ok, complete_next]
  dsimp only
  rw [hs]

/-- All that a completed store of a byte sequence can leave. -/
theorem store_next {s t : State} {d : Nat} {bs : List Byte} (h : completeWrite (memWrite s d bs) = .next t) :
    d + bs.length ≤ s.cfg.memSize
      ∧ t = { s with status := s.status.completed, mem := insertBytes s.mem d bs } := by
  obtain ⟨u, hu, rfl⟩ := completeWrite_next h
  obtain ⟨hin, rfl⟩ := memWrite_ok hu
  exact ⟨hin, rfl⟩

/-- The same bytes stored again at the same address. -/
theorem repeats_memWrite (s t : State) (d : Nat) (bs : List Byte) :
    Repeats t (completeWrite (memWrite s d bs)) (completeWrite (memWrite t d bs)) := by
  intro h
  obtain ⟨hin, rfl⟩ := store_next h
  exact completeWrite_settled (memWrite_eq_ok hin) (insertBytes_insertBytes ..) rfl

/-- `n` bytes read after `n` bytes were stored: the same as before where the two ranges are apart, the stored ones
where they are one. -/
theorem bytes_after_store {s t : State} {d n : Nat} {bs : List Byte} (hl : bs.length = n)
    (h : completeWrite (memWrite s d bs) = .next t) :
    (∀ a, ¬ overlap a n d n → t.bytes a n = s.bytes a n) ∧ t.bytes d n = bs := by
  obtain ⟨-, rfl⟩ := store_next h
  subst hl
  exact ⟨fun a ha => bytes_insertBytes_apart s ha, bytes_insertBytes_same s d bs⟩

/-- The `n` bytes at `a` rewritten by `g` to `d`, twice: what `d` holds is no source of the second time, or `g` has
nothing more to change in it. -/
theorem repeats_rewrite {s t : State} {a d n : Nat} {g : List Byte → List Byte} (hl : ∀ p, (g p).length = n)
    (hr : ¬ overlap a n d n ∨ a = d ∧ ∀ p, g (g p) = g p) :
    Repeats t (completeWrite (memWrite s d (g (s.bytes a n)))) (completeWrite (memWrite t d (g (t.bytes a n)))) := by
  intro h
  obtain ⟨hapart, hsame⟩ := bytes_after_store (hl _) h
  have hg : g (t.bytes a n) = g (s.bytes a n) := by
    rcases hr with hov | ⟨rfl, hg⟩
    · rw [hapart a hov]
    · rw [hsame, hg]
  rw [hg]
  exact repeats_memWrite _ _ _ _ h

/-- What `DDSPATCH` does with the bytes it has read, twice. In place the magic must stay. -/
theorem repeats_checkedRewrite {s t : State} {c : List Byte → Prop} [DecidablePred c] {k : FaultKind}
    {info : List Byte → Word} {a d n : Nat} {g : List Byte → List Byte} (hl : ∀ p, (g p).length = n)
    (hr : ¬ overlap a n d n ∨ a = d ∧ ∀ p, g (g p) = g p ∧ (c (g p) ↔ c p)) :
    Repeats t
      (if c (s.bytes a n) then raise k (info (s.bytes a n)) s else completeWrite (memWrite s d (g (s.bytes a n))))
      (if c (t.bytes a n) then raise k (info (t.bytes a n)) t else completeWrite (memWrite t d (g (t.bytes a n)))) := by
  by_cases hc : c (s.bytes a n)
  · rw [if_pos hc]
    rintro ⟨⟩
    rw [enterFault_bytes, if_pos hc]
    rfl
  · rw [if_neg hc]
    intro h
    obtain ⟨hapart, hsame⟩ := bytes_after_store (hl _) h
    have hc' : ¬ c (t.bytes a n) := by
      rcases hr with hov | ⟨rfl, hg⟩
      · rwa [hapart a hov]
      · rwa [hsame, (hg _).2]
    rw [if_neg hc']
    exact repeats_rewrite hl (hr.imp_right fun ⟨had, hg⟩ => ⟨had, fun p => (hg p).1⟩) h

/-- Moves that go through, made again from where they left. -/
theorem repeats_movePixels {s t : State} {p : List Nat} (hp : p.length = bpp) {moves : List (Nat × Nat)}
    (hin : MovesInMem s moves) (hap : MovesApart moves) :
    Repeats t (completeWrite (movePixels p moves s)) (completeWrite (movePixels p moves t)) := by
  rw [movePixels_eq hp hin hap]
  intro h
  obtain rfl := Host.Outcome.next.inj h
  have hcells := congrArg (writeCells (writeCells s.mem (moveCells p s moves))) (moveCells_writeCells hp hin hap)
  exact completeWrite_settled (movePixels_eq hp hin hap) (hcells.trans (writeCells_writeCells ..)) rfl

/-! ### The headers written in place (rules R114, R139) -/

theorem withUpdated_withUpdated (h : List Byte) (w t : Half) (m : Byte) (l : Word) :
    withUpdated (withUpdated h w t m l) w t m l = withUpdated h w t m l := by
  refine ext_byteAt (by simp) fun k hk => ?_
  rw [length_withUpdated] at hk
  by_cases hf : k ∈ headerFieldOffsets
  · simp only [headerFieldOffsets, List.mem_cons, List.not_mem_nil, or_false] at hf
    rcases hf with rfl | rfl | rfl | rfl | rfl | rfl | rfl | rfl | rfl <;> simp [byteAt_withUpdated_field]
  · exact byteAt_withUpdated_other _ _ _ _ _ _ hk hf

theorem patchHeader_patchHeader (c : DdsConst) (p : List Byte) (w t : Half) (m : Byte) (f : Format) :
    patchHeader c (patchHeader c p w t m f) w t m f = patchHeader c p w t m f := by
  refine ext_byteAt (by simp) fun k hk => ?_
  rw [length_patchHeader] at hk
  simp only [byteAt_patchHeader _ _ _ _ _ _ _ hk]
  split_ifs <;> rfl

/-- Where the offsets are well formed a patched header keeps the magic of its template. -/
theorem quadAt_patchHeader_magic {c : DdsConst} (hc : c.offsets.wf = true) (p : List Byte) (w t : Half) (m : Byte)
    (f : Format) : quadAt (patchHeader c p w t m f) 0 = quadAt p 0 := by
  simp [quadAt, byteAt_patchHeader, patched_magic hc]

/-! ### The commands that store -/

/-- `s` with what a storing command may write, taken from `t` (rules R26, R67). -/
def withStored (s t : State) : State := { s with status := t.status, errinfo := t.errinfo, mem := t.mem }

@[simp] theorem withStored_src (s t : State) : (withStored s t).src = s.src := rfl
@[simp] theorem withStored_fmt (s t : State) : (withStored s t).fmt = s.fmt := rfl

/-- The commands other than the two parsers leave every register but `STATUS` and `ERRINFO`. -/
theorem exec_withStored {i : Instr} {s t : State} (hh : i ≠ .hdrparse) (hd : i ≠ .ddsparse) (h : exec i s = .next t) :
    ∃ u, t = withStored s u := by
  obtain ⟨ht, hdims, hpdlen, hfmt⟩ := commandsWriteOnlyTheirRegisters i s t h
  obtain ⟨hw, hht, hm⟩ := hdims hh hd
  rw [hw, hht, hm, hpdlen hh, hfmt hd] at ht
  exact ⟨t, ht⟩

section

variable {s u : State}

theorem repeats_ddsbuild : Repeats (withStored s u) (execDdsbuild s) (execDdsbuild (withStored s u)) := by
  refine repeats_test fun _ => ?_
  refine repeats_test fun _ => ?_
  rw [withStored_fmt]
  cases formatOfBits s.fmt with
  | none => exact repeats_raise _ _ _ _
  | some f => exact repeats_memWrite _ _ _ _

theorem repeats_hdrupd (hr : ¬ overlap s.src.toNat hdrLen s.dst.toNat hdrLen ∨ s.src = s.dst) :
    Repeats (withStored s u) (execHdrupd s) (execHdrupd (withStored s u)) := by
  refine repeats_test fun hsrc => ?_
  refine repeats_test fun _ => ?_
  refine repeats_test fun hlen => ?_
  refine repeats_test fun _ => ?_
  have hin : s.src.toNat + hdrLen ≤ s.cfg.memSize := by unfold valid at hsrc; omega
  rw [withStored_src, memRead_eq_ok hin, memRead_eq_ok (s := withStored s u) hin]
  exact repeats_rewrite (g := fun p => withUpdated p s.width s.height s.mips s.pdlen)
    (fun p => length_withUpdated ..)
    (hr.imp_right fun hsd => ⟨congrArg _ hsd, fun p => withUpdated_withUpdated ..⟩)

theorem repeats_ddspatch
    (hr : ¬ overlap s.src.toNat ddsLen s.dst.toNat ddsLen ∨ s.src = s.dst ∧ s.cfg.dds.offsets.wf = true) :
    Repeats (withStored s u) (execDdspatch s) (execDdspatch (withStored s u)) := by
  refine repeats_test fun hsrc => ?_
  refine repeats_test fun _ => ?_
  refine repeats_test fun _ => ?_
  refine repeats_test fun hlen => ?_
  refine repeats_test fun _ => ?_
  have hin : s.src.toNat + ddsLen ≤ s.cfg.memSize := by unfold valid at hsrc; omega
  rw [withStored_fmt]
  cases formatOfBits s.fmt with
  | none => exact repeats_raise _ _ _ _
  | some f =>
    rw [withStored_src, memRead_eq_ok hin, memRead_eq_ok (s := withStored s u) hin]
    refine repeats_checkedRewrite (c := fun p => quadAt p 0 ≠ s.cfg.dds.magic) (info := fun p => le32At p 0)
      (g := fun p => patchHeader s.cfg.dds p s.width s.height s.mips f) (fun p => length_patchHeader ..)
      (hr.imp_right fun ⟨hsd, hwf⟩ => ⟨congrArg _ hsd, fun p => ⟨patchHeader_patchHeader .., ?_⟩⟩)
    rw [quadAt_patchHeader_magic hwf]

/-- A pixel command whose moves lie in its needed ranges. -/
theorem repeats_pixelCommand {ls ld : Nat} {p : List Nat} (hp : p.length = bpp) {moves : List (Nat × Nat)}
    (hm : MovesInside s ls ld moves) :
    Repeats (withStored s u) (pixelCommand ls ld p moves s) (pixelCommand ls ld p moves (withStored s u)) := by
  refine repeats_test fun hsrc => ?_
  refine repeats_test fun hdst => ?_
  refine repeats_test fun hls => ?_
  refine repeats_test fun hld => ?_
  refine repeats_test fun hov => ?_
  exact repeats_movePixels hp (hm.inMem (not_not.1 hsrc) (not_not.1 hdst) (by omega) (by omega)) (hm.apart hov)

end

/-- Settles O31: each command's second run passes the same tests, reads the same bytes or those it wrote itself, and
stores the same bytes again. -/
theorem repeatedCommandsLeaveTheSameState : Obligations.RepeatedCommandsLeaveTheSameState := by
  unfold Obligations.RepeatedCommandsLeaveTheSameState
  intro i s t hi h
  have hparser (hi : i ∈ nonStoring) : ∃ u, t = withResults s u ∧ u.mem = s.mem :=
    ⟨t, exec_frame h, mem_eq_of_nonStoring hi h⟩
  have hstored := fun hh hd => exec_withStored hh hd h
  rcases hi with rfl | rfl | rfl | rfl | rfl | rfl | rfl | ⟨rfl, hr⟩ | ⟨rfl, hr⟩
  · cases h; rfl
  · obtain ⟨u, rfl, hm⟩ := hparser (by decide)
    exact repeats_hdrparse hm h
  · obtain ⟨u, rfl, hm⟩ := hparser (by decide)
    exact repeats_ddsparse hm h
  · obtain ⟨u, rfl⟩ := hstored (by decide) (by decide)
    exact repeats_ddsbuild h
  · obtain ⟨u, rfl⟩ := hstored (by decide) (by decide)
    exact repeats_pixelCommand rfl (detileMoves_inside s) h
  · obtain ⟨u, rfl⟩ := hstored (by decide) (by decide)
    exact repeats_pixelCommand (length_permChannels _) (detileMoves_inside s) h
  · obtain ⟨u, rfl⟩ := hstored (by decide) (by decide)
    exact repeats_pixelCommand rfl (tileMoves_inside s) h
  · obtain ⟨u, rfl⟩ := hstored (by decide) (by decide)
    exact repeats_hdrupd hr h
  · obtain ⟨u, rfl⟩ := hstored (by decide) (by decide)
    exact repeats_ddspatch hr h

end Sys2Proof.Proofs
end

section
/-! PROOFS. The command words (rules R90 to R95): `decode` and `encode` are inverse to each other, a word and its fields
stand for each other, and the words that decode are those whose fields are legal. -/

namespace Sys2Proof.Proofs

/-! ### Decode and encode -/

/-- No earlier row of the opcode table takes a command's word. -/
theorem decode_encode (i : Instr) : decode (encode i) = some i := by
  cases i <;> rfl

theorem decode_eq_some_iff {c : Word} {i : Instr} : decode c = some i ↔ encode i = c :=
  ⟨encode_of_decode, fun h => h ▸ decode_encode i⟩

/-- Settles O3: a row is selected by its own word only, and each command's word selects its row. -/
theorem decodeAndEncodeAreInverse : Obligations.DecodeAndEncodeAreInverse := by
  unfold Obligations.DecodeAndEncodeAreInverse
  exact fun _ _ => decode_eq_some_iff

/-- Settles O1: the words of the table are those that `encode` gives. -/
theorem tableWordsDecodeToTheirCommands : Obligations.TableWordsDecodeToTheirCommands := by
  unfold Obligations.TableWordsDecodeToTheirCommands
  exact ⟨decode_encode .nop, decode_encode .hdrparse, decode_encode .hdrupd, decode_encode .ddsbuild,
    decode_encode .ddspatch, decode_encode .ddsparse, decode_encode .detile, decode_encode .detileP,
    decode_encode .tile, decode_encode .clrerr⟩

/-! ### Words and fields, as numbers -/

theorem word_toNat (f : CommandFields) :
    f.word.toNat = 512 * f.rsv.toNat + 256 * f.p.toNat + f.opc.toNat := by
  have hp := Bool.toNat_lt f.p
  have hopc := f.opc.isLt
  rw [CommandFields.word, BitVec.toNat_append, BitVec.toNat_append, BitVec.toNat_ofBool,
    ← Nat.shiftLeft_add_eq_or_of_lt hopc, ← Nat.shiftLeft_add_eq_or_of_lt hp, Nat.shiftLeft_eq, Nat.shiftLeft_eq]
  omega

theorem fieldsOf_opc_toNat (c : Word) : (fieldsOf c).opc.toNat = c.toNat % 256 := by
  simp [fieldsOf]

theorem fieldsOf_p_toNat (c : Word) : (fieldsOf c).p.toNat = c.toNat / 256 % 2 := by
  rw [fieldsOf, BitVec.getLsbD, Nat.toNat_testBit]

theorem fieldsOf_rsv_toNat (c : Word) : (fieldsOf c).rsv.toNat = c.toNat / 512 := by
  have hc := c.isLt
  rw [fieldsOf, BitVec.extractLsb'_toNat, Nat.shiftRight_eq_div_pow]
  omega

theorem fields_eq_of_toNat_eq {f g : CommandFields} (hopc : f.opc.toNat = g.opc.toNat) (hp : f.p.toNat = g.p.toNat)
    (hrsv : f.rsv.toNat = g.rsv.toNat) : f = g := by
  cases f
  cases g
  congr
  · exact BitVec.eq_of_toNat_eq hopc
  · exact Function.LeftInverse.injective Bool.ofNat_toNat hp
  · exact BitVec.eq_of_toNat_eq hrsv

/-- Bits 31:9, bit 8 and bits 7:0 make up the word (rule R90). -/
theorem word_fieldsOf (c : Word) : (fieldsOf c).word = c := by
  apply BitVec.eq_of_toNat_eq
  rw [word_toNat, fieldsOf_rsv_toNat, fieldsOf_p_toNat, fieldsOf_opc_toNat]
  omega

/-- Each field is read from the bits it was placed at (rule R90). -/
theorem fieldsOf_word (f : CommandFields) : fieldsOf f.word = f := by
  have hword := word_toNat f
  have hp := Bool.toNat_lt f.p
  have hopc := f.opc.isLt
  apply fields_eq_of_toNat_eq
  · rw [fieldsOf_opc_toNat]; omega
  · rw [fieldsOf_p_toNat]; omega
  · rw [fieldsOf_rsv_toNat]; omega

/-! ### The legal fields -/

theorem decode_eq_some_iff_fields {c : Word} {i : Instr} : decode c = some i ↔ i.fields = fieldsOf c := by
  rw [decode_eq_some_iff, encode]
  exact ⟨fun h => by rw [← h, fieldsOf_word], fun h => by rw [h, word_fieldsOf]⟩

theorem fields_wf_iff (f : CommandFields) :
    f.wf = true ↔ f.rsv = 0 ∧ (f.p = true → f.opc = 0x06) ∧ f.opc.toNat ≤ 0x08 := by
  simp [CommandFields.wf, and_assoc, or_iff_not_imp_left]

/-- The legal fields are those of the ten commands (rules R92 to R94). -/
theorem wf_iff_exists_command (f : CommandFields) : f.wf = true ↔ ∃ i : Instr, i.fields = f := by
  constructor
  · obtain ⟨opc, p, rsv⟩ := f
    intro h
    obtain ⟨rfl, hp, hopc⟩ := (fields_wf_iff _).1 h
    cases p with
    | true => exact ⟨.detileP, by rw [show opc = 0x06 from hp rfl]; rfl⟩
    | false =>
      obtain ⟨n, hn, rfl⟩ : ∃ n ≤ 8, opc = BitVec.ofNat 8 n := ⟨opc.toNat, hopc, by simp⟩
      interval_cases n
      exacts [⟨.nop, rfl⟩, ⟨.hdrparse, rfl⟩, ⟨.hdrupd, rfl⟩, ⟨.ddsbuild, rfl⟩, ⟨.ddspatch, rfl⟩, ⟨.ddsparse, rfl⟩,
        ⟨.detile, rfl⟩, ⟨.tile, rfl⟩, ⟨.clrerr, rfl⟩]
  · rintro ⟨i, rfl⟩
    cases i <;> rfl

theorem isSome_decode_eq_wf (c : Word) : (decode c).isSome = (fieldsOf c).wf := by
  rw [Bool.eq_iff_iff, Option.isSome_iff_exists, wf_iff_exists_command]
  exact exists_congr fun _ => decode_eq_some_iff_fields

/-- Settles O4: words and fields are the same number cut up, and the legal fields are those of the commands. -/
theorem wordsAndFieldsAgree : Obligations.WordsAndFieldsAgree := by
  unfold Obligations.WordsAndFieldsAgree
  exact ⟨word_fieldsOf, fieldsOf_word, isSome_decode_eq_wf⟩

/-! ### The field decoder -/

/-- The word is illegal in the terms of rule R94: reserved bits set, an opcode above 0x08, or `P = 1` off `DETILE`. -/
def IllegalWord (c : Word) : Prop :=
  c >>> 9 ≠ 0 ∨ 0x08 < c.toNat % 256 ∨ (c.getLsbD 8 = true ∧ c.toNat % 256 ≠ 0x06)

theorem fieldsOf_rsv_eq_zero_iff (c : Word) : (fieldsOf c).rsv = 0 ↔ c >>> 9 = 0 := by
  rw [← BitVec.toNat_inj, ← BitVec.toNat_inj, fieldsOf_rsv_toNat, BitVec.toNat_ushiftRight, Nat.shiftRight_eq_div_pow]
  rfl

theorem fieldsOf_opc_eq_six_iff (c : Word) : (fieldsOf c).opc = 0x06 ↔ c.toNat % 256 = 0x06 := by
  rw [← BitVec.toNat_inj, fieldsOf_opc_toNat]
  rfl

theorem decode_eq_none_iff (c : Word) : decode c = none ↔ IllegalWord c := by
  have hp : (fieldsOf c).p = c.getLsbD 8 := rfl
  rw [← Option.not_isSome_iff_eq_none, isSome_decode_eq_wf, fields_wf_iff, fieldsOf_rsv_eq_zero_iff,
    fieldsOf_opc_eq_six_iff, fieldsOf_opc_toNat, hp, IllegalWord, ← Nat.not_le]
  tauto

/-- Settles O2: a word that decodes is a command's word, for which the field decoder computes; on any other word one of
the field decoder's tests for an illegal word fires. -/
theorem decodingFollowsTheFields : Obligations.DecodingFollowsTheFields := by
  unfold Obligations.DecodingFollowsTheFields
  refine ⟨fun c => ?_, fun i => ⟨decode_encode i, by cases i <;> rfl⟩⟩
  cases hd : decode c with
  | some i =>
    obtain rfl := encode_of_decode hd
    cases i <;> rfl
  | none =>
    rcases (decode_eq_none_iff c).1 hd with hrsv | hopc | hp
    · rw [if_pos hrsv]
    · simp (disch := omega) only [if_neg, ite_self]
    · rw [if_pos hp, ite_self]

end Sys2Proof.Proofs
end

section
/-! PROOFS. The step of the agent whose turn it is, from it the fault of an illegal word (rules R94, R197), and `poll`
(rule R99). -/

namespace Sys2Proof.Proofs

open Sys2Proof.Machine Sys2Proof.Laws Sys2Proof.Claims

/-! ### The block's turn -/

@[simp] theorem blockTurn_pending (s : State) : (blockTurn s).pending = s.pending := by
  unfold blockTurn; split <;> rfl

/-- The completion step runs at the state with the schedule's entry used up (rules R197, R198). -/
theorem step_of_blockMoves {s : State} (h : BlockMoves s) : step s = completionStep (blockTurn s) := by
  obtain ⟨hbusy, hreset, hturn⟩ := h
  have htake : s.takeTurn = blockTurn s := by
    simp [State.takeTurn, blockTurn, State.contended, State.blockEnabled, hbusy, hreset]
  rw [step_block (nextAgent_block hbusy hreset hturn), htake]

/-- Settles O7: an illegal word decodes to nothing, so its completion step is the fault entry. -/
theorem illegalWordFaults : Obligations.IllegalWordFaults := by
  unfold Obligations.IllegalWordFaults
  intro s h hillegal
  have hd : decode (blockTurn s).pending = none := by
    rw [blockTurn_pending]; exact (decode_eq_none_iff _).2 hillegal
  rw [step_of_blockMoves h, completionStep_none hd, blockTurn_pending]
  rfl

/-! ### The host's turn -/

@[simp] theorem takeTurn_refusalOf (s : State) (x : HostTxn) : refusalOf s.takeTurn x = refusalOf s x := by
  cases x <;> simp [refusalOf, memRefusal]

/-- A transaction that has a meaning takes its effect at the state with itself and the schedule's entry used up (rules
R192 to R198). -/
theorem step_of_hostMoves {s : State} {x : HostTxn} {rest : List HostTxn} (h : HostMoves s x rest)
    (hx : refusalOf s x = none) : step s = .next (transaction x (hostMoved s rest)) := by
  obtain ⟨hagent, hscript⟩ := nextAgent_of_hostActs (.inl h)
  have hreset : s.resetN = true := h.2.1
  have hmoved : s.takeTurn.withScript rest = hostMoved s rest := by
    cases hbusy : s.status.busy <;>
      simp [State.takeTurn, State.contended, State.blockEnabled, State.withScript, hostMoved, hreset, hscript, hbusy]
  rw [step_host hagent]
  simp [hostStep, hscript, hx, hreset, hmoved]

/-- Settles O18: the two cases of the effect of `poll`. -/
theorem pollWaitsForIdle : Obligations.PollWaitsForIdle := by
  unfold Obligations.PollWaitsForIdle
  intro s rest h
  have hscript := h.1
  rw [step_of_hostMoves h rfl]
  constructor
  · intro hbusy
    simp [transaction, hostMoved, hbusy, State.withScript, ← hscript]
  · intro hbusy
    simp [transaction, hostMoved, hbusy, State.withStatusRead, State.withReturned]

end Sys2Proof.Proofs
end

section
/-! PROOFS. The CTXR header as a value: a header is known by its four fields and its other bytes, and from it the laws
of the accessor (rule R115). -/

namespace Sys2Proof.Proofs

open Sys2Proof.Machine Sys2Proof.Laws

/-! ### The fields at their offsets (rules R5, R111) -/

section

variable (h : List Byte) (w t : Half) (m : Byte) (l : Word)

theorem getWidth_eq : getWidth h = be16 (byteAt h 8) (byteAt h 9) := rfl

theorem getHeight_eq : getHeight h = be16 (byteAt h 10) (byteAt h 11) := rfl

theorem getMips_eq : getMips h = byteAt h 38 := rfl

theorem getPdlen_eq : getPdlen h = be32 (byteAt h 128) (byteAt h 129) (byteAt h 130) (byteAt h 131) := rfl

/-! ### Updated headers (rules R114, R115) -/

@[simp] theorem getWidth_withUpdated : getWidth (withUpdated h w t m l) = w := by
  simp [getWidth_eq, byteAt_withUpdated_field]

@[simp] theorem getHeight_withUpdated : getHeight (withUpdated h w t m l) = t := by
  simp [getHeight_eq, byteAt_withUpdated_field]

@[simp] theorem getMips_withUpdated : getMips (withUpdated h w t m l) = m := by
  simp [getMips_eq, byteAt_withUpdated_field]

@[simp] theorem getPdlen_withUpdated : getPdlen (withUpdated h w t m l) = l := by
  simp [getPdlen_eq, byteAt_withUpdated_field]

end

/-- A header whose four fields are the given ones and whose other bytes are those of `h` is `h` updated. -/
theorem eq_withUpdated {g h : List Byte} {w t : Half} {m : Byte} {l : Word} (hlen : g.length = 132)
    (hw : getWidth g = w) (ht : getHeight g = t) (hm : getMips g = m) (hl : getPdlen g = l)
    (hother : ∀ k, k < 132 → k ∉ headerFieldOffsets → byteAt g k = byteAt h k) : g = withUpdated h w t m l := by
  subst hw ht hm hl
  refine ext_byteAt (by simp [hlen]) fun k hk => ?_
  rw [hlen] at hk
  by_cases hf : k ∈ headerFieldOffsets
  · simp only [headerFieldOffsets, List.mem_cons, List.not_mem_nil, or_false] at hf
    rcases hf with rfl | rfl | rfl | rfl | rfl | rfl | rfl | rfl | rfl <;>
      simp [byteAt_withUpdated_field, getWidth_eq, getHeight_eq, getMips_eq, getPdlen_eq, byteOf_be16, byteOf_be32]
  · rw [byteAt_withUpdated_other _ _ _ _ _ _ hk hf, hother k hk hf]

/-- Updating a header with its own fields changes nothing. -/
theorem withUpdated_own_fields {h : List Byte} (hlen : h.length = 132) :
    withUpdated h (getWidth h) (getHeight h) (getMips h) (getPdlen h) = h :=
  (eq_withUpdated hlen rfl rfl rfl rfl fun _ _ _ => rfl).symm

/-- Of two updates the later one is seen. -/
theorem withUpdated_overwrites (h : List Byte) (w t w' t' : Half) (m m' : Byte) (l l' : Word) :
    withUpdated (withUpdated h w t m l) w' t' m' l' = withUpdated h w' t' m' l' := by
  refine eq_withUpdated (length_withUpdated ..) (by simp) (by simp) (by simp) (by simp) fun k hk hf => ?_
  rw [byteAt_withUpdated_other _ _ _ _ _ _ hk hf, byteAt_withUpdated_other _ _ _ _ _ _ hk hf]

/-- Outside the fields an update keeps what a position holds, beyond the header's end nothing. -/
theorem getElem?_withUpdated_other {h : List Byte} (hlen : h.length = 132) (w t : Half) (m : Byte) (l : Word) {i : Nat}
    (hi : i ∉ headerFieldOffsets) : (withUpdated h w t m l)[i]? = h[i]? := by
  by_cases hin : i < 132
  · rw [getElem?_eq_byteAt (by simpa using hin), getElem?_eq_byteAt (hlen ▸ hin),
      byteAt_withUpdated_other _ _ _ _ _ _ hin hi]
  · rw [List.getElem?_eq_none (by simpa using hin), List.getElem?_eq_none (by omega)]

/-- Settles O38: the fields read back, and the other laws by what an updated header is known by. -/
theorem headerAccessorLaws : Obligations.HeaderAccessorLaws := by
  unfold Obligations.HeaderAccessorLaws
  intro h w t w' t' m m' l l' hlen
  exact ⟨⟨getWidth_withUpdated .., getHeight_withUpdated .., getMips_withUpdated .., getPdlen_withUpdated ..⟩,
    withUpdated_own_fields hlen, fun i hi => getElem?_withUpdated_other hlen w t m l hi,
    withUpdated_overwrites h w t w' t' m m' l l'⟩

end Sys2Proof.Proofs
end

section
/-! PROOFS. The commands of the CTXR header: what `HDRPARSE` and `HDRUPD` complete with, and the order of their faults
(rules R111, R112, R114, R116, R117, R207). -/

namespace Sys2Proof.Proofs

open Sys2Proof.Machine Sys2Proof.Laws Sys2Proof.Claims

/-! ### The fields of a header in `MEM` (rules R13, R111) -/

section

variable (s : State) (a : Nat)

theorem getWidth_bytes : (getWidth (s.bytes a 132)).toNat = be16Nat (s.byte (a + 8)) (s.byte (a + 9)) := by
  simp [getWidth_eq, be16_toNat, be16Nat]

theorem getHeight_bytes : (getHeight (s.bytes a 132)).toNat = be16Nat (s.byte (a + 10)) (s.byte (a + 11)) := by
  simp [getHeight_eq, be16_toNat, be16Nat]

theorem getMips_bytes : getMips (s.bytes a 132) = s.byte (a + 38) := by
  simp [getMips_eq]

theorem getPdlen_bytes : (getPdlen (s.bytes a 132)).toNat
    = be32Nat (s.byte (a + 128)) (s.byte (a + 129)) (s.byte (a + 130)) (s.byte (a + 131)) := by
  simp [getPdlen_eq, be32_toNat, be32Nat]

end

/-! ### Completion -/

/-- `s` with a completed `HDRPARSE`: the four registers hold the fields of the header at `SRC` (rule R112). -/
def headerParsed (s : State) : State :=
  { s with
    status := doneStatus s
    width := getWidth (s.bytes s.src.toNat 132), height := getHeight (s.bytes s.src.toNat 132)
    mips := getMips (s.bytes s.src.toNat 132), pdlen := getPdlen (s.bytes s.src.toNat 132) }

/-- `HDRPARSE` with its tests passed. -/
theorem hdrparse_passed {s : State} (hsrc : inMem s s.src s.srclen) (hlen : 132 ≤ s.srclen.toNat) :
    exec .hdrparse s = .next (headerParsed s) := by
  rcases execHdrparse_cases s with ⟨hn, -⟩ | ⟨-, hn, -⟩ | ⟨-, -, he⟩
  · exact absurd hsrc hn
  · omega
  · exact he

/-- The header at `SRC` with its fields overwritten by the four registers (rule R116). -/
def updatedHeader (s : State) : List Byte :=
  withUpdated (s.bytes s.src.toNat 132) s.width s.height s.mips s.pdlen

@[simp] theorem length_updatedHeader (s : State) : (updatedHeader s).length = 132 := length_withUpdated ..

/-- `s` with a completed `HDRUPD`: the updated header is stored at `DST` (rule R116). -/
def headerUpdated (s : State) : State :=
  { s with status := doneStatus s, mem := insertBytes s.mem s.dst.toNat (updatedHeader s) }

/-- `HDRUPD` with its tests passed. -/
theorem hdrupd_passed {s : State} (hsrc : inMem s s.src s.srclen) (hdst : inMem s s.dst s.dstlen)
    (hslen : 132 ≤ s.srclen.toNat) (hdlen : 132 ≤ s.dstlen.toNat) : exec .hdrupd s = .next (headerUpdated s) := by
  rcases execHdrupd_cases s with ⟨hn, -⟩ | ⟨-, hn, -⟩ | ⟨-, -, hn, -⟩ | ⟨-, -, -, hn, -⟩ | ⟨-, -, -, -, he⟩
  · exact absurd hsrc hn
  · exact absurd hdst hn
  · omega
  · omega
  · exact he

/-- A completed `HDRUPD` changes `STATUS` and `MEM` alone. -/
theorem headerUpdated_frame (s : State) :
    headerUpdated s = { s with status := doneStatus s, mem := (headerUpdated s).mem } := by
  simp only [headerUpdated]

/-- The destination holds the updated header. -/
theorem headerUpdated_bytes (s : State) : (headerUpdated s).bytes s.dst.toNat 132 = updatedHeader s := by
  have hread := bytes_insertBytes_same s s.dst.toNat (updatedHeader s)
  rw [length_updatedHeader] at hread
  exact (bytes_congr rfl rfl ..).trans hread

theorem headerUpdated_byte (s : State) {i : Nat} (hi : i < 132) :
    (headerUpdated s).byte (s.dst.toNat + i) = byteAt (updatedHeader s) i := by
  rw [← headerUpdated_bytes, byteAt_bytes _ _ _ _ hi]

theorem headerUpdated_byte_outside (s : State) {a : Nat} (ha : a < s.dst.toNat ∨ s.dst.toNat + 132 ≤ a) :
    (headerUpdated s).byte a = s.byte a :=
  (byte_insertBytes s ..).trans (if_neg (by rw [length_updatedHeader]; omega))

/-- Settles O34: the fields of the bytes read, seen in `MEM`. -/
theorem hdrparseReadsTheFields : Obligations.HdrparseReadsTheFields := by
  unfold Obligations.HdrparseReadsTheFields
  intro s hsrc hlen
  exact ⟨_, hdrparse_passed hsrc hlen, getWidth_bytes .., getHeight_bytes .., getMips_bytes .., getPdlen_bytes .., rfl⟩

/-- Settles O36: what the destination holds is an updated header, so its fields and its other bytes are known. -/
theorem hdrupdWritesTheUpdatedHeader : Obligations.HdrupdWritesTheUpdatedHeader := by
  unfold Obligations.HdrupdWritesTheUpdatedHeader
  intro s hsrc hdst hslen hdlen
  refine ⟨headerUpdated s, ⟨hdrupd_passed hsrc hdst hslen hdlen, headerUpdated_frame s⟩, ?_, ?_, ?_, ?_,
    fun i hi hf => ?_, fun a ha => headerUpdated_byte_outside s ha⟩
  · rw [← getWidth_bytes, headerUpdated_bytes, updatedHeader, getWidth_withUpdated]
  · rw [← getHeight_bytes, headerUpdated_bytes, updatedHeader, getHeight_withUpdated]
  · rw [← getMips_bytes, headerUpdated_bytes, updatedHeader, getMips_withUpdated]
  · rw [← getPdlen_bytes, headerUpdated_bytes, updatedHeader, getPdlen_withUpdated]
  · rw [headerUpdated_byte s hi, updatedHeader, byteAt_withUpdated_other _ _ _ _ _ _ hi hf, byteAt_bytes _ _ _ _ hi]

/-- Settles O39: the header is updated with its own fields. -/
theorem parseThenUpdateReproducesTheHeader : Obligations.ParseThenUpdateReproducesTheHeader := by
  unfold Obligations.ParseThenUpdateReproducesTheHeader
  intro s hsrc hdst hslen hdlen
  have hcopy : updatedHeader (headerParsed s) = s.bytes s.src.toNat 132 := withUpdated_own_fields (length_bytes ..)
  refine ⟨headerParsed s, headerUpdated (headerParsed s), hdrparse_passed hsrc hslen,
    hdrupd_passed (s := headerParsed s) hsrc hdst hslen hdlen, fun i hi => ?_⟩
  calc (headerUpdated (headerParsed s)).byte (s.dst.toNat + i)
      = byteAt (updatedHeader (headerParsed s)) i := headerUpdated_byte (headerParsed s) hi
    _ = s.byte (s.src.toNat + i) := by rw [hcopy, byteAt_bytes _ _ _ _ hi]

/-! ### Faults -/

/-- Settles O35: the first test that fails decides. -/
theorem hdrparseFaultOrder : Obligations.HdrparseFaultOrder := by
  unfold Obligations.HdrparseFaultOrder
  intro s
  rcases execHdrparse_cases s with ⟨hsrc, he⟩ | ⟨hsrc, hlen, he⟩ | ⟨hsrc, hlen, -⟩
  · exact ⟨fun _ => he, fun hs => absurd hs hsrc⟩
  · exact ⟨fun hs => absurd hsrc hs, fun _ _ => he⟩
  · exact ⟨fun hs => absurd hsrc hs, fun _ hl => absurd hlen hl.not_ge⟩

/-- Settles O37: the first test that fails decides. -/
theorem hdrupdFaultOrder : Obligations.HdrupdFaultOrder := by
  unfold Obligations.HdrupdFaultOrder
  intro s
  rcases execHdrupd_cases s with ⟨hsrc, he⟩ | ⟨hsrc, hdst, he⟩ | ⟨hsrc, hdst, hslen, he⟩
    | ⟨hsrc, hdst, hslen, hdlen, he⟩ | ⟨hsrc, hdst, hslen, hdlen, -⟩
  · exact ⟨fun _ => he, fun h => absurd h hsrc, fun h => absurd h hsrc, fun h => absurd h hsrc⟩
  · exact ⟨fun h => absurd hsrc h, fun _ _ => he, fun _ h => absurd h hdst, fun _ h => absurd h hdst⟩
  · exact ⟨fun h => absurd hsrc h, fun _ h => absurd hdst h, fun _ _ _ => he, fun _ _ h => absurd hslen h.not_gt⟩
  · exact ⟨fun h => absurd hsrc h, fun _ h => absurd hdst h, fun _ _ h => absurd hslen h.not_ge, fun _ _ _ _ => he⟩
  · exact ⟨fun h => absurd hsrc h, fun _ h => absurd hdst h, fun _ _ h => absurd hslen h.not_ge,
      fun _ _ _ h => absurd hdlen h.not_ge⟩

end Sys2Proof.Proofs
end

section
/-! PROOFS. The flag words of a built header (rules R131, R133 to R135): each flag is one bit of its own, so a word
made of flags shows exactly those it was made of (rule R147 law 2). -/

namespace Sys2Proof.Proofs

open Sys2Proof.Machine Sys2Proof.Laws

/-! ### Flags are words apart (rule R131) -/

theorem isSingleBit_iff {w : Word} : isSingleBit w = true ↔ ∃ k < 32, w = BitVec.twoPow 32 k := by
  have hpow (k : Nat) : BitVec.ofNat 32 (2 ^ k) = BitVec.twoPow 32 k := BitVec.eq_of_toNat_eq (by simp)
  simp [isSingleBit, hpow]

/-- Different single bits have no bit in common. -/
theorem and_eq_zero_of_isSingleBit {x y : Word} (hx : isSingleBit x = true) (hy : isSingleBit y = true) (h : x ≠ y) :
    x &&& y = 0 := by
  obtain ⟨j, -, rfl⟩ := isSingleBit_iff.1 hx
  obtain ⟨k, -, rfl⟩ := isSingleBit_iff.1 hy
  have hjk : j ≠ k := fun hjk => h (congrArg _ hjk)
  simp [BitVec.and_twoPow, hjk]

theorem ne_zero_of_isSingleBit {x : Word} (hx : isSingleBit x = true) : x ≠ 0 := by
  obtain ⟨k, hk, rfl⟩ := isSingleBit_iff.1 hx
  intro h
  have hbit := congrArg (BitVec.getLsbD · k) h
  simp [hk] at hbit

/-- None of the words is 0, and no two of them have a bit in common. -/
structure WordsApart (ws : List Word) : Prop where
  ne_zero : ∀ x ∈ ws, x ≠ 0#32
  and_eq_zero : ws.Pairwise fun x y => x &&& y = 0#32 ∧ y &&& x = 0#32

theorem wordsApart_of_distinctBits {ws : List Word} (h : distinctBits ws = true) : WordsApart ws := by
  obtain ⟨hbits, hnodup⟩ : (∀ x ∈ ws, isSingleBit x = true) ∧ ws.Nodup := by simpa [distinctBits] using h
  exact {
    ne_zero := fun x hx => ne_zero_of_isSingleBit (hbits x hx)
    and_eq_zero := hnodup.imp_of_mem fun hx hy hne =>
      ⟨and_eq_zero_of_isSingleBit (hbits _ hx) (hbits _ hy) hne,
        and_eq_zero_of_isSingleBit (hbits _ hy) (hbits _ hx) hne.symm⟩ }

/-- What rule R131 asks of the parameters, with the two additions of log entry 9. -/
theorem ddsConst_wf {c : DdsConst} (hc : c.wf = true) :
    WordsApart [c.fCaps, c.fHeight, c.fWidth, c.fPixelformat, c.fMipmapcount, c.fLinearsize]
      ∧ WordsApart [c.cTexture, c.cComplex, c.cMipmap] ∧ WordsApart [c.pfAlphapixels, c.pfFourcc, c.pfRgb]
      ∧ c.fourccDxt1 ≠ c.fourccDxt5 ∧ c.offsets.wf = true := by
  simp only [DdsConst.wf, Bool.and_eq_true, decide_eq_true_eq] at hc
  obtain ⟨⟨⟨⟨hf, hcaps⟩, hpf⟩, htags⟩, hoff⟩ := hc
  exact ⟨wordsApart_of_distinctBits hf, wordsApart_of_distinctBits hcaps, wordsApart_of_distinctBits hpf, htags, hoff⟩

/-! ### Words made of flags (rules R133 to R135) -/

theorem or_and_eq_zero_iff {x y z : Word} : (x ||| y) &&& z = 0#32 ↔ x &&& z = 0#32 ∧ y &&& z = 0#32 := by
  rw [BitVec.and_or_distrib_right, BitVec.or_eq_zero_iff]

theorem ite_and_eq_zero_iff {p : Prop} [Decidable p] {x z : Word} :
    (if p then x else 0#32) &&& z = 0#32 ↔ (p → x &&& z = 0#32) := by
  by_cases hp : p <;> simp [hp]

theorem compressed_iff {f : Format} : f.compressed = true ↔ f ≠ .rawRgba8 := by
  cases f <;> simp [Format.compressed]

section

variable {c : DdsConst} (hc : c.wf = true)
include hc

theorem flagsOf_shows (m : Byte) (f : Format) :
    (flagsOf c m f &&& c.fMipmapcount ≠ 0 ↔ 1 < m.toNat) ∧ (flagsOf c m f &&& c.fLinearsize ≠ 0 ↔ f ≠ .rawRgba8) := by
  obtain ⟨⟨hne, hapart⟩, -⟩ := ddsConst_wf hc
  simp only [List.forall_mem_cons, List.pairwise_cons] at hne hapart
  rw [← compressed_iff]
  simp [flagsOf, or_and_eq_zero_iff, ite_and_eq_zero_iff, hne, hapart]

theorem capsOf_shows (m : Byte) :
    (capsOf c m &&& c.cComplex ≠ 0 ↔ 1 < m.toNat) ∧ (capsOf c m &&& c.cMipmap ≠ 0 ↔ 1 < m.toNat) := by
  obtain ⟨-, ⟨hne, hapart⟩, -⟩ := ddsConst_wf hc
  simp only [List.forall_mem_cons, List.pairwise_cons] at hne hapart
  simp [capsOf, or_and_eq_zero_iff, ite_and_eq_zero_iff, hne, hapart]

theorem pfFlags_shows (f : Format) :
    (pfFlags c f &&& c.pfFourcc ≠ 0 ↔ f ≠ .rawRgba8) ∧ (pfFlags c f &&& c.pfRgb = 0 ↔ f ≠ .rawRgba8) := by
  obtain ⟨-, -, ⟨hne, hapart⟩, -⟩ := ddsConst_wf hc
  simp only [List.forall_mem_cons, List.pairwise_cons] at hne hapart
  by_cases hf : f = .rawRgba8 <;>
    simp [pfFlags, or_and_eq_zero_iff, compressed_iff, hf, hne, hapart]

end

/-- Settles O47: word by word, a flag is shown where the word was made with it. -/
theorem builtFlagsAreConsistent : Obligations.BuiltFlagsAreConsistent := by
  unfold Obligations.BuiltFlagsAreConsistent
  intro c m f hc
  obtain ⟨hmip, hlinear⟩ := flagsOf_shows hc m f
  obtain ⟨hcomplex, hcmip⟩ := capsOf_shows hc m
  obtain ⟨hfourcc, hrgb⟩ := pfFlags_shows hc f
  exact ⟨hmip, hcomplex, hcmip, hlinear, hfourcc, hrgb⟩

end Sys2Proof.Proofs
end

section
/-! PROOFS. The target header as a value: which word of it a command decides, that patching a built header is building
it anew (rule R147 laws 3 and 4), and which format a built header shows (rules R138, R139, R143). -/

namespace Sys2Proof.Proofs

open Sys2Proof.Machine Sys2Proof.Laws Sys2Proof.Claims

/-! ### Patched headers (rule R139) -/

theorem inField_eq_true_iff {k : FieldOffset} {i : Nat} : inField k i = true ↔ InField k i := inField_iff

theorem patched_iff {o : DdsOffsets} {i : Nat} : patched o i = true ↔ ∃ x ∈ sixFields o, InField x i := by
  simp [patched, sixFields, inField_eq_true_iff, or_assoc]

/-- A patched word is the built header's. -/
theorem byteAt_patchHeader_of_inField (c : DdsConst) (p : List Byte) (w t : Half) (m : Byte) (f : Format)
    {k : FieldOffset} (hk : k ∈ sixFields c.offsets) {j : Nat} (hj : j < 4) :
    byteAt (patchHeader c p w t m f) (k + j) = byteAt (buildHeader c w t m f) (k + j) := by
  have hp : patched c.offsets (k + j) = true := patched_iff.2 ⟨k, hk, by unfold InField; omega⟩
  rw [byteAt_patchHeader _ _ _ _ _ _ _ (by omega), if_pos hp]

/-- Every other byte is the template's. -/
theorem byteAt_patchHeader_kept (c : DdsConst) (p : List Byte) (w t : Half) (m : Byte) (f : Format) {i : Nat}
    (hi : i < 128) (hp : ∀ x ∈ sixFields c.offsets, ¬ InField x i) :
    byteAt (patchHeader c p w t m f) i = byteAt p i := by
  have hp : ¬ patched c.offsets i = true := fun h => by
    obtain ⟨x, hx, hin⟩ := patched_iff.1 h
    exact hp x hx hin
  rw [byteAt_patchHeader _ _ _ _ _ _ _ hi, if_neg hp]

theorem patchHeader_buildHeader (c : DdsConst) (w w' t t' : Half) (m m' : Byte) (f : Format) :
    patchHeader c (buildHeader c w t m f) w' t' m' f = buildHeader c w' t' m' f := by
  refine ext_byteAt (by simp) fun k hk => ?_
  rw [length_patchHeader] at hk
  rw [byteAt_patchHeader _ _ _ _ _ _ _ hk]
  split
  · rfl
  · next hp => exact byteAt_buildHeader_unpatched _ _ _ _ _ _ _ _ _ hk (by simpa using hp)

/-- Outside the six words a patch keeps what a position holds, beyond the header's end nothing. -/
theorem getElem?_patchHeader_kept (c : DdsConst) {p : List Byte} (hlen : p.length = 128) (w t : Half) (m : Byte)
    (f : Format) {i : Nat} (hp : ∀ x ∈ sixFields c.offsets, ¬ InField x i) :
    (patchHeader c p w t m f)[i]? = p[i]? := by
  by_cases hin : i < 128
  · rw [getElem?_eq_byteAt (by simpa using hin), getElem?_eq_byteAt (hlen ▸ hin),
      byteAt_patchHeader_kept _ _ _ _ _ _ hin hp]
  · rw [List.getElem?_eq_none (by simpa using hin), List.getElem?_eq_none (by omega)]

/-- Settles O48: a byte of a built header outside the six words does not depend on the dimensions. -/
theorem patchedBuiltHeaderIsBuiltAnew : Obligations.PatchedBuiltHeaderIsBuiltAnew := by
  unfold Obligations.PatchedBuiltHeaderIsBuiltAnew
  intro c w w' t t' m m' f f' p
  exact ⟨patchHeader_buildHeader .., fun hlen i hp => getElem?_patchHeader_kept c hlen w t m f' hp⟩

/-! ### Words of a header -/

/-- Four equal bytes make an equal word, in either byte order. -/
theorem fieldAt_congr (c : DdsConst) {d d' : List Byte} {k : Nat}
    (h : ∀ j, j < 4 → byteAt d (k + j) = byteAt d' (k + j)) : fieldAt c d k = fieldAt c d' k := by
  have h0 : byteAt d k = byteAt d' k := h 0 (by omega)
  have h1 := h 1 (by omega)
  have h2 := h 2 (by omega)
  have h3 := h 3 (by omega)
  cases ho : c.order <;> simp [fieldAt, ho, le32At, be32At, h0, h1, h2, h3]

/-- The six words of a patched header are those of a header built with the same values. -/
theorem fieldAt_patchHeader (c : DdsConst) (p : List Byte) (w t : Half) (m : Byte) (f : Format) :
    ∀ k ∈ sixFields c.offsets, fieldAt c (patchHeader c p w t m f) k = fieldAt c (buildHeader c w t m f) k :=
  fun _ hk => fieldAt_congr c fun _ hj => byteAt_patchHeader_of_inField c p w t m f hk hj

/-- A built header shows the format that it was built for (rule R143). -/
theorem formatOf_buildHeader {c : DdsConst} (hc : c.wf = true) (w t : Half) (m : Byte) (f : Format) :
    formatOf c (buildHeader c w t m f) = .ok f := by
  obtain ⟨-, -, -, htags, hoff⟩ := ddsConst_wf hc
  obtain ⟨-, -, -, -, -, -, -, -, hpf, hbits, -⟩ := fieldAt_buildHeader hoff w t m f
  obtain ⟨-, hdxt1, hdxt5⟩ := fourcc_buildHeader hoff w t m
  obtain ⟨hfourcc, hrgb⟩ := pfFlags_shows hc f
  rw [formatOf, hpf, hbits]
  cases f with
  | rawRgba8 =>
    rw [if_neg (by simpa using hfourcc), if_pos (by simpa using hrgb)]
    exact if_pos rfl
  | blockDxt1 => rw [if_pos (by simpa using hfourcc), if_pos hdxt1]
  | blockDxt5 => rw [if_pos (by simpa using hfourcc), if_neg (by rw [hdxt5]; exact htags.symm), if_pos hdxt5]

end Sys2Proof.Proofs
end

section
/-! PROOFS. The commands that write a target header: what `DDSBUILD` and `DDSPATCH` complete with, and the order of
their faults (rules R132 to R140, R207). -/

namespace Sys2Proof.Proofs

open Sys2Proof.Machine Sys2Proof.Laws Sys2Proof.Claims

/-! ### A header in `MEM` -/

/-- A word in `MEM` is the word of the header's bytes. -/
theorem ddsField_eq (s : State) (a : Nat) (k : FieldOffset) :
    ddsField s (a + k.val) = (fieldAt s.cfg.dds (s.bytes a 128) k).toNat := by
  cases ho : s.cfg.dds.order with
  | little => simp (disch := omega) [ddsField, fieldAt, ho, le32At, le32_toNat, le32Nat, Nat.add_assoc]
  | big => simp (disch := omega) [ddsField, fieldAt, ho, be32At, be32_toNat, be32Nat, Nat.add_assoc]

/-- A tag in `MEM` is the tag of the header's bytes. -/
theorem hasTag_iff {s : State} {a k : Nat} (hk : k < 125) {q : Quad} :
    hasTag s (a + k) q ↔ quadAt (s.bytes a 128) k = q := by
  cases q
  simp (disch := omega) [hasTag, quadAt, Nat.add_assoc]

theorem hasMagic_iff {s : State} {a : Nat} {q : Quad} : hasTag s a q ↔ quadAt (s.bytes a 128) 0 = q :=
  hasTag_iff (k := 0) (by omega)

/-- The info of `BadMagic`: the first word of the header, little-endian (rule R201). -/
theorem le32At_bytes (s : State) (a : Nat) : le32At (s.bytes a 128) 0
    = BitVec.ofNat 32 (le32Nat (s.byte a) (s.byte (a + 1)) (s.byte (a + 2)) (s.byte (a + 3))) := by
  rw [le32Nat, ← le32_toNat, BitVec.ofNat_toNat, BitVec.setWidth_eq]
  simp [le32At]

/-! ### The two accounts of the derived values (rules R24, R132 to R134) -/

/-- A value of `FMT` other than 3 is that of a format. -/
theorem exists_format {b : BitVec 2} (h : b ≠ 3) : ∃ f : Format, b = f.bits := by
  rcases formatOfBits_cases b with ⟨h3, -⟩ | ⟨rfl, -⟩ | ⟨rfl, -⟩ | ⟨rfl, -⟩
  · exact absurd h3 h
  · exact ⟨.rawRgba8, rfl⟩
  · exact ⟨.blockDxt1, rfl⟩
  · exact ⟨.blockDxt5, rfl⟩

theorem formatOfBits_eq_none_iff {b : BitVec 2} : formatOfBits b = none ↔ b = 3 := by
  revert b; decide

theorem flagsOf_eq_flagsWord (c : DdsConst) (m : Byte) (f : Format) : flagsOf c m f = flagsWord c m f.bits := by
  cases f <;> rfl

theorem pitchOrLinearSize_toNat (w : Half) (f : Format) : (pitchOrLinearSize w f).toNat = pitchNat w f.bits := by
  have := w.isLt
  cases f <;>
    simp [pitchOrLinearSize, pitchNat, Format.bits, Format.compressed, Format.bytesPerBlock, blocksWide] <;> omega

/-! ### Headers seen in `MEM` -/

/-- Where the six words are those of a header built from the registers of `s`. -/
theorem sixWords_of_fieldAt {s t : State} (hwf : s.cfg.dds.offsets.wf = true) {f : Format} (hf : s.fmt = f.bits)
    {a : Nat} (hcfg : t.cfg = s.cfg)
    (h : ∀ k ∈ sixFields s.cfg.dds.offsets, fieldAt s.cfg.dds (t.bytes a 128) k
      = fieldAt s.cfg.dds (buildHeader s.cfg.dds s.width s.height s.mips f) k) : SixWords s t a := by
  obtain ⟨-, -, hflags, hheight, hwidth, hpitch, hmips, -, -, -, -, -, -, -, hcaps⟩ :=
    fieldAt_buildHeader hwf s.width s.height s.mips f
  simp only [sixFields, List.forall_mem_cons] at h
  obtain ⟨h1, h2, h3, h4, h5, h6, -⟩ := h
  simp only [SixWords, ddsField_eq, hcfg, h1, h2, h3, h4, h5, h6, hflags, hheight, hwidth, hpitch, hmips, hcaps]
  refine ⟨?_, ?_, ?_, ?_, ?_, rfl⟩
  · rw [hf, flagsOf_eq_flagsWord]
  · exact BitVec.toNat_setWidth_of_le (by omega)
  · exact BitVec.toNat_setWidth_of_le (by omega)
  · rw [hf, pitchOrLinearSize_toNat]
  · exact BitVec.toNat_setWidth_of_le (by omega)

/-- The pixel-format fields of a built header (rule R135). -/
theorem pixelFormatWords_of_built {t : State} (hwf : t.cfg.dds.offsets.wf = true) {a : Nat} {w h : Half} {m : Byte}
    {f : Format} (ht : t.bytes a 128 = buildHeader t.cfg.dds w h m f) : PixelFormatWords t a f.bits := by
  obtain ⟨-, -, -, -, -, -, -, hsize, hflags, hbits, hr, hg, hb, ha, -⟩ := fieldAt_buildHeader hwf w h m f
  obtain ⟨hraw, hdxt1, hdxt5⟩ := fourcc_buildHeader hwf w h m
  simp only [PixelFormatWords, ddsField_eq, hasTag_iff (Fin.isLt _), ht, hsize, hflags, hbits, hr, hg, hb, ha]
  cases f <;> simp [Format.bits, pfFlags, rawOnly, Format.compressed, hraw, hdxt1, hdxt5]

/-- Every offset is the magic's or that of a field of `DdsConst`. -/
theorem eq_zero_or_mem_allFields (o : DdsOffsets) : ∀ k ∈ o.all, k = 0 ∨ ∃ x ∈ allFields o, k = x.val := by
  simp [DdsOffsets.all, allFields, sixFields]

/-- A byte after the magic that lies in no field of `DdsConst` lies in no field. -/
theorem inField_eq_false {o : DdsOffsets} {i : Nat} (hi : 4 ≤ i) (h : ∀ x ∈ allFields o, ¬ InField x i) :
    ∀ k ∈ o.all, inField k i = false := by
  intro k hk
  rw [← Bool.not_eq_true]
  rcases eq_zero_or_mem_allFields o k hk with rfl | ⟨x, hx, rfl⟩
  · rw [inField_iff]; omega
  · rw [inField_eq_true_iff]; exact h x hx

/-! ### Completion -/

/-- `s` with a completed store of the bytes `d` at `DST` (rules R26, R67). -/
def stored (s : State) (d : List Byte) : State :=
  { s with status := doneStatus s, mem := insertBytes s.mem s.dst.toNat d }

/-- Nothing but `STATUS` and `MEM` is changed. -/
theorem stored_frame (s : State) (d : List Byte) :
    stored s d = { s with status := doneStatus s, mem := (stored s d).mem } := by
  simp only [stored]

/-- The destination holds the bytes stored. -/
theorem stored_bytes (s : State) {d : List Byte} {n : Nat} (hd : d.length = n) :
    (stored s d).bytes s.dst.toNat n = d := by
  subst hd
  exact (bytes_congr rfl rfl ..).trans (bytes_insertBytes_same s s.dst.toNat d)

theorem stored_byte (s : State) {d : List Byte} {i : Nat} (hi : i < d.length) :
    (stored s d).byte (s.dst.toNat + i) = byteAt d i := by
  rw [← byteAt_bytes _ _ _ _ hi, stored_bytes s rfl]

theorem stored_byte_outside (s : State) {d : List Byte} {a : Nat}
    (ha : a < s.dst.toNat ∨ s.dst.toNat + d.length ≤ a) : (stored s d).byte a = s.byte a :=
  (byte_insertBytes s ..).trans (if_neg (by omega))

/-- The header built from the registers (rule R136). -/
def builtHeader (s : State) (f : Format) : List Byte := buildHeader s.cfg.dds s.width s.height s.mips f

@[simp] theorem length_builtHeader (s : State) (f : Format) : (builtHeader s f).length = 128 := length_buildHeader ..

/-- `DDSBUILD` with its tests passed. -/
theorem ddsbuild_passed {s : State} {f : Format} (hdst : inMem s s.dst s.dstlen) (hlen : 128 ≤ s.dstlen.toNat)
    (hf : s.fmt = f.bits) : exec .ddsbuild s = .next (stored s (builtHeader s f)) := by
  have hfmt : formatOfBits s.fmt = some f := hf ▸ formatOfBits_bits f
  rcases execDdsbuild_cases s with ⟨hn, -⟩ | ⟨-, hn, -⟩ | ⟨-, -, hn, -⟩ | ⟨g, -, -, hg, he⟩
  · exact absurd hdst hn
  · omega
  · cases hfmt.symm.trans hn
  · cases hfmt.symm.trans hg
    exact he

/-- Settles O40: what the destination holds is the built header, so its words and its other bytes are known. -/
theorem ddsbuildWritesTheHeader : Obligations.DdsbuildWritesTheHeader := by
  unfold Obligations.DdsbuildWritesTheHeader
  intro s hwf hdst hlen hfmt
  obtain ⟨f, hf⟩ := exists_format hfmt
  have hbytes : (stored s (builtHeader s f)).bytes s.dst.toNat 128 = builtHeader s f :=
    stored_bytes s (length_builtHeader s f)
  obtain ⟨hmagic, hsize, -⟩ := fieldAt_buildHeader hwf s.width s.height s.mips f
  refine ⟨stored s (builtHeader s f), ⟨ddsbuild_passed hdst hlen hf, stored_frame ..⟩, ?_, ?_, ?_, ?_,
    fun k hk hk' hno => ?_, fun a ha => stored_byte_outside s (by rwa [length_builtHeader])⟩
  · rw [hasMagic_iff, hbytes]
    exact hmagic
  · rw [ddsField_eq _ _ s.cfg.dds.offsets.size, hbytes]
    exact congrArg BitVec.toNat hsize
  · exact sixWords_of_fieldAt hwf hf rfl fun k _ => by rw [hbytes]; rfl
  · rw [hf]
    exact pixelFormatWords_of_built (t := stored s (builtHeader s f)) hwf hbytes
  · rw [stored_byte s (by simpa using hk')]
    exact zero_buildHeader _ _ _ _ _ _ hk' (inField_eq_false hk hno)

/-- The template at `SRC` with its six words replaced from the registers (rule R140). -/
def patchedHeader (s : State) (f : Format) : List Byte :=
  patchHeader s.cfg.dds (s.bytes s.src.toNat 128) s.width s.height s.mips f

@[simp] theorem length_patchedHeader (s : State) (f : Format) : (patchedHeader s f).length = 128 :=
  length_patchHeader ..

/-- `DDSPATCH` with its tests passed. -/
theorem ddspatch_passed {s : State} {f : Format} (hsrc : inMem s s.src s.srclen) (hdst : inMem s s.dst s.dstlen)
    (hslen : 128 ≤ s.srclen.toNat) (hdlen : 128 ≤ s.dstlen.toNat) (hf : s.fmt = f.bits)
    (hmagic : hasTag s s.src.toNat s.cfg.dds.magic) : exec .ddspatch s = .next (stored s (patchedHeader s f)) := by
  have hfmt : formatOfBits s.fmt = some f := hf ▸ formatOfBits_bits f
  rcases execDdspatch_cases s with ⟨k, info, -, ⟨hn, -⟩ | ⟨-, hn, -⟩ | ⟨-, -, ⟨hn, -⟩ | ⟨-, hn, -⟩ | ⟨-, hn, -⟩
    | ⟨-, -, hn, -⟩ | ⟨-, -, -, hn, -⟩⟩⟩ | ⟨g, -, -, -, -, hg, -, he⟩
  · exact absurd hsrc hn
  · exact absurd hdst hn
  · simp [hn] at hslen
  · omega
  · omega
  · cases hfmt.symm.trans hn
  · exact absurd (hasMagic_iff.1 hmagic) hn
  · cases hfmt.symm.trans hg
    exact he

/-- Settles O42: what the destination holds is the patched header, read before any byte of it is written. -/
theorem ddspatchReplacesSixWords : Obligations.DdspatchReplacesSixWords := by
  unfold Obligations.DdspatchReplacesSixWords
  intro s hwf hsrc hdst hslen hdlen hfmt hmagic
  obtain ⟨f, hf⟩ := exists_format hfmt
  have hbytes : (stored s (patchedHeader s f)).bytes s.dst.toNat 128 = patchedHeader s f :=
    stored_bytes s (length_patchedHeader s f)
  refine ⟨stored s (patchedHeader s f), ⟨ddspatch_passed hsrc hdst hslen hdlen hf hmagic, stored_frame ..⟩, ?_,
    fun i hi hno => ?_, fun a ha => stored_byte_outside s (by rwa [length_patchedHeader])⟩
  · exact sixWords_of_fieldAt hwf hf rfl fun k hk => by rw [hbytes]; exact fieldAt_patchHeader _ _ _ _ _ _ k hk
  · rw [stored_byte s (by simpa using hi), patchedHeader, byteAt_patchHeader_kept _ _ _ _ _ _ hi hno,
      byteAt_bytes _ _ _ _ hi]

/-! ### Faults -/

/-- Settles O41: the first test that fails decides. -/
theorem ddsbuildFaultOrder : Obligations.DdsbuildFaultOrder := by
  unfold Obligations.DdsbuildFaultOrder
  intro s
  rcases execDdsbuild_cases s with ⟨hdst, he⟩ | ⟨hdst, hlen, he⟩ | ⟨hdst, hlen, -, he⟩ | ⟨f, hdst, hlen, hf, -⟩
  · exact ⟨fun _ => he, fun h => absurd h hdst, fun h => absurd h hdst⟩
  · exact ⟨fun h => absurd hdst h, fun _ _ => he, fun _ h => absurd hlen h.not_gt⟩
  · exact ⟨fun h => absurd hdst h, fun _ h => absurd hlen h.not_ge, fun _ _ _ => he⟩
  · refine ⟨fun h => absurd hdst h, fun _ h => absurd hlen h.not_ge, fun _ _ h => ?_⟩
    cases hf.symm.trans (formatOfBits_eq_none_iff.2 h)

/-- Settles O43: the first test that fails decides. -/
theorem ddspatchFaultOrder : Obligations.DdspatchFaultOrder := by
  unfold Obligations.DdspatchFaultOrder
  intro s
  have hzero : s.srclen = 0 ↔ s.srclen.toNat = 0 := BitVec.toNat_inj.symm
  rw [← le32At_bytes, hasMagic_iff, hzero]
  rcases execDdspatch_cases s with ⟨k, info, he, ⟨hsrc, rfl, rfl⟩ | ⟨hsrc, hdst, rfl, rfl⟩ | ⟨hsrc, hdst, hfault⟩⟩
    | ⟨f, hsrc, hdst, hslen, hdlen, hf, hm, -⟩
  · exact ⟨fun _ => he, fun h => absurd h hsrc, fun h => absurd h hsrc⟩
  · exact ⟨fun h => absurd hsrc h, fun _ _ => he, fun _ h => absurd h hdst⟩
  · refine ⟨fun h => absurd hsrc h, fun _ h => absurd hdst h, fun _ _ => ?_⟩
    rcases hfault with ⟨hslen, rfl, rfl⟩ | ⟨hslen, hslen', rfl, rfl⟩ | ⟨hslen, hdlen, rfl, rfl⟩
      | ⟨hslen, hdlen, hf, rfl, rfl⟩ | ⟨hslen, hdlen, hf, hm, rfl, rfl⟩
    · rw [hzero] at hslen
      exact ⟨fun _ => he, by omega, by omega, by omega, by omega⟩
    · exact ⟨fun h => absurd (hzero.2 h) hslen, fun _ _ => he, by omega, by omega, by omega⟩
    · exact ⟨by omega, by omega, fun _ _ => he, by omega, by omega⟩
    · exact ⟨by omega, by omega, by omega, fun _ _ _ => he, fun _ _ h => absurd (formatOfBits_eq_none_iff.1 hf) h⟩
    · refine ⟨by omega, by omega, by omega, fun _ _ h => ?_, fun _ _ _ _ => he⟩
      simp [formatOfBits_eq_none_iff.2 h] at hf
  · refine ⟨fun h => absurd hsrc h, fun _ h => absurd hdst h, fun _ _ => ?_⟩
    refine ⟨by omega, by omega, by omega, fun _ _ h => ?_, fun _ _ _ h => absurd hm h⟩
    cases hf.symm.trans (formatOfBits_eq_none_iff.2 h)

end Sys2Proof.Proofs
end

section
/-! PROOFS. The command that reads a target header: what `DDSPARSE` completes with, the order of its faults, and that
it recovers what `DDSBUILD` wrote (rules R142 to R147, R207). -/

namespace Sys2Proof.Proofs

open Sys2Proof.Machine Sys2Proof.Laws Sys2Proof.Claims

/-! ### The tests on the contents of a header (rules R143, R145) -/

section

variable {c : DdsConst} {d : List Byte}

theorem ddsparseFault_badMagic (hm : quadAt d 0 ≠ c.magic) : ddsparseFault c d = some (.badMagic, le32At d 0) :=
  if_pos hm

variable (hm : quadAt d 0 = c.magic)
include hm

theorem ddsparseFault_height (hh : 0xFFFF < (fieldAt c d c.offsets.height).toNat) :
    ddsparseFault c d = some (.unsupportedFormat, offsetInfo c.offsets.height) := by
  rw [ddsparseFault, if_neg (not_not.2 hm), if_pos hh]

variable (hh : (fieldAt c d c.offsets.height).toNat ≤ 0xFFFF)
include hh

theorem ddsparseFault_width (hw : 0xFFFF < (fieldAt c d c.offsets.width).toNat) :
    ddsparseFault c d = some (.unsupportedFormat, offsetInfo c.offsets.width) := by
  rw [ddsparseFault, if_neg (not_not.2 hm), if_neg hh.not_gt, if_pos hw]

variable (hw : (fieldAt c d c.offsets.width).toNat ≤ 0xFFFF)
include hw

theorem ddsparseFault_mipMapCount (hp : 0xFF < (fieldAt c d c.offsets.mipMapCount).toNat) :
    ddsparseFault c d = some (.unsupportedFormat, offsetInfo c.offsets.mipMapCount) := by
  rw [ddsparseFault, if_neg (not_not.2 hm), if_neg hh.not_gt, if_neg hw.not_gt, if_pos hp]

variable (hp : (fieldAt c d c.offsets.mipMapCount).toNat ≤ 0xFF)
include hp

theorem ddsparseFault_unsupported {k : Word} (hf : formatOf c d = .unsupported k) :
    ddsparseFault c d = some (.unsupportedFormat, k) := by
  rw [ddsparseFault, if_neg (not_not.2 hm), if_neg hh.not_gt, if_neg hw.not_gt, if_neg hp.not_gt, hf]

theorem ddsparseFault_none {f : Format} (hf : formatOf c d = .ok f) : ddsparseFault c d = none := by
  rw [ddsparseFault, if_neg (not_not.2 hm), if_neg hh.not_gt, if_neg hw.not_gt, if_neg hp.not_gt, hf]

end

/-! ### The format that a header in `MEM` shows (rule R143) -/

theorem formatOf_of_showsFormat {s : State} {a : Nat} {b : BitVec 2} (h : ShowsFormat s a b) :
    ∃ f : Format, formatOf s.cfg.dds (s.bytes a 128) = .ok f ∧ f.bits = b := by
  simp only [ShowsFormat, ddsField_eq, hasTag_iff (Fin.isLt _), BitVec.ofNat_toNat, BitVec.setWidth_eq,
    BitVec.toNat_inj] at h
  rcases h with ⟨hpf, htag, rfl⟩ | ⟨hpf, htag, htag', rfl⟩ | ⟨hpf, hpf', hbits, rfl⟩
  · exact ⟨.blockDxt1, by rw [formatOf, if_pos hpf, if_pos htag], rfl⟩
  · exact ⟨.blockDxt5, by rw [formatOf, if_pos hpf, if_neg htag, if_pos htag'], rfl⟩
  · exact ⟨.rawRgba8, by rw [formatOf, if_neg (not_not.2 hpf), if_pos hpf', if_pos hbits], rfl⟩

theorem formatOf_of_showsUnsupported {s : State} {a : Nat} {k : FieldOffset} (h : ShowsUnsupported s a k) :
    formatOf s.cfg.dds (s.bytes a 128) = .unsupported (offsetInfo k) := by
  simp only [ShowsUnsupported, ddsField_eq, hasTag_iff (Fin.isLt _), BitVec.ofNat_toNat, BitVec.setWidth_eq, ne_eq,
    BitVec.toNat_inj] at h
  rcases h with ⟨hpf, htag, htag', rfl⟩ | ⟨hpf, hpf', hbits, rfl⟩ | ⟨hpf, hpf', rfl⟩
  · rw [formatOf, if_pos hpf, if_neg htag, if_neg htag']
  · rw [formatOf, if_neg (not_not.2 hpf), if_pos hpf', if_neg hbits]
  · rw [formatOf, if_neg (not_not.2 hpf), if_neg (not_not.2 hpf')]

/-! ### The command -/

/-- `DDSPARSE` of a header whose contents fail a test. -/
theorem ddsparse_faults {s : State} {k : FaultKind} {info : Word} (hsrc : inMem s s.src s.srclen)
    (hlen : 128 ≤ s.srclen.toNat) (hf : ddsparseFault s.cfg.dds (s.bytes s.src.toNat 128) = some (k, info)) :
    FaultsWith .ddsparse s k.code info := by
  rcases execDdsparse_cases s with ⟨hn, -⟩ | ⟨-, hn, -⟩ | ⟨k', info', -, -, hf', he⟩ | ⟨f, -, -, hf', -⟩
  · exact absurd hsrc hn
  · omega
  · cases hf.symm.trans hf'
    exact he
  · cases hf.symm.trans hf'

/-- `s` with a completed `DDSPARSE`: three registers hold the fields of the header `d`, and `FMT` its format (rule
R145). -/
def headerRead (s : State) (d : List Byte) (f : Format) : State :=
  { s with
    status := doneStatus s
    width := (fieldAt s.cfg.dds d s.cfg.dds.offsets.width).setWidth 16
    height := (fieldAt s.cfg.dds d s.cfg.dds.offsets.height).setWidth 16
    mips := (fieldAt s.cfg.dds d s.cfg.dds.offsets.mipMapCount).setWidth 8
    fmt := f.bits }

/-- `DDSPARSE` with its tests passed. -/
theorem ddsparse_passed {s : State} {d : List Byte} {f : Format} (hsrc : inMem s s.src s.srclen)
    (hlen : 128 ≤ s.srclen.toNat) (hd : s.bytes s.src.toNat 128 = d) (hn : ddsparseFault s.cfg.dds d = none)
    (hf : formatOf s.cfg.dds d = .ok f) : exec .ddsparse s = .next (headerRead s d f) := by
  subst hd
  rcases execDdsparse_cases s with ⟨h, -⟩ | ⟨-, h, -⟩ | ⟨k, info, -, -, h, -⟩ | ⟨g, -, -, -, hg, he⟩
  · exact absurd hsrc h
  · omega
  · cases hn.symm.trans h
  · cases hf.symm.trans hg
    exact he

/-- Settles O44: the fields of the bytes read, which fit their registers. -/
theorem ddsparseReadsTheHeader : Obligations.DdsparseReadsTheHeader := by
  unfold Obligations.DdsparseReadsTheHeader
  intro s b hsrc hlen hm hh hw hp hb
  obtain ⟨f, hf, rfl⟩ := formatOf_of_showsFormat hb
  simp only [ddsField_eq] at hh hw hp ⊢
  have hn := ddsparseFault_none (hasMagic_iff.1 hm) hh hw hp hf
  refine ⟨_, ddsparse_passed hsrc hlen rfl hn hf, ?_, ?_, ?_, rfl, rfl⟩
  · exact (BitVec.toNat_setWidth ..).trans (Nat.mod_eq_of_lt (by omega))
  · exact (BitVec.toNat_setWidth ..).trans (Nat.mod_eq_of_lt (by omega))
  · exact (BitVec.toNat_setWidth ..).trans (Nat.mod_eq_of_lt (by omega))

/-- Settles O45: the first test that fails decides. -/
theorem ddsparseFaultOrder : Obligations.DdsparseFaultOrder := by
  unfold Obligations.DdsparseFaultOrder
  intro s
  simp only [ddsField_eq, hasMagic_iff, ← le32At_bytes]
  refine ⟨fun hsrc => ?_, fun hsrc hlen => ?_, fun hsrc hlen => ?_⟩
  · rcases execDdsparse_cases s with ⟨-, he⟩ | ⟨h, -⟩ | ⟨_, _, h, -⟩ | ⟨_, h, -⟩
    · exact he
    · exact absurd h hsrc
    · exact absurd h hsrc
    · exact absurd h hsrc
  · rcases execDdsparse_cases s with ⟨h, -⟩ | ⟨-, -, he⟩ | ⟨_, _, -, h, -⟩ | ⟨_, -, h, -⟩
    · exact absurd hsrc h
    · exact he
    · exact absurd hlen h.not_gt
    · exact absurd hlen h.not_gt
  · have hfault := fun k info => ddsparse_faults (k := k) (info := info) hsrc hlen
    exact ⟨fun hm => hfault _ _ (ddsparseFault_badMagic hm), fun hm =>
      ⟨fun hh => hfault _ _ (ddsparseFault_height hm hh), fun hh hw => hfault _ _ (ddsparseFault_width hm hh hw),
        fun hh hw => ⟨fun hp => hfault _ _ (ddsparseFault_mipMapCount hm hh hw hp),
          fun k hp hk => hfault _ _ (ddsparseFault_unsupported hm hh hw hp (formatOf_of_showsUnsupported hk))⟩⟩⟩

/-! ### Building and reading back (rule R147 law 1) -/

/-- A built header passes every test. -/
theorem ddsparseFault_buildHeader {c : DdsConst} (hc : c.wf = true) (w t : Half) (m : Byte) (f : Format) :
    ddsparseFault c (buildHeader c w t m f) = none := by
  obtain ⟨-, -, -, -, hoff⟩ := ddsConst_wf hc
  obtain ⟨hm, -, -, hh, hw, -, hp, -⟩ := fieldAt_buildHeader hoff w t m f
  have hle {n : Nat} (v : BitVec n) (hn : n ≤ 32) : (v.setWidth 32).toNat ≤ 2 ^ n - 1 := by
    rw [BitVec.toNat_setWidth_of_le hn]; have := v.isLt; omega
  exact ddsparseFault_none hm (by rw [hh]; exact hle t (by omega)) (by rw [hw]; exact hle w (by omega))
    (by rw [hp]; exact hle m (by omega)) (formatOf_buildHeader hc w t m f)

/-- `DDSPARSE` of a built header completes with the values that it was built from. -/
theorem ddsparse_buildHeader {u : State} (hc : u.cfg.dds.wf = true) (hsrc : inMem u u.src u.srclen)
    (hlen : 128 ≤ u.srclen.toNat) {w t : Half} {m : Byte} {f : Format}
    (hd : u.bytes u.src.toNat 128 = buildHeader u.cfg.dds w t m f) :
    ∃ v, exec .ddsparse u = .next v ∧ v.status.done = true ∧ v.width = w ∧ v.height = t ∧ v.mips = m
      ∧ v.fmt = f.bits := by
  obtain ⟨-, -, -, -, hoff⟩ := ddsConst_wf hc
  obtain ⟨-, -, -, hheight, hwidth, -, hmips, -⟩ := fieldAt_buildHeader hoff w t m f
  refine ⟨_, ddsparse_passed hsrc hlen hd (ddsparseFault_buildHeader hc ..) (formatOf_buildHeader hc ..), rfl, ?_, ?_,
    ?_, rfl⟩
  · simp [headerRead, hwidth]
  · simp [headerRead, hheight]
  · simp [headerRead, hmips]

/-- `s` after the host wrote the registers that `DDSPARSE` reads and those it will write (rule R26). -/
def withParseRegisters (s : State) (src srclen : Word) (w t : Half) (m : Byte) (b : BitVec 2) : State :=
  { s with src := src, srclen := srclen, width := w, height := t, mips := m, fmt := b }

theorem withParseRegisters_bytes (s : State) (src srclen : Word) (w t : Half) (m : Byte) (b : BitVec 2) (a n : Nat) :
    (withParseRegisters s src srclen w t m b).bytes a n = s.bytes a n := rfl

/-- Settles O46: what `DDSBUILD` wrote is a built header, and the host's register writes leave it in `MEM`. -/
theorem buildThenParseRecovers : Obligations.BuildThenParseRecovers := by
  unfold Obligations.BuildThenParseRecovers
  intro s w t' m b hc hdst hlen hfmt
  obtain ⟨f, hf⟩ := exists_format hfmt
  have hbytes := (withParseRegisters_bytes _ s.dst s.dstlen w t' m b ..).trans
    (stored_bytes s (length_builtHeader s f))
  obtain ⟨v, hv, hdone, hw, ht, hm, hfv⟩ := ddsparse_buildHeader
    (u := withParseRegisters (stored s (builtHeader s f)) s.dst s.dstlen w t' m b) hc hdst hlen hbytes
  exact ⟨stored s (builtHeader s f), v, ddsbuild_passed hdst hlen hf, hv, hdone, hw, ht, hm, hfv.trans hf.symm⟩

end Sys2Proof.Proofs
end

section
/-! PROOFS. Where each coordinate bit stands in the Morton index, and from it rules R161, R163 and R164: the index is
below `2^(nx+ny)`, injective, strictly monotone in each coordinate, and a bijection at power-of-two sizes. -/

namespace Sys2Proof.Proofs

open Sys2Proof.Machine Sys2Proof.Laws

/-! ### Bits of an axis (rule R161) -/

theorem nbits_le_iff {d n : Nat} : nbits d ≤ n ↔ d ≤ 2 ^ n := by
  have hone : 1 ≤ 2 ^ n := Nat.one_le_two_pow
  unfold nbits
  split_ifs with hd
  · omega
  · rw [Nat.succ_le_iff, Nat.log2_lt (by omega)]
    omega

theorem le_two_pow_nbits (d : Nat) : d ≤ 2 ^ nbits d := nbits_le_iff.1 le_rfl

@[simp] theorem nbits_two_pow (a : Nat) : nbits (2 ^ a) = a :=
  eq_of_forall_ge_iff fun n => by rw [nbits_le_iff, Nat.pow_le_pow_iff_right (by omega)]

theorem nbits_le_sixteen {d : Nat} (hd : d ≤ 65535) : nbits d ≤ 16 := nbits_le_iff.2 (by omega)

/-! ### One round of the loop (rule R162) -/

theorem testBit_zero_coordBit_add (v i m : Nat) : (coordBit v i + 2 * m).testBit 0 = v.testBit i := by
  simp [coordBit, Nat.testBit_eq_decide_div_mod_eq, Nat.shiftRight_eq_div_pow]

theorem testBit_succ_coordBit_add (v i m k : Nat) : (coordBit v i + 2 * m).testBit (k + 1) = m.testBit k := by
  have := coordBit_le_one v i
  rw [Nat.testBit_add_one]
  congr 1
  omega

section

variable {nx ny i : Nat} (x y rounds : Nat)

/-- A round in which both axes have a bit left. -/
theorem mortonTail_both (hx : i < nx) (hy : i < ny) : mortonTail nx ny x y (rounds + 1) i
    = coordBit x i + 2 * (coordBit y i + 2 * mortonTail nx ny x y rounds (i + 1)) := by
  rw [mortonTail, if_pos hx, if_pos hy]
  ring

/-- A round in which `x` alone has a bit left. -/
theorem mortonTail_x (hx : i < nx) (hy : ny ≤ i) :
    mortonTail nx ny x y (rounds + 1) i = coordBit x i + 2 * mortonTail nx ny x y rounds (i + 1) := by
  rw [mortonTail, if_pos hx, if_neg hy.not_gt]

/-- A round in which `y` alone has a bit left. -/
theorem mortonTail_y (hx : nx ≤ i) (hy : i < ny) :
    mortonTail nx ny x y (rounds + 1) i = coordBit y i + 2 * mortonTail nx ny x y rounds (i + 1) := by
  rw [mortonTail, if_neg hx.not_gt, if_pos hy]

/-- A round in which no axis has a bit left. -/
theorem mortonTail_none (hx : nx ≤ i) (hy : ny ≤ i) : mortonTail nx ny x y (rounds + 1) i = 0 := by
  rw [mortonTail, if_neg hx.not_gt, if_neg hy.not_gt]

end

/-! ### Where the bits stand (rule R163) -/

section

variable {nx ny k : Nat} (x y : Nat)

/-- Bit `k` of `x` stands above the bits of `x` from `i` to `k - 1` and those of `y` from `i` to `k - 1`. -/
theorem testBit_mortonTail_x (hk : k < nx) (rounds i : Nat) (hi : i ≤ k) (hr : k < i + rounds) :
    (mortonTail nx ny x y rounds i).testBit ((k - i) + (min k ny - i)) = x.testBit k := by
  induction rounds generalizing i with
  | zero => omega
  | succ n ih =>
    have hx : i < nx := by omega
    rcases hi.eq_or_lt with rfl | hlt
    · have hpos : (i - i) + (min i ny - i) = 0 := by omega
      rw [hpos]
      rcases Nat.lt_or_ge i ny with hy | hy
      · rw [mortonTail_both x y n hx hy, testBit_zero_coordBit_add]
      · rw [mortonTail_x x y n hx hy, testBit_zero_coordBit_add]
    · rw [← ih (i + 1) hlt (by omega)]
      rcases Nat.lt_or_ge i ny with hy | hy
      · have hpos : (k - i) + (min k ny - i) = (k - (i + 1)) + (min k ny - (i + 1)) + 1 + 1 := by omega
        rw [hpos, mortonTail_both x y n hx hy, testBit_succ_coordBit_add, testBit_succ_coordBit_add]
      · have hpos : (k - i) + (min k ny - i) = (k - (i + 1)) + (min k ny - (i + 1)) + 1 := by omega
        rw [hpos, mortonTail_x x y n hx hy, testBit_succ_coordBit_add]

/-- Bit `k` of `y` stands above the bits of `y` from `i` to `k - 1` and those of `x` from `i` to `k`. -/
theorem testBit_mortonTail_y (hk : k < ny) (rounds i : Nat) (hi : i ≤ k) (hr : k < i + rounds) :
    (mortonTail nx ny x y rounds i).testBit ((k - i) + (min (k + 1) nx - i)) = y.testBit k := by
  induction rounds generalizing i with
  | zero => omega
  | succ n ih =>
    have hy : i < ny := by omega
    rcases hi.eq_or_lt with rfl | hlt
    · rcases Nat.lt_or_ge i nx with hx | hx
      · have hpos : (i - i) + (min (i + 1) nx - i) = 0 + 1 := by omega
        rw [hpos, mortonTail_both x y n hx hy, testBit_succ_coordBit_add, testBit_zero_coordBit_add]
      · have hpos : (i - i) + (min (i + 1) nx - i) = 0 := by omega
        rw [hpos, mortonTail_y x y n hx hy, testBit_zero_coordBit_add]
    · rw [← ih (i + 1) hlt (by omega)]
      rcases Nat.lt_or_ge i nx with hx | hx
      · have hpos : (k - i) + (min (k + 1) nx - i) = (k - (i + 1)) + (min (k + 1) nx - (i + 1)) + 1 + 1 := by omega
        rw [hpos, mortonTail_both x y n hx hy, testBit_succ_coordBit_add, testBit_succ_coordBit_add]
      · have hpos : (k - i) + (min (k + 1) nx - i) = (k - (i + 1)) + (min (k + 1) nx - (i + 1)) + 1 := by omega
        rw [hpos, mortonTail_y x y n hx hy, testBit_succ_coordBit_add]

/-- The rounds from `i` on place no more bits than the axes have left. -/
theorem mortonTail_lt (nx ny rounds i : Nat) : mortonTail nx ny x y rounds i < 2 ^ ((nx - i) + (ny - i)) := by
  induction rounds generalizing i with
  | zero => exact Nat.two_pow_pos _
  | succ n ih =>
    have ih := ih (i + 1)
    have hxb := coordBit_le_one x i
    have hyb := coordBit_le_one y i
    rcases Nat.lt_or_ge i nx with hx | hx
    · rcases Nat.lt_or_ge i ny with hy | hy
      · have hpos : (nx - i) + (ny - i) = (nx - (i + 1)) + (ny - (i + 1)) + 1 + 1 := by omega
        rw [mortonTail_both x y n hx hy, hpos, Nat.pow_succ, Nat.pow_succ]
        omega
      · have hpos : (nx - i) + (ny - i) = (nx - (i + 1)) + (ny - (i + 1)) + 1 := by omega
        rw [mortonTail_x x y n hx hy, hpos, Nat.pow_succ]
        omega
    · rcases Nat.lt_or_ge i ny with hy | hy
      · have hpos : (nx - i) + (ny - i) = (nx - (i + 1)) + (ny - (i + 1)) + 1 := by omega
        rw [mortonTail_y x y n hx hy, hpos, Nat.pow_succ]
        omega
      · rw [mortonTail_none x y n hx hy]
        exact Nat.two_pow_pos _

end

section

variable {w h k : Nat} (x y : Nat)

theorem testBit_interleave_x (hk : k < nbits w) :
    (interleave w h x y).testBit (k + min k (nbits h)) = x.testBit k := by
  rw [interleave_eq]
  exact testBit_mortonTail_x x y hk _ 0 (by omega) (by omega)

theorem testBit_interleave_y (hk : k < nbits h) :
    (interleave w h x y).testBit (k + min (k + 1) (nbits w)) = y.testBit k := by
  rw [interleave_eq]
  exact testBit_mortonTail_y x y hk _ 0 (by omega) (by omega)

theorem interleave_lt (w h : Nat) : interleave w h x y < 2 ^ (nbits w + nbits h) := by
  rw [interleave_eq]
  exact mortonTail_lt x y _ _ _ 0

end

/-- Settles O50: the places of the bits, in the two parts of each axis. -/
theorem interleaveClosedForm : Obligations.InterleaveClosedForm := by
  unfold Obligations.InterleaveClosedForm
  intro w h x y
  refine ⟨fun i hi => ⟨?_, ?_⟩, fun i hh hw => ?_, fun j hw hh => ?_, interleave_lt x y w h⟩
  · have hpos : 2 * i = i + min i (nbits h) := by omega
    rw [hpos, testBit_interleave_x x y (by omega)]
  · have hpos : 2 * i + 1 = i + min (i + 1) (nbits w) := by omega
    rw [hpos, testBit_interleave_y x y (by omega)]
  · have hpos : nbits h + i = i + min i (nbits h) := by omega
    rw [hpos, testBit_interleave_x x y hw]
  · have hpos : nbits w + j = j + min (j + 1) (nbits w) := by omega
    rw [hpos, testBit_interleave_y x y hh]

/-- Settles O49: `nbits d ≤ n` exactly when `d ≤ 2^n`, and an index has no more bits than both axes together. -/
theorem nbitsIsTheLeast : Obligations.NbitsIsTheLeast := by
  unfold Obligations.NbitsIsTheLeast
  refine ⟨fun d _ => ⟨le_two_pow_nbits d, fun n hn => nbits_le_iff.2 hn, fun x hx => lt_two_pow_nbits hx⟩,
    fun d _ hd => nbits_le_sixteen hd, fun w h x y _ hw _ hh => ?_⟩
  have hbits : nbits w + nbits h ≤ 32 := Nat.add_le_add (nbits_le_sixteen hw) (nbits_le_sixteen hh)
  exact (interleave_lt x y w h).trans_le (Nat.pow_le_pow_right Nat.two_pos hbits)

/-! ### The laws of the index (rule R164) -/

/-- Numbers below `2^n` that agree on their bits below `n` are equal. -/
theorem eq_of_testBit_below {n x x' : Nat} (hx : x < 2 ^ n) (hx' : x' < 2 ^ n)
    (h : ∀ k, k < n → x.testBit k = x'.testBit k) : x = x' := by
  refine Nat.eq_of_testBit_eq fun k => ?_
  rcases Nat.lt_or_ge k n with hk | hk
  · exact h k hk
  · have hpow : 2 ^ n ≤ 2 ^ k := Nat.pow_le_pow_right Nat.two_pos hk
    rw [Nat.testBit_lt_two_pow (hx.trans_le hpow), Nat.testBit_lt_two_pow (hx'.trans_le hpow)]

/-- The index tells the pixels of an image apart. -/
def InjectiveOnPixels (w h : Nat) (index : Nat → Nat → Nat) : Prop :=
  ∀ x y x' y', x < w → y < h → x' < w → y' < h → index x y = index x' y' → x = x' ∧ y = y'

theorem interleave_injectiveOnPixels (w h : Nat) : InjectiveOnPixels w h (interleave w h) := by
  intro x y x' y' hx hy hx' hy' he
  refine ⟨eq_of_testBit_below (lt_two_pow_nbits hx) (lt_two_pow_nbits hx') fun k hk => ?_,
    eq_of_testBit_below (lt_two_pow_nbits hy) (lt_two_pow_nbits hy') fun k hk => ?_⟩
  · rw [← testBit_interleave_x x y hk, he, testBit_interleave_x x' y' hk]
  · rw [← testBit_interleave_y x y hk, he, testBit_interleave_y x' y' hk]

/-- Settles O51: the index holds every bit of both coordinates. -/
theorem mortonIndexIsInjective : Obligations.MortonIndexIsInjective := by
  unfold Obligations.MortonIndexIsInjective
  exact fun w h => interleave_injectiveOnPixels w h

/-- Where both coordinates grow, the index grows by at least as much as they do. -/
theorem interleave_growth {w h x y x' y' : Nat} (hw : x' < w) (hh : y' < h) (hx : x ≤ x') (hy : y ≤ y') :
    interleave w h x y + x' + y' ≤ interleave w h x' y' + x + y := by
  have := mortonTail_growth (lt_two_pow_nbits hw) (lt_two_pow_nbits hh) (x := x) (y := y) _ 0 (Nat.zero_add _).ge
    (by simpa using hx) (by simpa using hy)
  simpa [interleave_eq] using this

/-- Settles O52: one coordinate grows and the other stays, and no pixel is beyond the far corner. -/
theorem mortonIndexIsMonotone : Obligations.MortonIndexIsMonotone := by
  unfold Obligations.MortonIndexIsMonotone
  intro w h x y hw hh
  refine ⟨fun x' hx => ?_, fun y' hy => ?_, ?_, interleave_le_zmax hw hh⟩
  · have := interleave_growth hw hh hx.le (le_refl y)
    omega
  · have := interleave_growth hw hh (le_refl x) hy.le
    omega
  · simp only [interleave_eq]
    exact mortonTail_add ..

/-- The Morton index as a map from the pixels of a `2^a × 2^b` image to `0 .. 2^a * 2^b - 1`. -/
def mortonMap (a b : Nat) (q : Fin (2 ^ a) × Fin (2 ^ b)) : Fin (2 ^ a * 2 ^ b) :=
  ⟨interleave (2 ^ a) (2 ^ b) q.1 q.2, by simpa [Nat.pow_add] using interleave_lt q.1 q.2 (2 ^ a) (2 ^ b)⟩

/-- It is injective between sets of one size. -/
theorem mortonMap_bijective (a b : Nat) : Function.Bijective (mortonMap a b) := by
  refine (Fintype.bijective_iff_injective_and_card _).2 ⟨fun q r he => ?_, by simp⟩
  obtain ⟨hx, hy⟩ := interleave_injectiveOnPixels _ _ _ _ _ _ q.1.isLt q.2.isLt r.1.isLt r.2.isLt (Fin.mk.inj he)
  exact Prod.ext (Fin.ext hx) (Fin.ext hy)

theorem exists_interleave_eq {a b z : Nat} (hz : z < 2 ^ a * 2 ^ b) :
    ∃ x y, x < 2 ^ a ∧ y < 2 ^ b ∧ interleave (2 ^ a) (2 ^ b) x y = z := by
  obtain ⟨⟨x, y⟩, he⟩ := (mortonMap_bijective a b).surjective ⟨z, hz⟩
  exact ⟨x, y, x.isLt, y.isLt, Fin.mk.inj he⟩

/-- Settles O53: the index is a bijection, so the far corner, the largest one, has the last index. -/
theorem mortonIndexFillsPowersOfTwo : Obligations.MortonIndexFillsPowersOfTwo := by
  unfold Obligations.MortonIndexFillsPowersOfTwo
  intro a b z hz
  refine ⟨exists_interleave_eq hz, ?_⟩
  have hlt : zmax (2 ^ a) (2 ^ b) < 2 ^ a * 2 ^ b := by
    simpa [zmax, Nat.pow_add] using interleave_lt (2 ^ a - 1) (2 ^ b - 1) (2 ^ a) (2 ^ b)
  obtain ⟨x, y, hx, hy, he⟩ := exists_interleave_eq (Nat.sub_one_lt_of_lt hz)
  have hle := interleave_le_zmax hx hy
  rw [he] at hle
  exact le_antisymm (Nat.le_sub_one_of_lt hlt) hle

end Sys2Proof.Proofs
end

section
/-! PROOFS. The pixel commands: the order of their faults, and what they complete with (rules R165, R166, R170, R171,
R175 to R177, R207). -/

namespace Sys2Proof.Proofs

open Sys2Proof.Machine Sys2Proof.Laws Sys2Proof.Claims

/-! ### Faults -/

section

variable {i : Instr} {s : State} {ls ld : Nat} {p : List Nat} {moves : List (Nat × Nat)}
  (he : exec i s = pixelCommand ls ld p moves s)
include he

theorem faultsWith_invalidSource (hsrc : ¬ valid s s.src s.srclen) : FaultsWith i s 9 0 :=
  he.trans (if_pos hsrc)

variable (hsrc : valid s s.src s.srclen)
include hsrc

theorem faultsWith_invalidDestination (hdst : ¬ valid s s.dst s.dstlen) : FaultsWith i s 9 1 := by
  rw [pixelCommand, if_neg (not_not.2 hsrc)] at he
  exact he.trans (if_pos hdst)

variable (hdst : valid s s.dst s.dstlen)
include hdst

theorem faultsWith_shortSource (hls : s.srclen.toNat < ls) : FaultsWith i s 9 2 := by
  rw [pixelCommand, if_neg (not_not.2 hsrc), if_neg (not_not.2 hdst)] at he
  exact he.trans (if_pos hls)

variable (hls : ls ≤ s.srclen.toNat)
include hls

theorem faultsWith_shortDestination (hld : s.dstlen.toNat < ld) : FaultsWith i s 9 3 := by
  rw [pixelCommand, if_neg (not_not.2 hsrc), if_neg (not_not.2 hdst), if_neg hls.not_gt] at he
  exact he.trans (if_pos hld)

theorem faultsWith_overlap (hld : ld ≤ s.dstlen.toNat) (hov : overlap s.src.toNat ls s.dst.toNat ld) :
    FaultsWith i s 10 0 := by
  rw [pixelCommand, if_neg (not_not.2 hsrc), if_neg (not_not.2 hdst), if_neg hls.not_gt, if_neg hld.not_gt] at he
  exact he.trans (if_pos hov)

end

/-- The three commands are pixel commands with the lengths of rule R165. -/
theorem exec_eq_pixelCommand {s : State} {i : Instr} {ls ld : Nat}
    (h : ((i = .detile ∨ i = .detileP) ∧ ls = tiledNeed s ∧ ld = 4 * area s)
      ∨ (i = .tile ∧ ls = 4 * area s ∧ ld = tiledNeed s)) :
    ∃ p moves, exec i s = pixelCommand ls ld p moves s := by
  rcases h with ⟨rfl | rfl, rfl, rfl⟩ | ⟨rfl, rfl, rfl⟩
  · exact ⟨permIdentity, detileMoves s, rfl⟩
  · exact ⟨permChannels s.swz, detileMoves s, rfl⟩
  · exact ⟨permIdentity, tileMoves s, rfl⟩

/-- Settles O57: the first test that fails decides, and the tests are the same for all three. -/
theorem pixelCommandFaultOrder : Obligations.PixelCommandFaultOrder := by
  unfold Obligations.PixelCommandFaultOrder
  intro s i ls ld h
  obtain ⟨p, moves, he⟩ := exec_eq_pixelCommand h
  exact ⟨faultsWith_invalidSource he, faultsWith_invalidDestination he, fun hsrc hdst =>
    ⟨faultsWith_shortSource he hsrc hdst, faultsWith_shortDestination he hsrc hdst,
      faultsWith_overlap he hsrc hdst⟩⟩

/-! ### Completion -/

/-- The tests of a pixel command with the needed lengths `ls` and `ld`: `DetileReady` and `TileReady` are of this
form. -/
def PassesTests (s : State) (ls ld : Nat) : Prop :=
  valid s s.src s.srclen ∧ valid s s.dst s.dstlen ∧ ls ≤ s.srclen.toNat ∧ ld ≤ s.dstlen.toNat
    ∧ ¬ overlap s.src.toNat ls s.dst.toNat ld

/-- `s` with a completed pixel command: the permuted pixels of the moves are stored. -/
def moved (p : List Nat) (moves : List (Nat × Nat)) (s : State) : State :=
  { s with status := doneStatus s, mem := writeCells s.mem (moveCells p s moves) }

/-- Nothing but `STATUS` and `MEM` is changed. -/
theorem moved_frame (p : List Nat) (moves : List (Nat × Nat)) (s : State) :
    moved p moves s = { s with status := doneStatus s, mem := (moved p moves s).mem } := by
  simp only [moved]

/-- The moves write no byte twice. -/
def DestinationsApart (moves : List (Nat × Nat)) : Prop :=
  moves.Pairwise fun q r => q.2 + bpp ≤ r.2 ∨ r.2 + bpp ≤ q.2

section

variable {s : State} {ls ld : Nat} {moves : List (Nat × Nat)} (hr : PassesTests s ls ld)
  (hm : MovesInside s ls ld moves)
include hr hm

theorem PassesTests.inMem_and_apart : MovesInMem s moves ∧ MovesApart moves := by
  obtain ⟨hsrc, hdst, hls, hld, hov⟩ := hr
  exact ⟨hm.inMem hsrc hdst hls hld, hm.apart hov⟩

/-- A pixel command with its tests passed. -/
theorem pixelCommand_passed {p : List Nat} (hp : p.length = bpp) :
    pixelCommand ls ld p moves s = .next (moved p moves s) := by
  obtain ⟨hin, hap⟩ := hr.inMem_and_apart hm
  obtain ⟨hsrc, hdst, hls, hld, hov⟩ := hr
  rw [pixelCommand, if_neg (not_not.2 hsrc), if_neg (not_not.2 hdst), if_neg hls.not_gt, if_neg hld.not_gt,
    if_neg hov, movePixels_eq hp hin hap]
  rfl

/-- Each destination holds the permuted pixel that its source held before. -/
theorem moved_byte {p : List Nat} (hp : p.length = bpp) (hdd : DestinationsApart moves) {q : Nat × Nat}
    (hq : q ∈ moves) {k : Nat} (hk : k < bpp) :
    (moved p moves s).byte (q.2 + k) = byteAt (permute p (s.bytes q.1 bpp)) k := by
  obtain ⟨hin, hap⟩ := hr.inMem_and_apart hm
  obtain ⟨t, ht, hbyte⟩ := movePixels_spec hp moves s hin hap hdd
  cases ht.symm.trans (movePixels_eq hp hin hap)
  exact hbyte q hq k hk

/-- Every byte at no destination is as it was. -/
theorem moved_byte_outside {p : List Nat} (hp : p.length = bpp) {a : Nat}
    (ha : ∀ q ∈ moves, a < q.2 ∨ q.2 + bpp ≤ a) : (moved p moves s).byte a = s.byte a := by
  obtain ⟨hin, hap⟩ := hr.inMem_and_apart hm
  exact byte_writeCells_moves hp hin hap ha

end

/-! ### Permuted pixels (rule R176) -/

theorem byteAt_permIdentity (s : State) (a : Nat) {k : Nat} (hk : k < bpp) :
    byteAt (permute permIdentity (s.bytes a bpp)) k = s.byte (a + k) := by
  have hget : permIdentity[k] = k := by revert k; decide
  rw [byteAt_permute _ _ _ hk, hget, byteAt_bytes _ _ _ _ hk]

/-- Byte `k` of a pixel of `DETILE.P` is byte `j` of its source. -/
theorem byteAt_permChannels (s : State) (a : Nat) {swz : Bool} {k j : Nat} (hget : (permChannels swz)[k]? = some j)
    (hj : j < bpp) : byteAt (permute (permChannels swz) (s.bytes a bpp)) k = s.byte (a + j) := by
  obtain ⟨hk, hget⟩ := List.getElem?_eq_some_iff.1 hget
  rw [byteAt_permute _ _ _ hk, hget, byteAt_bytes _ _ _ _ hj]

/-! ### Apart destinations -/

theorem nodup_pixels (w h : Nat) : (pixels w h).Nodup := by
  refine List.nodup_flatMap.2 ⟨fun y _ => List.nodup_range.map fun x x' he => congrArg Prod.fst he, ?_⟩
  refine List.nodup_range.imp fun hne => ?_
  rintro q hq hq'
  obtain ⟨x, -, rfl⟩ := List.mem_map.1 hq
  obtain ⟨x', -, he⟩ := List.mem_map.1 hq'
  exact hne (congrArg Prod.snd he).symm

/-- Pixels moved to the indices of an injective index are written apart. -/
theorem destinationsApart_pixels {w h : Nat} {index : Nat → Nat → Nat} (hinj : InjectiveOnPixels w h index)
    (source : Nat × Nat → Nat) (d : Nat) :
    DestinationsApart ((pixels w h).map fun q => (source q, d + bpp * index q.1 q.2)) := by
  refine List.pairwise_map.2 ((nodup_pixels w h).pairwise_of_forall_ne ?_)
  rintro ⟨x, y⟩ hq ⟨x', y'⟩ hr hne
  obtain ⟨hx, hy⟩ := mem_pixels.1 hq
  obtain ⟨hx', hy'⟩ := mem_pixels.1 hr
  have hindex : index x y ≠ index x' y' := fun he => hne (Prod.ext_iff.2 (hinj x y x' y' hx hy hx' hy' he))
  dsimp only [bpp]
  omega

theorem rasterIndex_injectiveOnPixels (w h : Nat) : InjectiveOnPixels w h (rasterIndex w) := by
  intro x y x' y' hx _ hx' _ he
  have hdiv (x y : Nat) (hx : x < w) : rasterIndex w x y % w = x ∧ rasterIndex w x y / w = y := by
    rw [rasterIndex, Nat.add_comm]
    exact ⟨by rw [Nat.add_mul_mod_self_right, Nat.mod_eq_of_lt hx],
      by rw [Nat.add_mul_div_right _ _ (by omega), Nat.div_eq_of_lt hx, Nat.zero_add]⟩
  obtain ⟨hmod, hdiv₁⟩ := hdiv x y hx
  obtain ⟨hmod', hdiv'⟩ := hdiv x' y' hx'
  rw [he] at hmod hdiv₁
  exact ⟨hmod.symm.trans hmod', hdiv₁.symm.trans hdiv'⟩

theorem tiledIndex_injectiveOnPixels (swz : Bool) (w h : Nat) : InjectiveOnPixels w h (tiledIndex swz w h) := by
  cases swz with
  | false => exact rasterIndex_injectiveOnPixels w h
  | true => exact interleave_injectiveOnPixels w h

theorem detileMoves_destinationsApart (s : State) : DestinationsApart (detileMoves s) :=
  destinationsApart_pixels (rasterIndex_injectiveOnPixels _ _) _ _

theorem tileMoves_destinationsApart (s : State) : DestinationsApart (tileMoves s) :=
  destinationsApart_pixels (tiledIndex_injectiveOnPixels _ _ _) _ _

/-! ### `DETILE` and `DETILE.P` (rules R170, R176) -/

section

variable {s : State} (hr : DetileReady s)
include hr

theorem detile_passed : exec .detile s = .next (moved permIdentity (detileMoves s) s) :=
  pixelCommand_passed (p := permIdentity) hr (detileMoves_inside s) rfl

theorem detileP_passed : exec .detileP s = .next (moved (permChannels s.swz) (detileMoves s) s) :=
  pixelCommand_passed (p := permChannels s.swz) hr (detileMoves_inside s) (length_permChannels _)

/-- Raster pixel `(x, y)` at `DST` is the permuted tiled pixel at `SRC`. -/
theorem detileMoves_byte {p : List Nat} (hp : p.length = bpp) {x y k : Nat} (hx : x < s.width.toNat)
    (hy : y < s.height.toNat) (hk : k < bpp) :
    (moved p (detileMoves s) s).byte (s.dst.toNat + 4 * (y * s.width.toNat + x) + k)
      = byteAt (permute p (s.bytes (s.src.toNat + 4 * zIndex s x y) bpp)) k :=
  moved_byte hr (detileMoves_inside s) hp (detileMoves_destinationsApart s)
    (List.mem_map_of_mem (mem_pixels.2 ⟨hx, hy⟩)) hk

theorem detileMoves_byte_outside {p : List Nat} (hp : p.length = bpp) {a : Nat}
    (ha : a < s.dst.toNat ∨ s.dst.toNat + 4 * area s ≤ a) : (moved p (detileMoves s) s).byte a = s.byte a := by
  refine moved_byte_outside hr (detileMoves_inside s) hp fun q hq => ?_
  have hinside : s.dst.toNat ≤ q.2 ∧ q.2 + bpp ≤ s.dst.toNat + 4 * area s := (detileMoves_inside s q hq).2
  omega

theorem detile_byte {x y k : Nat} (hx : x < s.width.toNat) (hy : y < s.height.toNat) (hk : k < 4) :
    (moved permIdentity (detileMoves s) s).byte (s.dst.toNat + 4 * (y * s.width.toNat + x) + k)
      = s.byte (s.src.toNat + 4 * zIndex s x y + k) := by
  rw [detileMoves_byte hr rfl hx hy hk, byteAt_permIdentity s _ hk]

end

/-- Settles O54: the moves of `DETILE` with the identity permutation. -/
theorem detileMovesPixelsToRaster : Obligations.DetileMovesPixelsToRaster := by
  unfold Obligations.DetileMovesPixelsToRaster
  intro s hr
  exact ⟨_, ⟨detile_passed hr, moved_frame ..⟩, fun x y k hx hy hk => detile_byte hr hx hy hk,
    fun a ha => detileMoves_byte_outside hr rfl ha⟩

/-- Settles O55: the moves of `DETILE` with the permutation that `SWZ` selects. -/
theorem detilePPermutesChannels : Obligations.DetilePPermutesChannels := by
  unfold Obligations.DetilePPermutesChannels
  intro s hr
  refine ⟨_, ⟨detileP_passed hr, moved_frame ..⟩, fun x y hx hy => ?_,
    fun a ha => detileMoves_byte_outside hr (length_permChannels _) ha⟩
  have hbyte {k j : Nat} (hk : k < bpp) (hj : j < bpp) (hget : (permChannels s.swz)[k]? = some j) :
      (moved (permChannels s.swz) (detileMoves s) s).byte (s.dst.toNat + 4 * (y * s.width.toNat + x) + k)
        = s.byte (s.src.toNat + 4 * zIndex s x y + j) := by
    rw [detileMoves_byte hr (length_permChannels _) hx hy hk, byteAt_permChannels s _ hget hj]
  refine ⟨hbyte (k := 0) (j := 3) (by decide) (by decide) ?_, hbyte (by decide) (by decide) ?_,
    fun h => ⟨hbyte (by decide) (by decide) ?_, hbyte (by decide) (by decide) ?_⟩,
    fun h => ⟨hbyte (by decide) (by decide) ?_, hbyte (by decide) (by decide) ?_⟩⟩
  · cases s.swz <;> rfl
  · cases s.swz <;> rfl
  · rw [h]; rfl
  · rw [h]; rfl
  · rw [h]; rfl
  · rw [h]; rfl

/-! ### `TILE` (rules R172, R175, R177) -/

section

variable {s : State} (hr : TileReady s)
include hr

theorem tile_passed : exec .tile s = .next (moved permIdentity (tileMoves s) s) :=
  pixelCommand_passed (p := permIdentity) hr (tileMoves_inside s) rfl

theorem tile_byte {x y k : Nat} (hx : x < s.width.toNat) (hy : y < s.height.toNat) (hk : k < 4) :
    (moved permIdentity (tileMoves s) s).byte (s.dst.toNat + 4 * zIndex s x y + k)
      = s.byte (s.src.toNat + 4 * (y * s.width.toNat + x) + k) :=
  (moved_byte hr (tileMoves_inside s) rfl (tileMoves_destinationsApart s)
    (List.mem_map_of_mem (mem_pixels.2 ⟨hx, hy⟩)) hk).trans (byteAt_permIdentity s _ hk)

/-- A byte at no pixel's tiled index is kept, holes included (rule R177). -/
theorem tile_byte_outside {a : Nat}
    (ha : ∀ x y k, x < s.width.toNat → y < s.height.toNat → k < 4 → a ≠ s.dst.toNat + 4 * zIndex s x y + k) :
    (moved permIdentity (tileMoves s) s).byte a = s.byte a := by
  refine moved_byte_outside hr (tileMoves_inside s) rfl fun q hq => ?_
  obtain ⟨⟨x, y⟩, hxy, rfl⟩ := List.mem_map.1 hq
  obtain ⟨hx, hy⟩ := mem_pixels.1 hxy
  have hne := fun k => ha x y k hx hy
  change a < s.dst.toNat + 4 * zIndex s x y ∨ s.dst.toNat + 4 * zIndex s x y + 4 ≤ a
  by_contra hin
  exact hne (a - (s.dst.toNat + 4 * zIndex s x y)) (by omega) (by omega)

end

/-- Settles O56: the moves of `TILE`. -/
theorem tileMovesPixelsToTiledPositions : Obligations.TileMovesPixelsToTiledPositions := by
  unfold Obligations.TileMovesPixelsToTiledPositions
  intro s hr
  exact ⟨_, ⟨tile_passed hr, moved_frame ..⟩, fun x y k hx hy hk => tile_byte hr hx hy hk,
    fun a ha => tile_byte_outside hr ha⟩

/-! ### An image without pixels (rule R171) -/

theorem area_eq_zero {s : State} (h : s.width = 0 ∨ s.height = 0) : area s = 0 := by
  rcases h with h | h <;> simp [area, h]

theorem pixels_eq_nil {s : State} (h : area s = 0) : pixels s.width.toNat s.height.toNat = [] := by
  refine List.eq_nil_iff_forall_not_mem.2 fun ⟨x, y⟩ hq => ?_
  obtain ⟨hx, hy⟩ := mem_pixels.1 hq
  have hpos : 0 < area s := Nat.mul_pos (by omega) (by omega)
  omega

theorem passesTests_zero {s : State} (hsrc : inMem s s.src s.srclen) (hdst : inMem s s.dst s.dstlen) :
    PassesTests s 0 0 :=
  ⟨hsrc, hdst, Nat.zero_le _, Nat.zero_le _, fun ⟨hpos, _⟩ => absurd hpos (lt_irrefl 0)⟩

/-- Settles O58: no length is needed, and there is nothing to move. -/
theorem zeroAreaMovesNothing : Obligations.ZeroAreaMovesNothing := by
  unfold Obligations.ZeroAreaMovesNothing
  intro s i hi h hsrc hdst
  have harea := area_eq_zero h
  have hneed : tiledNeed s = 0 := if_pos harea
  have hnil := pixels_eq_nil harea
  have hdetile : detileMoves s = [] := by rw [detileMoves, hnil]; rfl
  have htile : tileMoves s = [] := by rw [tileMoves, hnil]; rfl
  have hready : PassesTests s (tiledNeed s) (4 * area s) ∧ PassesTests s (4 * area s) (tiledNeed s) := by
    rw [hneed, harea]
    exact ⟨passesTests_zero hsrc hdst, passesTests_zero hsrc hdst⟩
  obtain ⟨hd, ht⟩ := hready
  rcases hi with rfl | rfl | rfl
  · rw [detile_passed hd, hdetile]; rfl
  · rw [detileP_passed hd, hdetile]; rfl
  · rw [tile_passed ht, htile]; rfl

end Sys2Proof.Proofs
end

section
/-! PROOFS. `TILE` and `DETILE` undo each other from window to window (rule R178). -/

namespace Sys2Proof.Proofs

open Sys2Proof.Machine Sys2Proof.Laws Sys2Proof.Claims

/-- `s` after the host wrote the window registers, for a command that reads where the last one wrote and writes to a
third window. -/
def withNextWindow (s : State) (c clen : Word) : State :=
  { s with src := s.dst, srclen := s.dstlen, dst := c, dstlen := clen }

/-- Byte `k` of a raster buffer belongs to a pixel. -/
theorem exists_raster_pixel {w h k : Nat} (hk : k < 4 * (w * h)) :
    ∃ x y j, x < w ∧ y < h ∧ j < 4 ∧ k = 4 * (y * w + x) + j := by
  have hpixel : k / 4 < w * h := by omega
  have hw : 0 < w := Nat.pos_of_mul_pos_right (Nat.zero_lt_of_lt hpixel)
  have hsplit : k / 4 / w * w + k / 4 % w = k / 4 := Nat.div_add_mod' ..
  exact ⟨k / 4 % w, k / 4 / w, k % 4, Nat.mod_lt _ hw, Nat.div_lt_of_lt_mul hpixel, Nat.mod_lt _ four_pos,
    by omega⟩

/-- Settles O59: the pixel at a tiled index of the middle window is the raster pixel of the first and of the third. -/
theorem tileThenDetileRestores : Obligations.TileThenDetileRestores := by
  unfold Obligations.TileThenDetileRestores
  intro s c clen hr hc hclen hov
  have ⟨_, hdst, _, hld, _⟩ := hr
  have hr' : DetileReady (withNextWindow (moved permIdentity (tileMoves s) s) c clen) := ⟨hdst, hc, hld, hclen, hov⟩
  refine ⟨_, _, tile_passed hr, detile_passed hr', rfl, fun k hk => ?_⟩
  obtain ⟨x, y, j, hx, hy, hj, rfl⟩ := exists_raster_pixel hk
  rw [← Nat.add_assoc, ← Nat.add_assoc]
  exact (detile_byte hr' hx hy hj).trans (tile_byte hr hx hy hj)

/-- Settles O60: the raster pixel of the middle window is the one at its tiled index in the first and in the third. -/
theorem detileThenTileRestores : Obligations.DetileThenTileRestores := by
  unfold Obligations.DetileThenTileRestores
  intro s c clen hr hc hclen hov
  have ⟨_, hdst, _, hld, _⟩ := hr
  have hr' : TileReady (withNextWindow (moved permIdentity (detileMoves s) s) c clen) := ⟨hdst, hc, hld, hclen, hov⟩
  exact ⟨_, _, detile_passed hr, tile_passed hr', rfl, fun x y k hx hy hk =>
    (tile_byte hr' hx hy hk).trans (detile_byte hr hx hy hk)⟩

end Sys2Proof.Proofs
end

section
/-! PROOFS. The system commands (rules R190, R191, R213), the gate they meet (rules R195, R212), and when the block
moves: at once for a placed word, never while it has nothing to do, and in the end for a host that polls (rules R197,
R198). -/

namespace Sys2Proof.Proofs

open Sys2Proof.Machine Sys2Proof.Laws Sys2Proof.Claims

/-! ### The error gate (rules R195, R212) -/

/-- The gate looks at the low byte of the word. -/
theorem passesGate_iff (c : Word) : c.extractLsb' 0 8 = 0x08#8 ↔ c.toNat % 256 = 0x08 := by
  rw [← BitVec.toNat_inj, ← fieldsOf_opc_toNat]
  rfl

theorem issue_dropped {s : State} {c : Word} (herr : s.status.err = true) (hop : c.toNat % 256 ≠ 0x08) :
    issue s c = s :=
  if_pos ⟨herr, mt (passesGate_iff c).1 hop⟩

theorem issue_accepted {s : State} {c : Word} (h : s.status.err = false ∨ c.toNat % 256 = 0x08) :
    issue s c = accept s c := by
  refine if_neg ?_
  rintro ⟨herr, hop⟩
  rcases h with h | h
  · rw [h] at herr; cases herr
  · exact hop ((passesGate_iff c).2 h)

/-- Of the words with the low byte of `CLRERR` only its own is legal (rule R191). -/
theorem decode_eq_none_of_clrerr_opcode {c : Word} (hop : c.toNat % 256 = 0x08) (hc : c ≠ encode .clrerr) :
    decode c = none := by
  cases hd : decode c with
  | none => rfl
  | some i =>
    have hi : encode i = c := encode_of_decode hd
    have hclr : i = .clrerr := eq_clrerr_of_opcode (hi ▸ (passesGate_iff c).2 hop)
    exact absurd (hclr ▸ hi.symm) hc

/-! ### The system commands -/

/-- Settles O32: the command is its completion, and its word has a low byte that the gate stops. -/
theorem nopOnlyCompletes : Obligations.NopOnlyCompletes := by
  unfold Obligations.NopOnlyCompletes
  intro s
  refine ⟨rfl, decode_encode .nop, fun herr => ?_, fun herr => issue_dropped herr (by decide)⟩
  rw [issue_accepted (.inl herr)]
  rfl

/-- Settles O33: the command is a completion with the error state cleared, and no other command has its low byte. -/
theorem clrerrReopensTheGate : Obligations.ClrerrReopensTheGate := by
  unfold Obligations.ClrerrReopensTheGate
  intro s
  have hacc : issue s 0x00000008 = accept s 0x00000008 := issue_accepted (.inr (by decide))
  refine ⟨rfl, decode_encode .clrerr, fun c hop hc => decode_eq_none_of_clrerr_opcode hop hc, ?_, ?_, ?_⟩
  · rw [hacc]; rfl
  · rw [hacc]; rfl
  · exact fun i hi herr => issue_dropped herr fun hop => hi (eq_clrerr_of_opcode ((passesGate_iff _).2 hop))

/-! ### When the block moves -/

/-- Settles O5: the completion step decodes the word that the schedule's turn left in `PENDING`. -/
theorem stepRunsTheDecodedCommand : Obligations.StepRunsTheDecodedCommand := by
  unfold Obligations.StepRunsTheDecodedCommand
  intro s i hmoves hd
  rw [step_of_blockMoves hmoves, completionStep_some (by rwa [blockTurn_pending])]

/-- After a word is placed the schedule is empty, so that the block moves (log entry 4). -/
theorem blockMoves_placeCommand (s : State) (c : Word) : BlockMoves (placeCommand s c) :=
  ⟨rfl, rfl, .inr (by simp [placeCommand])⟩

theorem blockTurn_placeCommand (s : State) (c : Word) : blockTurn (placeCommand s c) = placeCommand s c := by
  unfold blockTurn; split <;> rfl

/-- Settles O6: the block moves, and there is no entry of the schedule to use up. -/
theorem placedWordRunsNext : Obligations.PlacedWordRunsNext := by
  unfold Obligations.PlacedWordRunsNext
  intro s n w i hd
  have hstep := stepRunsTheDecodedCommand _ i (blockMoves_placeCommand s (BitVec.ofNat 32 w)) hd
  rwa [blockTurn_placeCommand] at hstep

/-- Settles O11: the move is the host's, and its script is empty. -/
theorem idleBlockTakesNoStep : Obligations.IdleBlockTakesNoStep := by
  unfold Obligations.IdleBlockTakesNoStep
  intro s hbusy hscript
  obtain ⟨hagent, hturn⟩ := nextAgent_idle hbusy
  rw [step_host hagent, hturn]
  simp [hostStep, hscript]

/-! ### Every command in flight is completed (rules R197, R198) -/

@[simp] theorem blockTurn_host (s : State) : (blockTurn s).host = s.host := by
  unfold blockTurn; split <;> rfl

/-- The completion step always ends in a state with `BUSY = 0`, and the host is not the block's to change. -/
theorem completionStep_ends_idle (s : State) :
    ∃ t, completionStep s = .next t ∧ t.status.busy = false ∧ t.host = s.host := by
  obtain ⟨t, ht, hbusy⟩ : ∃ t, completionStep s = .next t ∧ t.status.busy = false := by
    cases hd : decode s.pending with
    | none => exact ⟨_, completionStep_none hd, rfl⟩
    | some i =>
      obtain ⟨t, ht, hbusy, -⟩ := everyCommandCompletesOrFaultsWhole i s
      exact ⟨t, (completionStep_some hd).trans ht, hbusy⟩
  exact ⟨t, ht, hbusy, by rw [completionStep_frame ht]; rfl⟩

theorem run_succ_of_step {s t : State} (k : Nat) (h : step s = .next t) :
    Host.Core.run Sys2Proof.core (k + 1) s = Host.Core.run Sys2Proof.core k t := by
  simp only [Host.Core.run, Sys2Proof.core, h]

/-- Where the block moves, one step completes the command. -/
theorem run_one_of_blockMoves {s : State} (h : BlockMoves s) :
    ∃ t, Host.Core.run Sys2Proof.core 1 s = .next t ∧ t.status.busy = false ∧ t.host = s.host := by
  obtain ⟨t, ht, hbusy, hhost⟩ := completionStep_ends_idle (blockTurn s)
  exact ⟨t, run_succ_of_step 0 ((step_of_blockMoves h).trans ht), hbusy, hhost.trans (blockTurn_host s)⟩

/-- Settles O10, by induction on the schedule: a turn of the host is spent on the poll, any other is the block's. -/
theorem polledCommandIsCompleted : Obligations.PolledCommandIsCompleted := by
  unfold Obligations.PolledCommandIsCompleted
  intro s rest hbusy hreset hscript
  induction hturns : s.turns generalizing s with
  | nil =>
    obtain ⟨t, ht⟩ := run_one_of_blockMoves ⟨hbusy, hreset, .inr (by simp [hturns])⟩
    exact ⟨1, t, by simp, ht⟩
  | cons agent turns ih =>
    cases agent with
    | block =>
      obtain ⟨t, ht⟩ := run_one_of_blockMoves ⟨hbusy, hreset, .inr (by simp [hturns])⟩
      exact ⟨1, t, by simp, ht⟩
    | host =>
      have hmoves : HostMoves s .poll rest := ⟨hscript, hreset, .inr ⟨hbusy, by simp [hturns]⟩⟩
      have hstep := (pollWaitsForIdle s rest hmoves).1 hbusy
      obtain ⟨k, t, hk, hrun, hend⟩ := ih { s with turns := s.turns.tail } hbusy hreset hscript (by simp [hturns])
      exact ⟨k + 1, t, by simpa using hk, (run_succ_of_step k hstep).trans hrun, hend⟩

end Sys2Proof.Proofs
end

section
/-! PROOFS. What a register transaction does by the offset it names: a write stores, issues or is dropped (rules R193 to
R195), a read returns the value (rule R192). -/

namespace Sys2Proof.Proofs

open Sys2Proof.Machine Sys2Proof.Laws Sys2Proof.Claims

/-- A reserved offset is one at which no register stands (rules R21, R33). -/
theorem regAtOffset_eq_none_iff {off : Nat} : regAtOffset off = none ↔
    off ∉ [0x00, 0x04, 0x08, 0x0C, 0x10, 0x14, 0x18, 0x1C, 0x20, 0x24, 0x28, 0x2C, 0x30, 0x34] := by
  change _ ↔ off ∉ Reg.all.map Reg.offset
  simp [regAtOffset]

/-! ### Register writes -/

theorem step_regWrite {s : State} {off : Nat} {v : Word} {rest : List HostTxn}
    (h : HostMoves s (.regWrite .word off v) rest) (halign : off % 4 = 0) (hin : off < 0x100) :
    step s = .next (hostRegWrite (hostMoved s rest) off v) :=
  step_of_hostMoves h (if_pos ⟨rfl, halign, hin⟩)

theorem hostRegWrite_busy {s : State} (hbusy : s.status.busy = true) (off : Nat) (v : Word) :
    hostRegWrite s off v = s :=
  if_pos hbusy

theorem hostRegWrite_reserved {s : State} {off : Nat} (hoff : regAtOffset off = none) (v : Word) :
    hostRegWrite s off v = s := by
  simp [hostRegWrite, hoff]

theorem hostRegWrite_cmd {s : State} (hbusy : s.status.busy = false) (v : Word) :
    hostRegWrite s Reg.cmd.offset v = issue s v := by
  simp [hostRegWrite, hbusy, regAtOffset_offset]

theorem hostRegWrite_reg {s : State} (hbusy : s.status.busy = false) {r : Reg} (hr : r ≠ .cmd) (v : Word) :
    hostRegWrite s r.offset v = writeReg s r v := by
  simp [hostRegWrite, hbusy, regAtOffset_offset]

/-- Settles O14: the write is dropped, whatever stands at the offset. -/
theorem busyRegisterWriteIsDropped : Obligations.BusyRegisterWriteIsDropped := by
  unfold Obligations.BusyRegisterWriteIsDropped
  intro s off v rest h hbusy halign hin
  rw [step_regWrite h halign hin, hostRegWrite_busy (s := hostMoved s rest) hbusy]

theorem blockTurn_of_script_nil {s : State} (h : s.host.script = []) : blockTurn s = s :=
  if_pos h

/-- Settles O12: the write is the issue, which the gate drops or which accepts the word; an accepted illegal word is in
flight and faults when the block moves. -/
theorem issueAcceptsOrDrops : Obligations.IssueAcceptsOrDrops := by
  unfold Obligations.IssueAcceptsOrDrops
  intro s c rest h hbusy
  have hstep : step s = .next (issue (hostMoved s rest) c) := by
    rw [step_regWrite h (by decide) (by decide), ← hostRegWrite_cmd (s := hostMoved s rest) hbusy]
    rfl
  refine ⟨fun herr hop => ?_, fun hgate => ?_⟩
  · rw [hstep, issue_dropped (s := hostMoved s rest) herr hop]
  · have hlow : c.extractLsb' 0 8 = BitVec.ofNat 8 (c.toNat % 256) := BitVec.eq_of_toNat_eq (by simp)
    refine ⟨accept (hostMoved s rest) c, ?_, ?_, fun hd hrest => ?_⟩
    · rw [hstep, issue_accepted (s := hostMoved s rest) hgate]
    · rw [← hlow]; rfl
    · have hmoves : BlockMoves (accept (hostMoved s rest) c) := ⟨rfl, h.2.1, .inl hrest⟩
      have hfault := illegalWordFaults _ hmoves ((decode_eq_none_iff c).1 hd)
      rwa [blockTurn_of_script_nil (s := accept (hostMoved s rest) c) hrest] at hfault

theorem setWidth_eq_ofNat_mod (v : Word) (w : Nat) : v.setWidth w = BitVec.ofNat w (v.toNat % 2 ^ w) :=
  BitVec.eq_of_toNat_eq (by simp)

theorem getLsbD_zero_eq_mod (v : Word) : v.getLsbD 0 = (v.toNat % 2 == 1) := by
  rw [BitVec.getLsbD, Nat.testBit_zero]
  rfl

/-- Settles O13, by the register at the offset: each takes its low bits or drops the word, and a reserved offset is none
of theirs. -/
theorem idleRegisterWriteStores : Obligations.IdleRegisterWriteStores := by
  unfold Obligations.IdleRegisterWriteStores
  intro s off v rest h hbusy halign hin hcmd
  rw [step_regWrite h halign hin]
  simp only [← setWidth_eq_ofNat_mod, ← getLsbD_zero_eq_mod]
  refine congrArg _ ?_
  cases hoff : regAtOffset off with
  | none =>
    have hne := regAtOffset_eq_none_iff.1 hoff
    simp only [List.mem_cons, not_or] at hne
    simp only [hostRegWrite_reserved hoff, hne, if_false]
  | some r =>
    obtain rfl := offset_of_regAtOffset hoff
    have hr : r ≠ .cmd := by rintro rfl; exact hcmd rfl
    rw [hostRegWrite_reg (s := hostMoved s rest) hbusy hr]
    cases r <;> rfl

/-! ### Register reads -/

theorem status_word_toNat (st : Status) : st.word.toNat =
    st.busy.toNat + 2 * st.done.toNat + 4 * st.err.toNat + 2 ^ 8 * st.errcode.toNat + 2 ^ 16 * st.lastop.toNat := by
  simp only [Status.word, append_toNat, BitVec.toNat_ofBool, BitVec.toNat_ofNat]
  omega

/-- The move of the host changes no register. -/
theorem readOffset_hostMoved (s : State) (rest : List HostTxn) (off : Nat) :
    readOffset (hostMoved s rest) off = readOffset s off :=
  rfl

/-- A register read returns the value at the offset, and touches the host's record only (rules R192, R246). -/
theorem step_regRead {s : State} {off : Nat} {rest : List HostTxn} (h : HostMoves s (.regRead .word off) rest)
    (halign : off % 4 = 0) (hin : off < 0x100) :
    step s = .next { hostMoved s rest with
        host := ⟨rest, .reg off (readOffset s off) :: s.host.returned,
          if off = 0x08 then s.host.handedOver && s.status.busy else s.host.handedOver, s.host.earlyAccess⟩ } := by
  have hstatus : Reg.status.offset = 0x08 := rfl
  rw [step_of_hostMoves h (if_pos ⟨rfl, halign, hin⟩), transaction, readOffset_hostMoved, hstatus]
  split_ifs <;> rfl

/-- Settles O15, by the register at the offset: each is read zero-extended, and a reserved offset is none of theirs. -/
theorem registerReadReturnsTheValue : Obligations.RegisterReadReturnsTheValue := by
  unfold Obligations.RegisterReadReturnsTheValue
  intro s off rest h halign hin
  refine ⟨readOffset s off, step_regRead h halign hin, ?_⟩
  cases hoff : regAtOffset off with
  | none =>
    have hne := regAtOffset_eq_none_iff.1 hoff
    simp only [List.mem_cons, not_or] at hne
    simp only [readOffset, hoff, hne, if_false]
    rfl
  | some r =>
    obtain rfl := offset_of_regAtOffset hoff
    simp only [readOffset, hoff]
    cases r with
    | status => exact status_word_toNat s.status
    | width => exact BitVec.toNat_setWidth_of_le (by decide)
    | height => exact BitVec.toNat_setWidth_of_le (by decide)
    | mips => exact BitVec.toNat_setWidth_of_le (by decide)
    | fmt => exact BitVec.toNat_setWidth_of_le (by decide)
    | swz => exact (BitVec.toNat_setWidth_of_le (by decide)).trans (BitVec.toNat_ofBool _)
    | _ => rfl

end Sys2Proof.Proofs
end

section
/-! PROOFS. All a step can do, in the terms of the statements, and from it the host's access to `MEM` and the window of
rule R246 (rules R62, R196, R246). -/

namespace Sys2Proof.Proofs

open Sys2Proof.Machine Sys2Proof.Laws Sys2Proof.Claims

/-! ### What a step can do -/

/-- Where it is the host's turn its next transaction is up. -/
theorem hostActs_of_nextAgent {s : State} {x : HostTxn} {rest : List HostTxn} (ha : s.nextAgent = .host)
    (hscript : s.host.script = x :: rest) : HostActs s x rest := by
  cases hreset : s.resetN with
  | false => exact .inr ⟨hreset, hscript⟩
  | true =>
    refine .inl ⟨hscript, hreset, ?_⟩
    cases hbusy : s.status.busy with
    | false => exact .inl rfl
    | true =>
      refine .inr ⟨rfl, by_contra fun hturn => ?_⟩
      rw [nextAgent_block hbusy hreset (.inr hturn)] at ha
      cases ha

/-- In reset a transaction that has a meaning takes the effect it has there (rules R240, R241). -/
theorem step_inReset {s : State} {x : HostTxn} {rest : List HostTxn} (hreset : s.resetN = false)
    (hscript : s.host.script = x :: rest) (hx : refusalOf s x = none) :
    step s = .next (transactionInReset x (s.withScript rest)) := by
  obtain ⟨hagent, hturn⟩ := nextAgent_reset hreset
  rw [step_host hagent, hturn]
  simp [hostStep, hscript, hx, hreset]

/-- The state `t` is one that a step leads to from `s`. -/
inductive StepsTo (s t : State) : Prop
  /-- the block completes a command (rule R197) -/
  | block (h : BlockMoves s) (ht : completionStep (blockTurn s) = .next t)
  /-- nothing is left to do (log entry 6) -/
  | stutter (h : s.host.script = []) (ht : t = s)
  /-- a transaction of the host out of reset -/
  | host (x : HostTxn) (rest : List HostTxn) (h : HostMoves s x rest) (hx : refusalOf s x = none)
    (ht : t = transaction x (hostMoved s rest))
  /-- a transaction of the host in reset (rule R240) -/
  | inReset (x : HostTxn) (rest : List HostTxn) (hreset : s.resetN = false) (h : s.host.script = x :: rest)
    (hx : refusalOf s x = none) (ht : t = transactionInReset x (s.withScript rest))

theorem stepsTo_of_step {s t : State} (h : step s = .next t) : StepsTo s t := by
  cases ha : s.nextAgent with
  | block =>
    have hmoves := blockMoves_of_nextAgent ha
    exact .block hmoves ((step_of_blockMoves hmoves).symm.trans h)
  | host =>
    cases hscript : s.host.script with
    | nil =>
      refine .stutter hscript (eq_of_next h ?_)
      have hturn : s.takeTurn = s := by simp [State.takeTurn, State.contended, hscript]
      rw [step_host ha, hturn]
      simp [hostStep, hscript]
    | cons x rest =>
      have hacts := hostActs_of_nextAgent ha hscript
      have hx : refusalOf s x = none := by
        cases hr : refusalOf s x with
        | none => rfl
        | some r => cases (step_refused hacts ((takeTurn_refusalOf s x).trans hr)).symm.trans h
      rcases hacts with hmoves | ⟨hreset, _⟩
      · exact .host x rest hmoves hx (eq_of_next h (step_of_hostMoves hmoves hx))
      · exact .inReset x rest hreset hscript hx (eq_of_next h (step_inReset hreset hscript hx))

/-! ### When an access to `MEM` is refused (rules R62, R196, R246) -/

theorem not_awaitsStatusRead {s : State} (h : MemIsHosts s) : ¬ s.awaitsStatusRead := by
  rintro ⟨hreading, hover⟩
  cases (h.2 hreading).symm.trans hover

theorem memRefusal_inMem {s : State} {a : Nat} (h : MemIsHosts s) (ha : a < s.cfg.memSize) : memRefusal s a = none := by
  rw [memRefusal, h.1, if_neg (not_awaitsStatusRead h), if_pos ha]
  rfl

theorem memRefusal_outsideMem {s : State} {a : Nat} (h : MemIsHosts s) (ha : s.cfg.memSize ≤ a) :
    memRefusal s a = some (.hostOutsideMem a) := by
  rw [memRefusal, h.1, if_neg (not_awaitsStatusRead h), if_neg (Nat.not_lt.2 ha)]
  rfl

theorem memRefusal_busy {s : State} (hbusy : s.status.busy = true) (a : Nat) :
    memRefusal s a = some (.memWhileBusy a) :=
  if_pos hbusy

theorem memRefusal_early {s : State} (hbusy : s.status.busy = false) (h : s.awaitsStatusRead) (a : Nat) :
    memRefusal s a = some (.memBeforeStatusRead a) := by
  rw [memRefusal, hbusy, if_pos h]
  rfl

/-- An access to `MEM` that has a meaning finds the block idle, and, before the `STATUS` read of rule R246, the reading
that gives it an effect. -/
theorem idle_of_memRefusal_none {s : State} {a : Nat} (h : memRefusal s a = none) :
    s.status.busy = false ∧ (s.host.handedOver = true → s.cfg.handOver = .whileBusy) := by
  rcases memRefusal_cases s a with ⟨_, hr⟩ | ⟨_, _, hr⟩ | ⟨_, _, _, hr⟩ | ⟨hbusy, hawait, _⟩
  · cases h.symm.trans hr
  · cases h.symm.trans hr
  · cases h.symm.trans hr
  · refine ⟨hbusy, fun hover => ?_⟩
    cases hreading : s.cfg.handOver with
    | untilStatusRead => exact absurd ⟨hreading, hover⟩ hawait
    | whileBusy => rfl

/-- A transaction up that accesses `MEM` is refused as the access is, read or write. -/
theorem memAccess_refused {s : State} {a : Nat} {r : Refusal} (h : memRefusal s a = some r) (b : Byte)
    (rest : List HostTxn) :
    (HostActs s (.memWrite a b) rest → step s = .refused r) ∧ (HostActs s (.memRead a) rest → step s = .refused r) :=
  ⟨fun hacts => step_refused hacts ((takeTurn_refusalOf s _).trans h),
    fun hacts => step_refused hacts ((takeTurn_refusalOf s _).trans h)⟩

/-! ### The window of rule R246 -/

theorem writeReg_host (s : State) (r : Reg) (v : Word) : (writeReg s r v).host = s.host := by
  obtain ⟨-, -, -, -, -, -, -, hhost, -⟩ := writeReg_frame s r v
  exact hhost

/-- A register write touches the host's record only by an accepted issue (rule R195). -/
theorem hostRegWrite_host (s : State) (off : Nat) (v : Word) :
    (hostRegWrite s off v).host = s.host
      ∨ off = 0x04 ∧ s.status.busy = false ∧ (hostRegWrite s off v).host = { s.host with handedOver := true } := by
  cases hbusy : s.status.busy with
  | true => rw [hostRegWrite_busy hbusy]; exact .inl rfl
  | false =>
    cases hoff : regAtOffset off with
    | none => rw [hostRegWrite_reserved hoff]; exact .inl rfl
    | some r =>
      obtain rfl := offset_of_regAtOffset hoff
      by_cases hr : r = .cmd
      · subst hr
        rw [hostRegWrite_cmd hbusy, issue]
        split
        · exact .inl rfl
        · exact .inr ⟨rfl, rfl, rfl⟩
      · rw [hostRegWrite_reg hbusy hr, writeReg_host]; exact .inl rfl

/-- Out of reset the window opens with an accepted write of `CMD` only. -/
theorem opens_of_transaction {x : HostTxn} {s : State} (hs : s.host.handedOver = false)
    (ht : (transaction x s).host.handedOver = true) :
    s.status.busy = false ∧ ∃ size c, x = .regWrite size 0x04 c := by
  cases x with
  | regWrite size off v =>
    rcases hostRegWrite_host s off v with h | ⟨rfl, hbusy, _⟩
    · rw [transaction, h, hs] at ht; cases ht
    · exact ⟨hbusy, size, v, rfl⟩
  | regRead _ off => simp only [transaction] at ht; split at ht <;> simp [hs] at ht
  | memWrite a b => cases hs.symm.trans ht
  | memRead a => cases hs.symm.trans ht
  | poll => simp only [transaction] at ht; split at ht <;> simp [hs] at ht
  | resetN level => cases hs.symm.trans ht

/-- Out of reset the window closes with a read of `STATUS` that returns `BUSY = 0` only. -/
theorem closes_of_transaction {x : HostTxn} {s : State} (hs : s.host.handedOver = true)
    (ht : (transaction x s).host.handedOver = false) :
    s.status.busy = false ∧ (x = .poll ∨ ∃ size, x = .regRead size 0x08) := by
  cases x with
  | regWrite size off v =>
    rcases hostRegWrite_host s off v with h | ⟨_, _, h⟩ <;> rw [transaction, h] at ht
    · cases hs.symm.trans ht
    · cases ht
  | regRead size off =>
    simp only [transaction] at ht
    split at ht
    · next hoff => exact ⟨by simpa [hs] using ht, .inr ⟨size, by rw [hoff]; rfl⟩⟩
    · cases hs.symm.trans ht
  | memWrite a b => cases hs.symm.trans ht
  | memRead a => cases hs.symm.trans ht
  | poll =>
    simp only [transaction] at ht
    split at ht
    · cases hs.symm.trans ht
    · next hbusy => exact ⟨by simpa using hbusy, .inl rfl⟩
  | resetN level => cases hs.symm.trans ht

/-- In reset only its release changes the window. -/
theorem transactionInReset_handedOver {x : HostTxn} (hx : x ≠ .resetN true) (s : State) :
    (transactionInReset x s).host.handedOver = s.host.handedOver := by
  cases x with
  | resetN level =>
    cases level
    · rfl
    · exact absurd rfl hx
  | _ => rfl

/-- An access to `MEM` in the window is recorded, and nothing else is (log entry 17). -/
theorem transaction_earlyAccess (x : HostTxn) (s : State) :
    (transaction x s).host.earlyAccess = (s.host.earlyAccess || (isMemAccess x && s.host.handedOver)) := by
  cases x with
  | regWrite _ off v =>
    rcases hostRegWrite_host s off v with h | ⟨_, _, h⟩ <;> rw [transaction, h] <;> simp [isMemAccess]
  | regRead _ off => simp only [transaction]; split <;> simp [isMemAccess]
  | memWrite a b => rfl
  | memRead a => rfl
  | poll => simp only [transaction]; split <;> simp [isMemAccess]
  | resetN level => simp [transaction, isMemAccess]

theorem transactionInReset_earlyAccess (x : HostTxn) (s : State) :
    (transactionInReset x s).host.earlyAccess = (s.host.earlyAccess || (isMemAccess x && s.host.handedOver)) := by
  cases x with
  | resetN level => cases level <;> simp [transactionInReset, isMemAccess]
  | memWrite a b => rfl
  | memRead a => rfl
  | _ => simp [transactionInReset, isMemAccess]

/-- The block leaves the host's record alone. -/
theorem completionStep_blockTurn_host {s t : State} (h : completionStep (blockTurn s) = .next t) : t.host = s.host := by
  rw [completionStep_frame h]; exact blockTurn_host s

/-- A register read that has a meaning is a word access (rule R66). -/
theorem size_eq_word_of_read_not_refused {s : State} {size : AccessSize} {off : Nat}
    (h : refusalOf s (.regRead size off) = none) : size = .word := by
  by_contra hs
  simp [refusalOf, hs] at h

theorem window_opens {s t : State} (h : step s = .next t) (hs : s.host.handedOver = false)
    (ht : t.host.handedOver = true) : s.status.busy = false ∧ ∃ c l, HostMoves s (.regWrite .word 0x04 c) l := by
  cases stepsTo_of_step h with
  | block _ he => rw [completionStep_blockTurn_host he, hs] at ht; cases ht
  | stutter _ he => rw [he, hs] at ht; cases ht
  | host x rest hmoves hx he =>
    obtain ⟨hbusy, size, c, rfl⟩ := opens_of_transaction (s := hostMoved s rest) hs (he ▸ ht)
    obtain rfl := size_eq_word_of_not_refused hx
    exact ⟨hbusy, c, rest, hmoves⟩
  | inReset x rest _ _ _ he =>
    by_cases hrel : x = .resetN true
    · rw [he, hrel] at ht; cases ht
    · rw [he, transactionInReset_handedOver hrel] at ht
      cases hs.symm.trans ht

theorem window_closes {s t : State} (h : step s = .next t) (hs : s.host.handedOver = true)
    (ht : t.host.handedOver = false) :
    (s.status.busy = false ∧ ∃ l, HostMoves s .poll l ∨ HostMoves s (.regRead .word 0x08) l)
      ∨ (s.resetN = false ∧ ∃ l, s.host.script = .resetN true :: l) := by
  cases stepsTo_of_step h with
  | block _ he => rw [completionStep_blockTurn_host he, hs] at ht; cases ht
  | stutter _ he => rw [he, hs] at ht; cases ht
  | host x rest hmoves hx he =>
    obtain ⟨hbusy, rfl | ⟨size, rfl⟩⟩ := closes_of_transaction (s := hostMoved s rest) hs (he ▸ ht)
    · exact .inl ⟨hbusy, rest, .inl hmoves⟩
    · obtain rfl := size_eq_word_of_read_not_refused hx
      exact .inl ⟨hbusy, rest, .inr hmoves⟩
  | inReset x rest hreset hscript _ he =>
    by_cases hrel : x = .resetN true
    · exact .inr ⟨hreset, rest, hrel ▸ hscript⟩
    · rw [he, transactionInReset_handedOver hrel] at ht
      cases hs.symm.trans ht

/-- A transaction that is up, has a meaning and changes the record of early accesses is an access to `MEM` in the
window, under the reading that gives it an effect. -/
theorem earlyAccess_recorded {s : State} {x : HostTxn} {rest : List HostTxn} (hacts : HostActs s x rest)
    (hx : refusalOf s x = none)
    (hne : (s.host.earlyAccess || (isMemAccess x && s.host.handedOver)) ≠ s.host.earlyAccess) :
    (s.host.earlyAccess || (isMemAccess x && s.host.handedOver)) = true ∧ s.host.handedOver = true
      ∧ s.status.busy = false ∧ s.cfg.handOver = .whileBusy
      ∧ ∃ l k c, HostActs s (.memRead k) l ∨ HostActs s (.memWrite k c) l := by
  have hrec : (isMemAccess x && s.host.handedOver) = true := by
    by_contra hn
    simp [Bool.eq_false_iff.2 hn] at hne
  obtain ⟨hmem, hover⟩ := Bool.and_eq_true_iff.1 hrec
  have hidle : s.status.busy = false ∧ s.cfg.handOver = .whileBusy
      ∧ ∃ l k c, HostActs s (.memRead k) l ∨ HostActs s (.memWrite k c) l := by
    cases x with
    | memWrite k c =>
      obtain ⟨hbusy, hreading⟩ := idle_of_memRefusal_none hx
      exact ⟨hbusy, hreading hover, rest, k, c, .inr hacts⟩
    | memRead k =>
      obtain ⟨hbusy, hreading⟩ := idle_of_memRefusal_none hx
      exact ⟨hbusy, hreading hover, rest, k, 0, .inl hacts⟩
    | _ => cases hmem
  exact ⟨by rw [hrec, Bool.or_true], hover, hidle⟩

theorem earlyAccess_changes {s t : State} (h : step s = .next t) (hne : t.host.earlyAccess ≠ s.host.earlyAccess) :
    t.host.earlyAccess = true ∧ s.host.handedOver = true ∧ s.status.busy = false ∧ s.cfg.handOver = .whileBusy
      ∧ ∃ l k c, HostActs s (.memRead k) l ∨ HostActs s (.memWrite k c) l := by
  cases stepsTo_of_step h with
  | block _ he => exact absurd (by rw [completionStep_blockTurn_host he]) hne
  | stutter _ he => exact absurd (by rw [he]) hne
  | host x rest hmoves hx he =>
    rw [he, transaction_earlyAccess] at hne ⊢
    exact earlyAccess_recorded (.inl hmoves) hx hne
  | inReset x rest hreset hscript hx he =>
    rw [he, transactionInReset_earlyAccess] at hne ⊢
    exact earlyAccess_recorded (.inr ⟨hreset, hscript⟩) hx hne

/-! ### Host access to `MEM` -/

/-- Settles O17: an access that is not refused has its effect, the refusals are those of `memRefusal`, and the records
change as the window does. -/
theorem hostMemoryAccess : Obligations.HostMemoryAccess := by
  unfold Obligations.HostMemoryAccess
  intro s a b rest
  refine ⟨fun hmoves hmem ha => ?_, fun hmoves hmem ha => ?_, fun hmem ha => ?_, fun hbusy => ?_,
    fun hbusy hreading hover => ?_, fun t h => ⟨window_opens h, window_closes h, earlyAccess_changes h⟩⟩
  · refine ⟨_, step_of_hostMoves hmoves (memRefusal_inMem hmem ha), ?_, fun k hk => ?_, rfl⟩
    · exact (byte_insertCell _ a a b).trans (if_pos rfl)
    · exact (byte_insertCell _ a k b).trans (if_neg hk)
  · rw [step_of_hostMoves hmoves (memRefusal_inMem hmem ha)]
    rfl
  · exact memAccess_refused (memRefusal_outsideMem hmem ha) b rest
  · exact memAccess_refused (memRefusal_busy hbusy a) b rest
  · exact memAccess_refused (memRefusal_early hbusy ⟨hreading, hover⟩ a) b rest

end Sys2Proof.Proofs
end

section
/-! PROOFS. The record of a fault (rules R201, R210), and the gate that it closes over whole runs (rule R212). -/

namespace Sys2Proof.Proofs

open Sys2Proof.Machine Sys2Proof.Laws Sys2Proof.Claims

/-- Settles O8: the next state is the fault entry, which writes these two registers, and each kind has its code. -/
theorem faultEntryRecordsAndKeepsTheRest : Obligations.FaultEntryRecordsAndKeepsTheRest := by
  unfold Obligations.FaultEntryRecordsAndKeepsTheRest
  intro k info s
  refine ⟨enterFault k info s, rfl, rfl, rfl, rfl, rfl, rfl, rfl, ?_⟩
  cases k <;> rfl

/-! ### What a gated transaction leaves -/

/-- The transaction neither passes the gate of rule R212 nor releases the reset. -/
def StaysGated (x : HostTxn) : Prop :=
  x ≠ .resetN true ∧ ∀ size c, x = .regWrite size 0x04 c → c.toNat % 256 ≠ 0x08

/-- A fault is recorded and the block is idle, and no transaction that is still to come changes that. -/
structure Gated (s : State) : Prop where
  err : s.status.err = true
  idle : s.status.busy = false
  script : ∀ x ∈ s.host.script, StaysGated x

/-- `t` has the fault record and the latch of `s`, and no transaction to come that `s` has not. -/
structure KeepsRecord (s t : State) : Prop where
  status : t.status = s.status
  errinfo : t.errinfo = s.errinfo
  pending : t.pending = s.pending
  script : t.host.script ⊆ s.host.script

theorem KeepsRecord.of_eq {s t : State} (hstatus : t.status = s.status) (herrinfo : t.errinfo = s.errinfo)
    (hpending : t.pending = s.pending) (hscript : t.host.script = s.host.script) : KeepsRecord s t :=
  ⟨hstatus, herrinfo, hpending, hscript ▸ List.Subset.refl _⟩

theorem KeepsRecord.refl (s : State) : KeepsRecord s s :=
  .of_eq rfl rfl rfl rfl

theorem KeepsRecord.trans {s t u : State} (hst : KeepsRecord s t) (htu : KeepsRecord t u) : KeepsRecord s u :=
  ⟨htu.status.trans hst.status, htu.errinfo.trans hst.errinfo, htu.pending.trans hst.pending,
    List.Subset.trans htu.script hst.script⟩

theorem Gated.of_keepsRecord {s t : State} (h : Gated s) (hk : KeepsRecord s t) : Gated t :=
  ⟨hk.status ▸ h.err, hk.status ▸ h.idle, fun x hx => h.script x (hk.script hx)⟩

/-- A register write leaves the record: at `CMD` the gate drops the word (rule R212), elsewhere no field of the record
stands. -/
theorem hostRegWrite_keepsRecord {s : State} {size : AccessSize} {off : Nat} {v : Word} (herr : s.status.err = true)
    (hidle : s.status.busy = false) (hx : StaysGated (.regWrite size off v)) :
    KeepsRecord s (hostRegWrite s off v) := by
  cases hoff : regAtOffset off with
  | none => rw [hostRegWrite_reserved hoff]; exact .refl s
  | some r =>
    obtain rfl := offset_of_regAtOffset hoff
    by_cases hr : r = .cmd
    · subst hr
      rw [hostRegWrite_cmd hidle, issue_dropped herr (hx.2 size v rfl)]
      exact .refl s
    · rw [hostRegWrite_reg hidle hr]
      obtain ⟨-, hstatus, herrinfo, hpending, -⟩ := writeReg_frame s r v
      exact .of_eq hstatus herrinfo hpending (by rw [writeReg_host])

/-- Out of reset only a write to `CMD` reaches the record of an idle block, whose `poll` does not put itself back. -/
theorem transaction_keepsRecord {x : HostTxn} {s : State} (herr : s.status.err = true)
    (hidle : s.status.busy = false) (hx : StaysGated x) : KeepsRecord s (transaction x s) := by
  cases x with
  | regWrite size off v => exact hostRegWrite_keepsRecord herr hidle hx
  | regRead _ off => simp only [transaction]; split <;> exact .of_eq rfl rfl rfl rfl
  | memWrite a b => exact .of_eq rfl rfl rfl rfl
  | memRead a => exact .of_eq rfl rfl rfl rfl
  | poll => simp only [transaction, hidle]; exact .of_eq rfl rfl rfl rfl
  | resetN level => exact .of_eq rfl rfl rfl rfl

/-- In reset only its release reaches the record (rule R240). -/
theorem transactionInReset_keepsRecord {x : HostTxn} (hx : x ≠ .resetN true) (s : State) :
    KeepsRecord s (transactionInReset x s) := by
  cases x with
  | resetN level =>
    cases level
    · exact .of_eq rfl rfl rfl rfl
    · exact absurd rfl hx
  | _ => exact .of_eq rfl rfl rfl rfl

/-! ### The gate over whole runs -/

/-- The host's progress through its script is no change of the record. -/
theorem keepsRecord_hostMoved {s : State} {x : HostTxn} {rest : List HostTxn} (h : s.host.script = x :: rest) :
    KeepsRecord s (hostMoved s rest) :=
  ⟨rfl, rfl, rfl, h ▸ List.subset_cons_self x rest⟩

theorem keepsRecord_withScript {s : State} {x : HostTxn} {rest : List HostTxn} (h : s.host.script = x :: rest) :
    KeepsRecord s (s.withScript rest) :=
  (keepsRecord_hostMoved h).trans (.of_eq rfl rfl rfl rfl)

/-- An idle block does not move, so a step from a gated state is a transaction that stays gated (rule R212). -/
theorem step_keepsRecord {s t : State} (h : Gated s) (hstep : step s = .next t) : KeepsRecord s t := by
  cases stepsTo_of_step hstep with
  | block hmoves _ => cases h.idle.symm.trans hmoves.1
  | stutter _ ht => exact ht ▸ .refl s
  | host x rest hmoves _ ht =>
    obtain ⟨hscript, _⟩ := hmoves
    have hx : StaysGated x := h.script x (by simp [hscript])
    exact ht ▸ (keepsRecord_hostMoved hscript).trans (transaction_keepsRecord h.err h.idle hx)
  | inReset x rest _ hscript _ ht =>
    have hx : StaysGated x := h.script x (by simp [hscript])
    exact ht ▸ (keepsRecord_withScript hscript).trans (transactionInReset_keepsRecord hx.1 _)

/-- A run of `k + 1` steps that reaches a state has a first step, and a run of `k` steps after it. -/
theorem exists_step_of_run_succ {s t : State} {k : Nat} (h : Host.Core.run Sys2Proof.core (k + 1) s = .next t) :
    ∃ u, step s = .next u ∧ Host.Core.run Sys2Proof.core k u = .next t := by
  cases hstep : step s with
  | next u => exact ⟨u, rfl, (run_succ_of_step k hstep).symm.trans h⟩
  | fault r => simp [Host.Core.run, Sys2Proof.core, hstep] at h
  | refused r => simp [Host.Core.run, Sys2Proof.core, hstep] at h

theorem run_keepsRecord {s t : State} {k : Nat} (h : Gated s) (hrun : Host.Core.run Sys2Proof.core k s = .next t) :
    KeepsRecord s t := by
  induction k generalizing s with
  | zero => exact eq_of_next rfl hrun ▸ .refl s
  | succ k ih =>
    obtain ⟨u, hstep, hrest⟩ := exists_step_of_run_succ hrun
    have hu : KeepsRecord s u := step_keepsRecord h hstep
    exact hu.trans (ih (h.of_keepsRecord hu) hrest)

/-- Settles O26, by induction on the number of steps: a gated state keeps its record in one step, and stays gated. -/
theorem errorGateHoldsOverRuns : Obligations.ErrorGateHoldsOverRuns := by
  unfold Obligations.ErrorGateHoldsOverRuns
  intro s t k herr hidle hscript hrun
  obtain ⟨hstatus, herrinfo, hpending, -⟩ := run_keepsRecord ⟨herr, hidle, hscript⟩ hrun
  exact ⟨hstatus, herrinfo, hpending⟩

end Sys2Proof.Proofs
end

section
/-! PROOFS. The reset input (rules R240, R241): held low it stops both agents, and its release starts the block anew. -/

namespace Sys2Proof.Proofs

open Sys2Proof.Machine Sys2Proof.Laws Sys2Proof.Claims

theorem refusalOf_eq_none {s : State} {x : HostTxn} (h : HasMeaning s x) : refusalOf s x = none := by
  cases x with
  | regWrite _ _ _ => exact if_pos h
  | regRead _ _ => exact if_pos h
  | memWrite _ _ => exact memRefusal_inMem h.1 h.2
  | memRead _ => exact memRefusal_inMem h.1 h.2
  | poll => rfl
  | resetN _ => rfl

/-- In reset a transaction other than the release leaves only the record of an early access to `MEM` (log entry 17). -/
theorem transactionInReset_of_ne {x : HostTxn} (hx : x ≠ .resetN true) (s : State) :
    transactionInReset x s =
      { s with host := { s.host with
          earlyAccess := s.host.earlyAccess || (isMemAccess x && s.host.handedOver) } } := by
  cases x with
  | resetN level =>
    cases level
    · simp [transactionInReset, isMemAccess]
    · exact absurd rfl hx
  | memWrite _ _ => rfl
  | memRead _ => rfl
  | _ => simp [transactionInReset, isMemAccess]

/-- In reset no command is completed, and a host with nothing left does nothing, so the machine stays as it is. -/
theorem step_inReset_of_script_nil {s : State} (hreset : s.resetN = false) (hscript : s.host.script = []) :
    step s = .next s := by
  obtain ⟨hagent, hturn⟩ := nextAgent_reset hreset
  rw [step_host hagent, hturn]
  simp [hostStep, hscript]

/-- Settles O19: the input is a transaction of its own out of reset, and in reset only its release acts on the block. -/
theorem resetInputActs : Obligations.ResetInputActs := by
  unfold Obligations.ResetInputActs
  refine ⟨fun s level rest hmoves => step_of_hostMoves hmoves rfl,
    fun s hreset hscript => step_inReset_of_script_nil hreset hscript,
    fun s x rest hreset hscript => ⟨fun hx hmeaning => ?_, ?_⟩⟩
  · rw [step_inReset hreset hscript (refusalOf_eq_none hmeaning), transactionInReset_of_ne hx]
    rfl
  · rintro rfl
    exact ⟨releaseReset (s.withScript rest), step_inReset hreset hscript rfl, rfl, fun _ => rfl⟩

end Sys2Proof.Proofs
end
